-- ==== Sys2Proof/Word.lean ====
section
/-! DEFINITION. The words of the machine: bytes, register words, 64-bit operands (spec 00_scope.md R7). -/

namespace Sys2Proof

/-- One byte: a key byte, a message byte, a digest byte, a character code (R7, R97). -/
abbrev Byte := BitVec 8

/-- One register word, the width of the port (R6 `XLEN_PORT`, R61). -/
abbrev Word := BitVec 32

/-- A timestamp, epoch, interval or counter (R6 `TW`). -/
abbrev DWord := BitVec 64

/-- A transaction word `TX`: bit 36 `we`, bits 35:32 `idx`, bits 31:0 `wdata` (R90). -/
abbrev TxWord := BitVec 37

/-- A text: a finite sequence of 8-bit character codes (R140). -/
abbrev Text := List Byte

/-- The shape of a keyed-hash function: key bytes and message bytes to 20 bytes, total (R201, R202). -/
abbrev KeyedHash := List Byte → List Byte → Vector Byte 20

end Sys2Proof
end

