-- ==== Sys2Proof/Syntax.lean ====
section
/-! DEFINITION. The transactions a host can issue: one constructor per row of spec/opcode_table.json (30_encoding.md R90 to R101). -/

namespace Sys2Proof

/-- One host transaction, decoded. A read carries no operand: its `wdata` is ignored (R90, R120). A write carries its `wdata`,
also where the write is discarded whatever the data is (R124), so that encoding drops no bit. -/
inductive Instr where
  /-- `RD CMD`, word 0 (R110). -/
  | rdCmd
  /-- `RD STATUS`, word 1 (R111). -/
  | rdStatus
  /-- `RD DIGITS`, word 2 (R112). -/
  | rdDigits
  /-- `RD KEY_LEN`, word 3 (R113). -/
  | rdKeyLen
  /-- `RD EPOCH_LO`, word 4 (R114). -/
  | rdEpochLo
  /-- `RD EPOCH_HI`, word 5 (R115). -/
  | rdEpochHi
  /-- `RD INTERVAL_LO`, word 6 (R116). -/
  | rdIntervalLo
  /-- `RD INTERVAL_HI`, word 7 (R117). -/
  | rdIntervalHi
  /-- `RD TIME_LO`, word 8 (R118). -/
  | rdTimeLo
  /-- `RD TIME_HI`, word 9 (R119). -/
  | rdTimeHi
  /-- `RD COUNTER_LO`, word 10 (R132). -/
  | rdCounterLo
  /-- `RD COUNTER_HI`, word 11 (R133). -/
  | rdCounterHi
  /-- `RD CODE`, word 12 (R134). -/
  | rdCode
  /-- `RD CONFIG`, word 13 (R135). -/
  | rdConfig
  /-- `RD W14`, reserved (R136). -/
  | rdW14
  /-- `RD W15`, reserved (R137). -/
  | rdW15
  /-- `WR STATUS, v`: an illegal write (R124). -/
  | wrStatus (v : Word)
  /-- `WR DIGITS, v` (R125). -/
  | wrDigits (v : Word)
  /-- `WR KEY_LEN, v`: an illegal write (R124). -/
  | wrKeyLen (v : Word)
  /-- `WR EPOCH_LO, v` (R126). -/
  | wrEpochLo (v : Word)
  /-- `WR EPOCH_HI, v` (R127). -/
  | wrEpochHi (v : Word)
  /-- `WR INTERVAL_LO, v` (R128). -/
  | wrIntervalLo (v : Word)
  /-- `WR INTERVAL_HI, v` (R129). -/
  | wrIntervalHi (v : Word)
  /-- `WR TIME_LO, v` (R130). -/
  | wrTimeLo (v : Word)
  /-- `WR TIME_HI, v` (R131). -/
  | wrTimeHi (v : Word)
  /-- `WR COUNTER_LO, v`: an illegal write (R124). -/
  | wrCounterLo (v : Word)
  /-- `WR COUNTER_HI, v`: an illegal write (R124). -/
  | wrCounterHi (v : Word)
  /-- `WR CODE, v`: an illegal write (R124). -/
  | wrCode (v : Word)
  /-- `WR CONFIG, v`: an illegal write (R124). -/
  | wrConfig (v : Word)
  /-- `WR W14, v`: an illegal write of a reserved word (R124, R68). -/
  | wrW14 (v : Word)
  /-- `WR W15, v`: an illegal write of a reserved word (R124, R68). -/
  | wrW15 (v : Word)
  /-- `NOP` (R230). -/
  | nop
  /-- `KEYCLR` (R147). -/
  | keyclr
  /-- `B32PUSH ch`: one character code (R148, R92). -/
  | b32push (ch : Byte)
  /-- `RAWPUSH b`: one key byte (R152, R92). -/
  | rawpush (b : Byte)
  /-- `COMPUTE` (R170). -/
  | compute
  /-- `ZEROIZE` (R232). -/
  | zeroize
  /-- `ACK` (R234). -/
  | ack
  /-- A write of word 0 whose data is no command word (R96). -/
  | wrCmdIllegal (v : Word)
  deriving DecidableEq, Repr

/-- Whether the transaction is a write (`we = 1`, R61). -/
def Instr.isWrite : Instr → Bool
  | .rdCmd | .rdStatus | .rdDigits | .rdKeyLen | .rdEpochLo | .rdEpochHi | .rdIntervalLo | .rdIntervalHi
  | .rdTimeLo | .rdTimeHi | .rdCounterLo | .rdCounterHi | .rdCode | .rdConfig | .rdW14 | .rdW15 => false
  | .wrStatus _ | .wrDigits _ | .wrKeyLen _ | .wrEpochLo _ | .wrEpochHi _ | .wrIntervalLo _ | .wrIntervalHi _
  | .wrTimeLo _ | .wrTimeHi _ | .wrCounterLo _ | .wrCounterHi _ | .wrCode _ | .wrConfig _ | .wrW14 _ | .wrW15 _
  | .nop | .keyclr | .b32push _ | .rawpush _ | .compute | .zeroize | .ack | .wrCmdIllegal _ => true

/-- The register word the transaction names (`idx`, R62, R90). -/
def Instr.idx : Instr → BitVec 4
  | .rdCmd | .nop | .keyclr | .b32push _ | .rawpush _ | .compute | .zeroize | .ack | .wrCmdIllegal _ => 0#4
  | .rdStatus | .wrStatus _ => 1#4
  | .rdDigits | .wrDigits _ => 2#4
  | .rdKeyLen | .wrKeyLen _ => 3#4
  | .rdEpochLo | .wrEpochLo _ => 4#4
  | .rdEpochHi | .wrEpochHi _ => 5#4
  | .rdIntervalLo | .wrIntervalLo _ => 6#4
  | .rdIntervalHi | .wrIntervalHi _ => 7#4
  | .rdTimeLo | .wrTimeLo _ => 8#4
  | .rdTimeHi | .wrTimeHi _ => 9#4
  | .rdCounterLo | .wrCounterLo _ => 10#4
  | .rdCounterHi | .wrCounterHi _ => 11#4
  | .rdCode | .wrCode _ => 12#4
  | .rdConfig | .wrConfig _ => 13#4
  | .rdW14 | .wrW14 _ => 14#4
  | .rdW15 | .wrW15 _ => 15#4

/-- The row's name in spec/opcode_table.json. -/
def Instr.mnemonic : Instr → String
  | .rdCmd => "RD_CMD"
  | .rdStatus => "RD_STATUS"
  | .rdDigits => "RD_DIGITS"
  | .rdKeyLen => "RD_KEY_LEN"
  | .rdEpochLo => "RD_EPOCH_LO"
  | .rdEpochHi => "RD_EPOCH_HI"
  | .rdIntervalLo => "RD_INTERVAL_LO"
  | .rdIntervalHi => "RD_INTERVAL_HI"
  | .rdTimeLo => "RD_TIME_LO"
  | .rdTimeHi => "RD_TIME_HI"
  | .rdCounterLo => "RD_COUNTER_LO"
  | .rdCounterHi => "RD_COUNTER_HI"
  | .rdCode => "RD_CODE"
  | .rdConfig => "RD_CONFIG"
  | .rdW14 => "RD_W14"
  | .rdW15 => "RD_W15"
  | .wrStatus _ => "WR_STATUS__illegal_write"
  | .wrDigits _ => "WR_DIGITS"
  | .wrKeyLen _ => "WR_KEY_LEN__illegal_write"
  | .wrEpochLo _ => "WR_EPOCH_LO"
  | .wrEpochHi _ => "WR_EPOCH_HI"
  | .wrIntervalLo _ => "WR_INTERVAL_LO"
  | .wrIntervalHi _ => "WR_INTERVAL_HI"
  | .wrTimeLo _ => "WR_TIME_LO"
  | .wrTimeHi _ => "WR_TIME_HI"
  | .wrCounterLo _ => "WR_COUNTER_LO__illegal_write"
  | .wrCounterHi _ => "WR_COUNTER_HI__illegal_write"
  | .wrCode _ => "WR_CODE__illegal_write"
  | .wrConfig _ => "WR_CONFIG__illegal_write"
  | .wrW14 _ => "WR_W14__illegal_write"
  | .wrW15 _ => "WR_W15__illegal_write"
  | .nop => "NOP"
  | .keyclr => "KEYCLR"
  | .b32push _ => "B32PUSH"
  | .rawpush _ => "RAWPUSH"
  | .compute => "COMPUTE"
  | .zeroize => "ZEROIZE"
  | .ack => "ACK"
  | .wrCmdIllegal _ => "WR_CMD__illegal_command"

end Sys2Proof
end

