-- ==== Sys2Proof/WellFormed.lean ====
section
/-! DEFINITION. Which terms of `Instr` stand for a transaction word: the operand widths are in the types, and the one check left is
that an illegal command word is no command word (30_encoding.md R95, R96). -/

namespace Sys2Proof

/-- One row of R95: a word `w` spells the command exactly when `(w & mask) = match`. -/
structure CommandRow where
  /-- The mask of the row. -/
  mask : Word
  /-- The value under the mask. -/
  pattern : Word
  deriving DecidableEq, Repr

/-- The seven rows of R95, in the table's order: NOP, KEYCLR, B32PUSH, RAWPUSH, COMPUTE, ZEROIZE, ACK. -/
def commandRows : List CommandRow :=
  [ ⟨0xFFFFFFFF#32, 0x00000000#32⟩, ⟨0xFFFFFFFF#32, 0x00000001#32⟩, ⟨0xFFFF00FF#32, 0x00000002#32⟩,
    ⟨0xFFFF00FF#32, 0x00000003#32⟩, ⟨0xFFFFFFFF#32, 0x00000004#32⟩, ⟨0xFFFFFFFF#32, 0x00000005#32⟩,
    ⟨0xFFFFFFFF#32, 0x00000006#32⟩ ]

/-- Whether `w` spells the row's command. -/
def CommandRow.spelledBy (r : CommandRow) (w : Word) : Bool := (w &&& r.mask) == r.pattern

/-- Whether `w` is one of the seven commands (R94, R95). -/
def isCommandWord (w : Word) : Bool := commandRows.any (fun r => r.spelledBy w)

/-- A well-formed transaction: an illegal command carries a word that spells no command; every other constructor admits every
value of its operand. -/
def Instr.wellFormed : Instr → Bool
  | .wrCmdIllegal v => !isCommandWord v
  | .rdCmd | .rdStatus | .rdDigits | .rdKeyLen | .rdEpochLo | .rdEpochHi | .rdIntervalLo | .rdIntervalHi
  | .rdTimeLo | .rdTimeHi | .rdCounterLo | .rdCounterHi | .rdCode | .rdConfig | .rdW14 | .rdW15
  | .wrStatus _ | .wrDigits _ | .wrKeyLen _ | .wrEpochLo _ | .wrEpochHi _ | .wrIntervalLo _ | .wrIntervalHi _
  | .wrTimeLo _ | .wrTimeHi _ | .wrCounterLo _ | .wrCounterHi _ | .wrCode _ | .wrConfig _ | .wrW14 _ | .wrW15 _
  | .nop | .keyclr | .b32push _ | .rawpush _ | .compute | .zeroize | .ack => true

end Sys2Proof
end

