-- ==== Sys2Proof/Decode.lean ====
section
/-! DEFINITION. From transaction words to transactions and back (30_encoding.md R90 to R101), and the opcode table as data. -/

namespace Sys2Proof

/-- `TX[36]`: 1 write, 0 read (R90). -/
def txWe (w : TxWord) : Bool := w.getLsbD 36

/-- `TX[35:32]`: the register word index (R90). -/
def txIdx (w : TxWord) : BitVec 4 := w.extractLsb' 32 4

/-- `TX[31:0]`: the data of a write (R90). -/
def txData (w : TxWord) : Word := w.extractLsb' 0 32

/-- A read, by its index; there is no illegal read (R96, R101, R110 to R119, R132 to R137). -/
def decodeRead (idx : BitVec 4) : Instr :=
  match idx.toNat with
  | 0 => .rdCmd
  | 1 => .rdStatus
  | 2 => .rdDigits
  | 3 => .rdKeyLen
  | 4 => .rdEpochLo
  | 5 => .rdEpochHi
  | 6 => .rdIntervalLo
  | 7 => .rdIntervalHi
  | 8 => .rdTimeLo
  | 9 => .rdTimeHi
  | 10 => .rdCounterLo
  | 11 => .rdCounterHi
  | 12 => .rdCode
  | 13 => .rdConfig
  | 14 => .rdW14
  | _ => .rdW15

/-- `CH`, bits 15:8 of a command word, as they stand (R91, R92). -/
def commandOperand (d : Word) : Byte := d.extractLsb' 8 8

/-- A command word: the seven rows of R95 with their masks, and `wrCmdIllegal` for every other word (R94, R96). -/
def decodeCommand (d : Word) : Instr :=
  if d &&& 0xFFFFFFFF#32 = 0x00000000#32 then .nop
  else if d &&& 0xFFFFFFFF#32 = 0x00000001#32 then .keyclr
  else if d &&& 0xFFFF00FF#32 = 0x00000002#32 then .b32push (commandOperand d)
  else if d &&& 0xFFFF00FF#32 = 0x00000003#32 then .rawpush (commandOperand d)
  else if d &&& 0xFFFFFFFF#32 = 0x00000004#32 then .compute
  else if d &&& 0xFFFFFFFF#32 = 0x00000005#32 then .zeroize
  else if d &&& 0xFFFFFFFF#32 = 0x00000006#32 then .ack
  else .wrCmdIllegal d

/-- A write, by its index: word 0 is a command word (R101). -/
def decodeWrite (idx : BitVec 4) (d : Word) : Instr :=
  match idx.toNat with
  | 0 => decodeCommand d
  | 1 => .wrStatus d
  | 2 => .wrDigits d
  | 3 => .wrKeyLen d
  | 4 => .wrEpochLo d
  | 5 => .wrEpochHi d
  | 6 => .wrIntervalLo d
  | 7 => .wrIntervalHi d
  | 8 => .wrTimeLo d
  | 9 => .wrTimeHi d
  | 10 => .wrCounterLo d
  | 11 => .wrCounterHi d
  | 12 => .wrCode d
  | 13 => .wrConfig d
  | 14 => .wrW14 d
  | _ => .wrW15 d

/-- The decoder, total on transaction words: every word is exactly one transaction (R101). -/
def decode (w : TxWord) : Instr := if txWe w then decodeWrite (txIdx w) (txData w) else decodeRead (txIdx w)

/-- Why a number is no transaction word. -/
inductive DecodeError where
  /-- The number has a bit above bit 36, so it is no 37-bit word (R90). -/
  | notATransactionWord
  deriving DecidableEq, Repr

/-- The decoder on any number: `notATransactionWord` for one that does not fit 37 bits (R90). -/
def decodeNumber (n : Nat) : Except DecodeError Instr :=
  if n < 2 ^ 37 then .ok (decode (BitVec.ofNat 37 n)) else .error .notATransactionWord

/-- Bytes to the number they spell, the first byte least significant: the order of spec/opcode_table.json's bits in whole bytes.
The port itself has no byte order (R65). -/
def numberOfBytes : List Byte → Nat
  | [] => 0
  | b :: rest => b.toNat + 256 * numberOfBytes rest

/-- The decoder on any bytes. There is one length and no shorter or longer form (R90, R98), so bytes above the fifth must be 0. The spec
gives a transaction word no byte form. DESIGN CHOICE (log 13): the byte order, and that a list of fewer than five bytes is accepted, its
missing bytes read as 0, so that the empty list is `RD CMD`. -/
def decodeBytes (bs : List Byte) : Except DecodeError Instr := decodeNumber (numberOfBytes bs)

/-- The host's view of the decoder: the instruction read from the table's word `w` of `nbits` bits, every bit above being 0. -/
def decodeTableWord (nbits w : Nat) : Option Instr :=
  match decodeNumber (w % 2 ^ nbits) with
  | .ok i => some i
  | .error _ => none

/-- A transaction word from its three fields (R90). -/
def txOf (we : Bool) (idx : BitVec 4) (d : Word) : TxWord := BitVec.ofBool we ++ idx ++ d

/-- A command word of format C: bits 31:16 zero, `CH` in 15:8, `OP` in 7:0 (R91). -/
def commandWordC (op ch : Byte) : Word := 0#16 ++ ch ++ op

/-- The data field of a transaction: 0 for a read, the canonical value (R90); the command word of R99 for a command. -/
def encodeData : Instr → Word
  | .rdCmd | .rdStatus | .rdDigits | .rdKeyLen | .rdEpochLo | .rdEpochHi | .rdIntervalLo | .rdIntervalHi
  | .rdTimeLo | .rdTimeHi | .rdCounterLo | .rdCounterHi | .rdCode | .rdConfig | .rdW14 | .rdW15 => 0#32
  | .wrStatus v | .wrDigits v | .wrKeyLen v | .wrEpochLo v | .wrEpochHi v | .wrIntervalLo v | .wrIntervalHi v
  | .wrTimeLo v | .wrTimeHi v | .wrCounterLo v | .wrCounterHi v | .wrCode v | .wrConfig v | .wrW14 v | .wrW15 v
  | .wrCmdIllegal v => v
  | .nop => 0x00000000#32
  | .keyclr => 0x00000001#32
  | .b32push ch => commandWordC 0x02#8 ch
  | .rawpush b => commandWordC 0x03#8 b
  | .compute => 0x00000004#32
  | .zeroize => 0x00000005#32
  | .ack => 0x00000006#32

/-- The encoder: the transaction word of a transaction, as R99 gives it. -/
def encode (i : Instr) : TxWord := txOf i.isWrite i.idx (encodeData i)

/-- One row of spec/opcode_table.json: a transaction word `w` is the row's when `(w & mask) = match`. -/
structure OpcodeRow where
  /-- The row's name. -/
  mnemonic : String
  /-- The value under the mask. -/
  pattern : TxWord
  /-- The mask. -/
  mask : TxWord
  deriving DecidableEq, Repr

/-- The sixteen read rows of the table. -/
def readRows : List OpcodeRow :=
  [ ⟨"RD_CMD", 0x0000000000#37, 0x1F00000000#37⟩, ⟨"RD_STATUS", 0x0100000000#37, 0x1F00000000#37⟩,
    ⟨"RD_DIGITS", 0x0200000000#37, 0x1F00000000#37⟩, ⟨"RD_KEY_LEN", 0x0300000000#37, 0x1F00000000#37⟩,
    ⟨"RD_EPOCH_LO", 0x0400000000#37, 0x1F00000000#37⟩, ⟨"RD_EPOCH_HI", 0x0500000000#37, 0x1F00000000#37⟩,
    ⟨"RD_INTERVAL_LO", 0x0600000000#37, 0x1F00000000#37⟩, ⟨"RD_INTERVAL_HI", 0x0700000000#37, 0x1F00000000#37⟩,
    ⟨"RD_TIME_LO", 0x0800000000#37, 0x1F00000000#37⟩, ⟨"RD_TIME_HI", 0x0900000000#37, 0x1F00000000#37⟩,
    ⟨"RD_COUNTER_LO", 0x0A00000000#37, 0x1F00000000#37⟩, ⟨"RD_COUNTER_HI", 0x0B00000000#37, 0x1F00000000#37⟩,
    ⟨"RD_CODE", 0x0C00000000#37, 0x1F00000000#37⟩, ⟨"RD_CONFIG", 0x0D00000000#37, 0x1F00000000#37⟩,
    ⟨"RD_W14", 0x0E00000000#37, 0x1F00000000#37⟩, ⟨"RD_W15", 0x0F00000000#37, 0x1F00000000#37⟩ ]

/-- The fifteen rows of writes of words 1 to 15. -/
def writeRows : List OpcodeRow :=
  [ ⟨"WR_STATUS__illegal_write", 0x1100000000#37, 0x1F00000000#37⟩, ⟨"WR_DIGITS", 0x1200000000#37, 0x1F00000000#37⟩,
    ⟨"WR_KEY_LEN__illegal_write", 0x1300000000#37, 0x1F00000000#37⟩, ⟨"WR_EPOCH_LO", 0x1400000000#37, 0x1F00000000#37⟩,
    ⟨"WR_EPOCH_HI", 0x1500000000#37, 0x1F00000000#37⟩, ⟨"WR_INTERVAL_LO", 0x1600000000#37, 0x1F00000000#37⟩,
    ⟨"WR_INTERVAL_HI", 0x1700000000#37, 0x1F00000000#37⟩, ⟨"WR_TIME_LO", 0x1800000000#37, 0x1F00000000#37⟩,
    ⟨"WR_TIME_HI", 0x1900000000#37, 0x1F00000000#37⟩, ⟨"WR_COUNTER_LO__illegal_write", 0x1A00000000#37, 0x1F00000000#37⟩,
    ⟨"WR_COUNTER_HI__illegal_write", 0x1B00000000#37, 0x1F00000000#37⟩, ⟨"WR_CODE__illegal_write", 0x1C00000000#37, 0x1F00000000#37⟩,
    ⟨"WR_CONFIG__illegal_write", 0x1D00000000#37, 0x1F00000000#37⟩, ⟨"WR_W14__illegal_write", 0x1E00000000#37, 0x1F00000000#37⟩,
    ⟨"WR_W15__illegal_write", 0x1F00000000#37, 0x1F00000000#37⟩ ]

/-- The seven command rows. -/
def commandTableRows : List OpcodeRow :=
  [ ⟨"NOP", 0x1000000000#37, 0x1FFFFFFFFF#37⟩, ⟨"KEYCLR", 0x1000000001#37, 0x1FFFFFFFFF#37⟩,
    ⟨"B32PUSH", 0x1000000002#37, 0x1FFFFF00FF#37⟩, ⟨"RAWPUSH", 0x1000000003#37, 0x1FFFFF00FF#37⟩,
    ⟨"COMPUTE", 0x1000000004#37, 0x1FFFFFFFFF#37⟩, ⟨"ZEROIZE", 0x1000000005#37, 0x1FFFFFFFFF#37⟩,
    ⟨"ACK", 0x1000000006#37, 0x1FFFFFFFFF#37⟩ ]

/-- The table without its catch-all row: these 38 rows are disjoint. -/
def opcodeRows : List OpcodeRow := readRows ++ writeRows ++ commandTableRows

/-- The catch-all row: a write of word 0 that matches no command row (the row's own note). -/
def catchAllRow : OpcodeRow := ⟨"WR_CMD__illegal_command", 0x1000000000#37, 0x1F00000000#37⟩

/-- Whether the word is the row's. -/
def OpcodeRow.matchedBy (r : OpcodeRow) (w : TxWord) : Bool := (w &&& r.mask) == r.pattern

end Sys2Proof
end

