-- ==== Sys2Proof/Config.lean ====
section
/-! DEFINITION. What an instance of the block fixes: the open parameters and the constants of R6. -/

namespace Sys2Proof

/-- The parameters of an instance that are plain data: where the platform puts the window (R63, D3, open) and the capacity of
the key buffer (R6, D8, open). They are not state in the spec's sense (R20); the model carries them beside the state and no step
changes them (log 3). The third parameter, `KH`, is a function and is an argument of the step (log 4). -/
structure Params where
  /-- `BASE`: the bus address of word 0; a multiple of 64 (R63). -/
  base : Nat
  /-- `KEY_MAX`: the capacity of the key buffer in bytes, 1 to 65535 (R6). -/
  keyMax : BitVec 16
  deriving DecidableEq, Repr

/-- The range the spec gives the parameters: `BASE` a multiple of 64 (R63), `KEY_MAX` 1 to 65535 (R6; the upper bound is the
width of the field). -/
abbrev Params.wf (p : Params) : Prop := p.base % 64 = 0 ∧ p.keyMax ≠ 0#16

/-- The instance that `State.reset` shows: `KEY_MAX` at the spec's default 128 (R6). `BASE` has no default in the spec
(DESIGN CHOICE 0, log 3). -/
def Config.defaultParams : Params := { base := 0, keyMax := 128#16 }

/-- `HLEN`, the digest length in bytes, fixed (R6, R207). -/
def Config.hlen : BitVec 8 := 20#8

/-- `VERSION`, shown in `CONFIG` (R6, R36). -/
def Config.version : BitVec 8 := 1#8

/-- KT's default of `digits`, the reset value of `DIGITS` (R21, R45). -/
def Config.defaultDigits : Word := 6#32

/-- KT's default of `epoch`, the reset value of `EPOCH` (R22, R45). -/
def Config.defaultEpoch : DWord := 0#64

/-- KT's default of `interval`, the reset value of `INTERVAL` (R23, R45). -/
def Config.defaultInterval : DWord := 30#64

end Sys2Proof
end

