-- ==== Sys2Proof/Machine/State.lean ====
section
/-! DEFINITION. The state of the block (10_state.md R20 to R47), the turns of its agents, the reasons a step can stop, and reset. -/

namespace Sys2Proof.Machine

/-- The sequencer's phase, the block's analogue of a program counter (R34, R46). -/
inductive Phase where
  /-- No COMPUTE in progress; host writes are accepted. -/
  | idle
  /-- The request is outstanding at the keyed-hash unit. -/
  | hash
  /-- `DIGEST` holds the answer. -/
  | trunc
  deriving DecidableEq, Repr

/-- The key buffer `KEY` (R28, R60), held sparse: pairs of a byte index and a byte, indices strictly rising, and no pair whose
byte is 0, which is what an index not listed reads as: R45 gives every byte of `KEY` the reset value 0 (log 7). -/
abbrev Memory := List Host.Cell

/-- The canonical form of a memory: equal memories are equal data (`Laws/Memory.lean`). -/
abbrev Memory.wf (m : Memory) : Prop := m.Pairwise (fun c d => c.1 < d.1) ∧ ∀ c ∈ m, c.2 ≠ 0#8

/-- An access on the platform's bus, before the bridge (R63, R66). -/
structure BusAccess where
  /-- True for a write. -/
  we : Bool
  /-- The byte address. -/
  addr : Nat
  /-- The width of the access in bytes. -/
  bytes : Nat
  /-- The data of a write. -/
  data : Word
  deriving DecidableEq, Repr

/-- Whose move comes next (R9, R70). The schedule of turns is the environment's; a statement for all states holds for every
interleaving (log 1). -/
inductive Turn where
  /-- The port delivers a host transaction (R61). -/
  | host (tx : TxWord)
  /-- An access on the platform's bus, for the bridge to turn into a transaction (R63, R66). -/
  | bus (a : BusAccess)
  /-- The host is in a `WAIT`: its move is a `RD STATUS`, and its turns behind this one are held until the value read has bit 0 equal
  to 0 (R100; log 15). -/
  | wait
  /-- The keyed-hash unit moves, if it is enabled (R204). -/
  | keyedHash
  /-- The engine sequencer moves, if it is enabled (R180). -/
  | sequencer
  /-- The environment resets the block (R280). -/
  | reset
  deriving DecidableEq, Repr

/-- Why the machine stops with a fault. -/
inductive Fault where
  /-- A byte of `KEY` at an index at or above `KEY_MAX` would be read or written: there is none (R28, R60). Raised by B32PUSH,
  RAWPUSH and the keyed-hash agent's step in a state with `KEY_LEN > KEY_MAX`, which no run reaches (R44 a). Safe: the model stops
  where the spec says nothing (log 8). -/
  | keyIndexAbsent
  deriving DecidableEq, Repr

/-- Why a step has no meaning. -/
inductive Refusal where
  /-- The instruction has no meaning yet. Raised by no arm of this model. Safe. -/
  | notModelled (mnemonic : String)
  /-- A bus access that touches the window and is no aligned 32-bit access: the bridge must not turn it into a transaction, and a
  model refuses it (R66). Raised by a `bus` turn only. Safe (log 9). -/
  | notAWordAccess
  /-- A bus access that touches no byte of the window: everything outside it is the platform's (R63). Raised by a `bus` turn only.
  Safe (log 9). -/
  | outsideWindow
  deriving DecidableEq, Repr

/-- The state: the twenty elements of R20, and three fields of the model's own (`params`, `schedule`, `replies`). -/
structure State where
  /-- MODEL'S OWN: the instance's parameters, changed by no step (R6, R20; log 3). -/
  params : Params
  /-- `DIGITS` (R21). -/
  digits : Word
  /-- `EPOCH` (R22). -/
  epoch : DWord
  /-- `INTERVAL` (R23). -/
  interval : DWord
  /-- `TIME` (R24). -/
  time : DWord
  /-- `TSET` (R25). -/
  tset : Bool
  /-- `COUNTER` (R26). -/
  counter : DWord
  /-- `CODE` (R27). -/
  code : Word
  /-- `KEY` (R28). -/
  key : Memory
  /-- `KEY_LEN` (R29). -/
  keyLen : BitVec 16
  /-- `ACC` (R30). -/
  acc : BitVec 7
  /-- `NBITS` (R31). -/
  nbits : BitVec 3
  /-- `MSG` (R32). -/
  msg : Vector Byte 8
  /-- `DIGEST` (R33). -/
  digest : Vector Byte 20
  /-- `PHASE` (R34). -/
  phase : Phase
  /-- `DONE` (R38). -/
  done : Bool
  /-- `ERR` (R39). -/
  err : Bool
  /-- `ERRCODE` (R39). -/
  errcode : BitVec 4
  /-- `DERR` (R40). -/
  derr : Bool
  /-- `KOVF` (R41). -/
  kovf : Bool
  /-- `CMDERR` (R42). -/
  cmderr : Bool
  /-- MODEL'S OWN: the turns still to come, next first (log 1). -/
  schedule : List Turn
  /-- MODEL'S OWN: the `rdata` values reads have returned, newest first (R61, R120; log 2). -/
  replies : List Word
  deriving DecidableEq, Repr

/-- What a step or a meaning answers. -/
abbrev Result := Host.Outcome State Fault Refusal

/-- The machine right after reset: every element at the value of R45; the default instance, no turn placed, no reply given. -/
def State.reset : State where
  params := Config.defaultParams
  digits := Config.defaultDigits
  epoch := Config.defaultEpoch
  interval := Config.defaultInterval
  time := 0#64
  tset := false
  counter := 0#64
  code := 0#32
  key := []
  keyLen := 0#16
  acc := 0#7
  nbits := 0#3
  msg := Vector.replicate 8 0#8
  digest := Vector.replicate 20 0#8
  phase := .idle
  done := false
  err := false
  errcode := 0#4
  derr := false
  kovf := false
  cmderr := false
  schedule := []
  replies := []

end Sys2Proof.Machine
end

