-- ==== Sys2Proof/Machine/Bridge.lean ====
section
/-! DEFINITION. The platform's bridge from bus accesses to transactions (20_memory.md R63, R66; 00_scope.md R8 `MemRead`, `MemWrite`). -/

namespace Sys2Proof.Machine

/-- The bytes of the register window: sixteen words (R62). -/
def windowBytes : Nat := 64

/-- Whether the access touches the window at `BASE`; an access of width 0 does when its address is strictly inside (log 9). -/
def touchesWindow (p : Params) (a : BusAccess) : Bool :=
  decide (a.addr < p.base + windowBytes ∧ p.base < a.addr + a.bytes)

/-- Whether the access is one aligned 32-bit word of the window, `BASE + 4*idx` (R63, R66). -/
def isWindowWord (p : Params) (a : BusAccess) : Bool :=
  decide (a.bytes = 4 ∧ p.base ≤ a.addr ∧ a.addr < p.base + windowBytes ∧ (a.addr - p.base) % 4 = 0)

/-- The transaction of a word access: `MemRead(BASE + 4*idx, 4) = RegRead(idx)`, `MemWrite(BASE + 4*idx, 4, v) = RegWrite(idx, v)`
(R8, R63); the data of a read is the canonical 0 (R90; log 9). -/
def windowTransaction (p : Params) (a : BusAccess) : TxWord :=
  txOf a.we (BitVec.ofNat 4 ((a.addr - p.base) / 4)) (if a.we then a.data else 0#32)

/-- The bridge: a word access to the window is its transaction; a narrower, wider or misaligned access to the window must not become
one (R66), and an access elsewhere is the platform's (R63). -/
def bridge (p : Params) (a : BusAccess) : Except Refusal TxWord :=
  if isWindowWord p a then .ok (windowTransaction p a)
  else if touchesWindow p a then .error .notAWordAccess
  else .error .outsideWindow

end Sys2Proof.Machine
end

