-- ==== Sys2Proof/Machine/Ops.lean ====
section
/-! DEFINITION. The shared operations: the key buffer, the answer of a read, the discarded write, the guard of every write, the
entry of a compute error and what clears one. -/

namespace Sys2Proof.Machine

/-- One byte of the key buffer; an index not listed reads 0 (R28, R45). -/
def Memory.read : Memory → Nat → Byte
  | [], _ => 0#8
  | (x, c) :: m, a => if a = x then c else Memory.read m a

/-- A cell in front of a memory, left out when its byte is what an index not listed reads as. -/
def Memory.consCell (a : Nat) (b : Byte) (m : Memory) : Memory := if b = 0#8 then m else (a, b) :: m

/-- Write one byte of the key buffer; the canonical form is kept. -/
def Memory.write : Memory → Nat → Byte → Memory
  | [], a, b => Memory.consCell a b []
  | (x, c) :: m, a, b =>
    if a < x then Memory.consCell a b ((x, c) :: m)
    else if a = x then Memory.consCell a b m
    else (x, c) :: Memory.write m a b

/-- `KEY[0..n)`, the first `n` bytes in order (R7, R28). -/
def Memory.firstBytes (m : Memory) (n : Nat) : List Byte := (List.range n).map (Memory.read m)

/-- The answer of a read: `rdata` is returned and no state changes (R120). -/
def reply (v : Word) (s : State) : State := { s with replies := v :: s.replies }

/-- A discarded write: `CMDERR <- 1`, and nothing else changes (R250). -/
def discard (s : State) : State := { s with cmderr := true }

/-- The first check of every write: while `PHASE` is not `IDLE` the write is discarded whatever it is (R121, R122); otherwise its
own rule applies. -/
def whenIdle (effect : State → Result) (s : State) : Result :=
  match s.phase with
  | .idle => effect s
  | .hash | .trunc => .next (discard s)

/-- The compute errors (R240). -/
inductive ComputeError where
  /-- In the session a character was outside the alphabet (R241). -/
  | invalidBase32
  /-- `INTERVAL = 0` (R242). -/
  | invalidInterval
  /-- No timestamp written since reset (R243). -/
  | clockError
  /-- In the session a push did not fit the buffer (R244). -/
  | keyOverflow
  /-- `TIME < EPOCH` (R245). -/
  | timeBeforeEpoch
  deriving DecidableEq, Repr

/-- `ERRCODE` of each error; 6 to 15 are never produced (R240, R255). -/
def errorCode : ComputeError → BitVec 4
  | .invalidBase32 => 1#4
  | .invalidInterval => 2#4
  | .clockError => 3#4
  | .keyOverflow => 4#4
  | .timeBeforeEpoch => 5#4

/-- TAKING A COMPUTE ERROR, `raise E`: `ERR <- 1`, `ERRCODE <- code(E)`; nothing is saved, `PHASE` stays `IDLE` (R246). -/
def raiseError (e : ComputeError) (s : State) : State := { s with err := true, errcode := errorCode e }

/-- What ends an error report. There is no return instruction (R248): the acceptance of a COMPUTE clears the previous result and
the previous error (R171). -/
def clearResult (s : State) : State :=
  { s with done := false, err := false, errcode := 0#4, code := 0#32, counter := 0#64 }

/-- `KEY[KEY_LEN] <- b ; KEY_LEN <- KEY_LEN + 1` (R148, R152). -/
def storeKeyByte (b : Byte) (s : State) : State :=
  { s with key := Memory.write s.key s.keyLen.toNat b, keyLen := s.keyLen + 1#16 }

/-- The check before a push stores a byte: at `KEY_LEN = KEY_MAX` the push sets `KOVF` and changes nothing else (R148, R152, R244);
above it there is no byte to store (log 8). -/
def whenKeyRoom (effect : State → Result) (s : State) : Result :=
  if s.keyLen = s.params.keyMax then .next { s with kovf := true }
  else if s.params.keyMax < s.keyLen then .fault .keyIndexAbsent
  else effect s

/-- A push in a session that has failed is accepted and does nothing (R40, R41, R148, R152, R251). -/
def whenSessionClean (effect : State → Result) (s : State) : Result :=
  if s.derr || s.kovf then .next s else effect s

end Sys2Proof.Machine
end

