-- ==== Sys2Proof/Machine/Operands.lean ====
section
/-! DEFINITION. Every operand form: the halves of a 64-bit register, the character operand and its alphabet value, and the byte
orders of the message and of the truncation window. -/

namespace Sys2Proof.Machine

/-- `v[31:0]`: the `_LO` word of a 64-bit register (R22, R65). -/
def loWord (v : DWord) : Word := v.extractLsb' 0 32

/-- `v[63:32]`: the `_HI` word of a 64-bit register (R22, R65). -/
def hiWord (v : DWord) : Word := v.extractLsb' 32 32

/-- A write of the `_LO` word: `(R & 0xFFFFFFFF00000000) | v` (R126, R128, R130). -/
def withLoWord (r : DWord) (v : Word) : DWord := (r &&& 0xFFFFFFFF00000000#64) ||| v.setWidth 64

/-- A write of the `_HI` word: `(v << 32) | (R & 0xFFFFFFFF)` (R127, R129, R131). -/
def withHiWord (r : DWord) (v : Word) : DWord := (v.setWidth 64 <<< 32) ||| (r &&& 0xFFFFFFFF#64)

/-- `val(c)`: the alphabet lookup, `none` for an invalid code; lower case is folded and nothing else is (R141). -/
def alphabetValue (c : Byte) : Option (BitVec 5) :=
  if 0x41#8 ≤ c ∧ c ≤ 0x5A#8 then some ((c - 0x41#8).setWidth 5)
  else if 0x61#8 ≤ c ∧ c ≤ 0x7A#8 then some ((c - 0x61#8).setWidth 5)
  else if 0x32#8 ≤ c ∧ c ≤ 0x37#8 then some ((c - 0x32#8 + 26#8).setWidth 5)
  else none

/-- Byte `i` of `be64(c)`: `(c >> (8*(7-i))) & 0xFF` (R8). -/
def be64Byte (c : DWord) (i : Nat) : Byte := c.extractLsb' (8 * (7 - i)) 8

/-- `be64(c)`: eight bytes, most significant first (R8, R64 a, R176). -/
def be64 (c : DWord) : Vector Byte 8 :=
  #v[be64Byte c 0, be64Byte c 1, be64Byte c 2, be64Byte c 3, be64Byte c 4, be64Byte c 5, be64Byte c 6, be64Byte c 7]

/-- `be32` of four bytes: the first is the most significant (R8, R64 b). -/
def be32 (b0 b1 b2 b3 : Byte) : Word := b0 ++ b1 ++ b2 ++ b3

/-- Four bytes of a word, most significant first (R214). -/
def bytesOfWord (w : Word) : List Byte :=
  [w.extractLsb' 24 8, w.extractLsb' 16 8, w.extractLsb' 8 8, w.extractLsb' 0 8]

end Sys2Proof.Machine
end

