-- ==== Sys2Proof/Machine/Flags.lean ====
section
/-! DEFINITION. Every flag computation: `BUSY`, `STATUS`, `CONFIG`, and the error checks of COMPUTE. -/

namespace Sys2Proof.Machine

/-- `BUSY`: 1 in `HASH` and `TRUNC` (R43). -/
def busy (s : State) : Bool :=
  match s.phase with
  | .idle => false
  | .hash | .trunc => true

/-- One flag as a word. -/
def flagWord (b : Bool) : Word := (BitVec.ofBool b).setWidth 32

/-- `STATUS`, assembled from the flags at a read (R35, R111). -/
def statusWord (s : State) : Word :=
  flagWord (busy s) ||| (flagWord s.done <<< 1) ||| (flagWord s.err <<< 2) ||| (s.errcode.setWidth 32 <<< 4)
    ||| (flagWord s.derr <<< 8) ||| (flagWord s.kovf <<< 9) ||| (flagWord s.cmderr <<< 10) ||| (flagWord s.tset <<< 11)

/-- `CONFIG`: `VERSION`, `HLEN` and `KEY_MAX` (R36, R135). -/
def configWord (p : Params) : Word := Config.version ++ Config.hlen ++ p.keyMax

/-- The checks of COMPUTE, in priority order: the first that holds is the error (R172, R249). -/
def computeError (s : State) : Option ComputeError :=
  if s.derr then some .invalidBase32
  else if s.kovf then some .keyOverflow
  else if !s.tset then some .clockError
  else if s.interval = 0#64 then some .invalidInterval
  else if s.time < s.epoch then some .timeBeforeEpoch
  else none

end Sys2Proof.Machine
end

