-- ==== Sys2Proof/Machine/Control.lean ====
section
/-! DEFINITION. The control commands (44_control_commands.md), the illegal command word (R96), and reset (70_reset_and_hazards.md R280). -/

namespace Sys2Proof.Machine

/-- `NOP`: no state changes; while busy it is discarded like every write (R230). -/
def execNop (s : State) : Result := whenIdle (fun s => .next s) s

/-- ZEROIZE's effect: the secret and everything derived from it (R232). -/
def eraseSecret (s : State) : State :=
  { s with
    key := [], keyLen := 0#16, acc := 0#7, nbits := 0#3
    msg := Vector.replicate 8 0#8, digest := Vector.replicate 20 0#8
    counter := 0#64, code := 0#32
    done := false, err := false, errcode := 0#4, derr := false, kovf := false }

/-- `ZEROIZE` (R232). -/
def execZeroize (s : State) : Result := whenIdle (fun s => .next (eraseSecret s)) s

/-- `ACK`: `CMDERR <- 0`; nothing else changes (R234). -/
def execAck (s : State) : Result := whenIdle (fun s => .next { s with cmderr := false }) s

/-- A write of word 0 whose data is no command word: discarded (R94, R96). -/
def execWrCmdIllegal (_v : Word) (s : State) : Result := whenIdle (fun s => .next (discard s)) s

/-- Reset, in any state and any phase: every element takes the value of R45 (R280, R281). The instance's parameters, the turns still
to come and the replies already given are no state of the block and stay (log 10). -/
def resetTurn (s : State) : Result :=
  .next { State.reset with params := s.params, schedule := s.schedule, replies := s.replies }

end Sys2Proof.Machine
end

