-- ==== Sys2Proof/Machine/Decoder.lean ====
section
/-! DEFINITION. The Secret Decoder (41_base32_decoder.md): the commands KEYCLR, B32PUSH, RAWPUSH. -/

namespace Sys2Proof.Machine

/-- KEYCLR's effect: a new session; the bytes of `KEY` stay (R147). -/
def startSession (s : State) : State :=
  { s with keyLen := 0#16, acc := 0#7, nbits := 0#3, derr := false, kovf := false }

/-- `KEYCLR` (R147). -/
def execKeyclr (s : State) : Result := whenIdle (fun s => .next (startSession s)) s

/-- `(ACC << 5) | val(ch)`, at most 12 bits (R148). -/
def shiftedAcc (s : State) (v : BitVec 5) : Nat := (s.acc.toNat <<< 5) ||| v.toNat

/-- `NBITS + 5`, 5 to 12 (R148). -/
def bitsAfterPush (s : State) : Nat := s.nbits.toNat + 5

/-- A valid character whose bits complete no byte (R148, `n < 8`). -/
def absorbBits (v : BitVec 5) (s : State) : State :=
  { s with acc := BitVec.ofNat 7 (shiftedAcc s v), nbits := BitVec.ofNat 3 (bitsAfterPush s) }

/-- A valid character whose bits complete a byte: the 8 oldest bits go to the buffer, the `n - 8` others stay (R148). -/
def emitByte (v : BitVec 5) (s : State) : State :=
  let left := bitsAfterPush s - 8
  { storeKeyByte (BitVec.ofNat 8 ((shiftedAcc s v >>> left) &&& 0xFF)) s with
    nbits := BitVec.ofNat 3 left
    acc := BitVec.ofNat 7 (shiftedAcc s v &&& ((1 <<< left) - 1)) }

/-- A valid character, of value `v` (R148). -/
def pushBits (v : BitVec 5) (s : State) : Result :=
  if bitsAfterPush s < 8 then .next (absorbBits v s) else whenKeyRoom (fun s => .next (emitByte v s)) s

/-- One character of a session that has not failed: an invalid one sets `DERR` and changes nothing else (R148). -/
def pushCharacter (ch : Byte) (s : State) : Result :=
  match alphabetValue ch with
  | none => .next { s with derr := true }
  | some v => pushBits v s

/-- `B32PUSH ch` (R148). -/
def execB32push (ch : Byte) (s : State) : Result := whenIdle (whenSessionClean (pushCharacter ch)) s

/-- `RAWPUSH b`: one byte, not decoded; `ACC` and `NBITS` are neither read nor written (R152). -/
def execRawpush (b : Byte) (s : State) : Result :=
  whenIdle (whenSessionClean (whenKeyRoom (fun s => .next (storeKeyByte b s)))) s

end Sys2Proof.Machine
end

