-- ==== Sys2Proof/Machine/Engine.lean ====
section
/-! DEFINITION. The TOTP Engine (42_totp_engine.md): COMPUTE, and the sequencer's truncation step. -/

namespace Sys2Proof.Machine

/-- `(TIME - EPOCH) div INTERVAL`, floor division, computed exactly (R174, R175). Used only with `INTERVAL` not 0 and
`TIME >= EPOCH` (R172), where the quotient fits 64 bits. -/
def counterOf (epoch interval time : DWord) : DWord :=
  BitVec.ofNat 64 ((time.toNat - epoch.toNat) / interval.toNat)

/-- A COMPUTE that found no error: counter, message, request (R174, R176, R177). -/
def startDerivation (s : State) : State :=
  { s with
    counter := counterOf s.epoch s.interval s.time
    msg := be64 (counterOf s.epoch s.interval s.time)
    phase := .hash }

/-- An accepted COMPUTE, all in the one step of the host's write (R170 to R172). -/
def acceptCompute (s : State) : State :=
  match computeError s with
  | some e => raiseError e (clearResult s)
  | none => startDerivation (clearResult s)

/-- `COMPUTE` (R170). -/
def execCompute (s : State) : Result := whenIdle (fun s => .next (acceptCompute s)) s

/-- The offset: the low 4 bits of the last byte (R181). -/
def truncationOffset (d : Vector Byte 20) : BitVec 4 := (d[19] &&& 0x0F#8).setWidth 4

/-- `be32(DIGEST[o..o+4))`: the window at the offset; its last index is at most 18 (R181, R182). -/
def truncationWindow (d : Vector Byte 20) (o : BitVec 4) : Word :=
  be32 (d[o.toNat]'(by have := o.isLt; omega)) (d[o.toNat + 1]'(by have := o.isLt; omega))
    (d[o.toNat + 2]'(by have := o.isLt; omega)) (d[o.toNat + 3]'(by have := o.isLt; omega))

/-- `p`: the window with bit 31 cleared (R182). -/
def truncatedValue (d : Vector Byte 20) : Word := truncationWindow d (truncationOffset d) &&& 0x7FFFFFFF#32

/-- `p mod 10^DIGITS`, in the hardware's form: nine moduli, the modulus 1, and a pass-through from `DIGITS = 10` on (R175 d, R183).
That it is the mathematical remainder for every `p < 2^31` is a statement (CodeIsTheMathematicalRemainder). -/
def reduceCode (p digits : Word) : Word :=
  if 10 ≤ digits.toNat then p else BitVec.ofNat 32 (p.toNat % 10 ^ digits.toNat)

/-- The effect of the truncation step (R180). -/
def truncateDigest (s : State) : State :=
  { s with code := reduceCode (truncatedValue s.digest) s.digits, done := true, phase := .idle }

/-- The sequencer's turn: the truncation step, enabled exactly in `PHASE = TRUNC` (R180, R34); in another phase the sequencer has
no step and its turn passes (log 5). -/
def sequencerTurn (s : State) : Result :=
  match s.phase with
  | .trunc => .next (truncateDigest s)
  | .idle | .hash => .next s

end Sys2Proof.Machine
end

