-- ==== Sys2Proof/Machine/HostReads.lean ====
section
/-! DEFINITION. The sixteen reads (40_host_access.md R120, R110 to R119, R132 to R137): each returns its word, in every phase, and
changes nothing. -/

namespace Sys2Proof.Machine

/-- `RD CMD` returns 0: the command register holds nothing (R110, R37). -/
def execRdCmd (s : State) : Result := .next (reply 0#32 s)

/-- `RD STATUS` returns the flags (R111, R35). -/
def execRdStatus (s : State) : Result := .next (reply (statusWord s) s)

/-- `RD DIGITS` (R112). -/
def execRdDigits (s : State) : Result := .next (reply s.digits s)

/-- `RD KEY_LEN`, zero-extended (R113). -/
def execRdKeyLen (s : State) : Result := .next (reply (s.keyLen.setWidth 32) s)

/-- `RD EPOCH_LO` (R114). -/
def execRdEpochLo (s : State) : Result := .next (reply (loWord s.epoch) s)

/-- `RD EPOCH_HI` (R115). -/
def execRdEpochHi (s : State) : Result := .next (reply (hiWord s.epoch) s)

/-- `RD INTERVAL_LO` (R116). -/
def execRdIntervalLo (s : State) : Result := .next (reply (loWord s.interval) s)

/-- `RD INTERVAL_HI` (R117). -/
def execRdIntervalHi (s : State) : Result := .next (reply (hiWord s.interval) s)

/-- `RD TIME_LO`; a read does not set `TSET` (R118). -/
def execRdTimeLo (s : State) : Result := .next (reply (loWord s.time) s)

/-- `RD TIME_HI` (R119). -/
def execRdTimeHi (s : State) : Result := .next (reply (hiWord s.time) s)

/-- `RD COUNTER_LO` (R132). -/
def execRdCounterLo (s : State) : Result := .next (reply (loWord s.counter) s)

/-- `RD COUNTER_HI` (R133). -/
def execRdCounterHi (s : State) : Result := .next (reply (hiWord s.counter) s)

/-- `RD CODE`; reading does not clear it (R134). -/
def execRdCode (s : State) : Result := .next (reply s.code s)

/-- `RD CONFIG` (R135). -/
def execRdConfig (s : State) : Result := .next (reply (configWord s.params) s)

/-- `RD W14` returns 0 (R136, R68). -/
def execRdW14 (s : State) : Result := .next (reply 0#32 s)

/-- `RD W15` returns 0 (R137, R68). -/
def execRdW15 (s : State) : Result := .next (reply 0#32 s)

/-- `RegRead(idx)`: the value a host read of word `idx` returns (R8, R62). -/
def regRead (idx : BitVec 4) (s : State) : Word :=
  match idx.toNat with
  | 1 => statusWord s
  | 2 => s.digits
  | 3 => s.keyLen.setWidth 32
  | 4 => loWord s.epoch
  | 5 => hiWord s.epoch
  | 6 => loWord s.interval
  | 7 => hiWord s.interval
  | 8 => loWord s.time
  | 9 => hiWord s.time
  | 10 => loWord s.counter
  | 11 => hiWord s.counter
  | 12 => s.code
  | 13 => configWord s.params
  | _ => 0#32

/-- The observable part of a state: what reads of words 0 to 15 would return (R299). -/
def observable (s : State) : List Word := (List.range 16).map (fun i => regRead (BitVec.ofNat 4 i) s)

end Sys2Proof.Machine
end

