-- ==== Sys2Proof/Machine/HostWrites.lean ====
section
/-! DEFINITION. The writes of words 1 to 15 (40_host_access.md R121 to R131): the operand registers, and the read-only and reserved
words, whose writes are discarded. -/

namespace Sys2Proof.Machine

/-- `WR DIGITS, v`: every value is stored as written (R125, R21). -/
def execWrDigits (v : Word) (s : State) : Result := whenIdle (fun s => .next { s with digits := v }) s

/-- `WR EPOCH_LO, v` (R126). -/
def execWrEpochLo (v : Word) (s : State) : Result :=
  whenIdle (fun s => .next { s with epoch := withLoWord s.epoch v }) s

/-- `WR EPOCH_HI, v` (R127). -/
def execWrEpochHi (v : Word) (s : State) : Result :=
  whenIdle (fun s => .next { s with epoch := withHiWord s.epoch v }) s

/-- `WR INTERVAL_LO, v`: no error at the write, also where the result is 0 (R128). -/
def execWrIntervalLo (v : Word) (s : State) : Result :=
  whenIdle (fun s => .next { s with interval := withLoWord s.interval v }) s

/-- `WR INTERVAL_HI, v` (R129). -/
def execWrIntervalHi (v : Word) (s : State) : Result :=
  whenIdle (fun s => .next { s with interval := withHiWord s.interval v }) s

/-- `WR TIME_LO, v`; `TSET <- 1` (R130). -/
def execWrTimeLo (v : Word) (s : State) : Result :=
  whenIdle (fun s => .next { s with time := withLoWord s.time v, tset := true }) s

/-- `WR TIME_HI, v`; `TSET <- 1` (R131). -/
def execWrTimeHi (v : Word) (s : State) : Result :=
  whenIdle (fun s => .next { s with time := withHiWord s.time v, tset := true }) s

/-- A write of a read-only or reserved word: discarded, whatever its data and its phase (R121, R122, R124, R68). -/
def illegalWrite (s : State) : Result := whenIdle (fun s => .next (discard s)) s

/-- `WR STATUS, v`: flags are not write-one-to-clear (R124). -/
def execWrStatus (_v : Word) (s : State) : Result := illegalWrite s

/-- `WR KEY_LEN, v` (R124). -/
def execWrKeyLen (_v : Word) (s : State) : Result := illegalWrite s

/-- `WR COUNTER_LO, v` (R124). -/
def execWrCounterLo (_v : Word) (s : State) : Result := illegalWrite s

/-- `WR COUNTER_HI, v` (R124). -/
def execWrCounterHi (_v : Word) (s : State) : Result := illegalWrite s

/-- `WR CODE, v` (R124). -/
def execWrCode (_v : Word) (s : State) : Result := illegalWrite s

/-- `WR CONFIG, v` (R124). -/
def execWrConfig (_v : Word) (s : State) : Result := illegalWrite s

/-- `WR W14, v` (R124, R68). -/
def execWrW14 (_v : Word) (s : State) : Result := illegalWrite s

/-- `WR W15, v` (R124, R68). -/
def execWrW15 (_v : Word) (s : State) : Result := illegalWrite s

end Sys2Proof.Machine
end

