-- ==== Sys2Proof/Machine/Dispatch.lean ====
section
/-! DEFINITION. The dispatch: one arm per transaction of spec/opcode_table.json. -/

namespace Sys2Proof.Machine

/-- What a host transaction does to the block. -/
def exec (i : Instr) (s : State) : Host.Outcome State Fault Refusal :=
  match i with
  | .rdCmd => Sys2Proof.Machine.execRdCmd s
  | .rdStatus => Sys2Proof.Machine.execRdStatus s
  | .rdDigits => Sys2Proof.Machine.execRdDigits s
  | .rdKeyLen => Sys2Proof.Machine.execRdKeyLen s
  | .rdEpochLo => Sys2Proof.Machine.execRdEpochLo s
  | .rdEpochHi => Sys2Proof.Machine.execRdEpochHi s
  | .rdIntervalLo => Sys2Proof.Machine.execRdIntervalLo s
  | .rdIntervalHi => Sys2Proof.Machine.execRdIntervalHi s
  | .rdTimeLo => Sys2Proof.Machine.execRdTimeLo s
  | .rdTimeHi => Sys2Proof.Machine.execRdTimeHi s
  | .rdCounterLo => Sys2Proof.Machine.execRdCounterLo s
  | .rdCounterHi => Sys2Proof.Machine.execRdCounterHi s
  | .rdCode => Sys2Proof.Machine.execRdCode s
  | .rdConfig => Sys2Proof.Machine.execRdConfig s
  | .rdW14 => Sys2Proof.Machine.execRdW14 s
  | .rdW15 => Sys2Proof.Machine.execRdW15 s
  | .wrStatus v => Sys2Proof.Machine.execWrStatus v s
  | .wrDigits v => Sys2Proof.Machine.execWrDigits v s
  | .wrKeyLen v => Sys2Proof.Machine.execWrKeyLen v s
  | .wrEpochLo v => Sys2Proof.Machine.execWrEpochLo v s
  | .wrEpochHi v => Sys2Proof.Machine.execWrEpochHi v s
  | .wrIntervalLo v => Sys2Proof.Machine.execWrIntervalLo v s
  | .wrIntervalHi v => Sys2Proof.Machine.execWrIntervalHi v s
  | .wrTimeLo v => Sys2Proof.Machine.execWrTimeLo v s
  | .wrTimeHi v => Sys2Proof.Machine.execWrTimeHi v s
  | .wrCounterLo v => Sys2Proof.Machine.execWrCounterLo v s
  | .wrCounterHi v => Sys2Proof.Machine.execWrCounterHi v s
  | .wrCode v => Sys2Proof.Machine.execWrCode v s
  | .wrConfig v => Sys2Proof.Machine.execWrConfig v s
  | .wrW14 v => Sys2Proof.Machine.execWrW14 v s
  | .wrW15 v => Sys2Proof.Machine.execWrW15 v s
  | .nop => Sys2Proof.Machine.execNop s
  | .keyclr => Sys2Proof.Machine.execKeyclr s
  | .b32push ch => Sys2Proof.Machine.execB32push ch s
  | .rawpush b => Sys2Proof.Machine.execRawpush b s
  | .compute => Sys2Proof.Machine.execCompute s
  | .zeroize => Sys2Proof.Machine.execZeroize s
  | .ack => Sys2Proof.Machine.execAck s
  | .wrCmdIllegal v => Sys2Proof.Machine.execWrCmdIllegal v s

end Sys2Proof.Machine
end

