-- ==== Sys2Proof/Machine/KeyedHash.lean ====
section
/-! DEFINITION. The keyed-hash unit (43_keyed_hash_interface.md): its one step, and HMAC-SHA-1 as R210 to R214 define it. -/

namespace Sys2Proof.Machine

/-- `rotl(x, n)` (R212). -/
def rotl (x : Word) (n : Nat) : Word := (x <<< n) ||| (x >>> (32 - n))

/-- The round function `f_t` (R213). -/
def sha1F (t : Nat) (b c d : Word) : Word :=
  if t < 20 then (b &&& c) ||| (~~~b &&& d)
  else if t < 40 then b ^^^ c ^^^ d
  else if t < 60 then (b &&& c) ||| (b &&& d) ||| (c &&& d)
  else b ^^^ c ^^^ d

/-- The round constant `K_t` (R213). -/
def sha1K (t : Nat) : Word :=
  if t < 20 then 0x5A827999#32 else if t < 40 then 0x6ED9EBA1#32 else if t < 60 then 0x8F1BBCDC#32 else 0xCA62C1D6#32

/-- Five words: the chaining value `H0 … H4`, or the working variables `a … e` (R212). -/
structure Sha1Words where
  /-- `H0` or `a`. -/
  a : Word
  /-- `H1` or `b`. -/
  b : Word
  /-- `H2` or `c`. -/
  c : Word
  /-- `H3` or `d`. -/
  d : Word
  /-- `H4` or `e`. -/
  e : Word
  deriving DecidableEq, Repr

/-- The initial chaining value (R212). -/
def sha1Init : Sha1Words := ⟨0x67452301#32, 0xEFCDAB89#32, 0x98BADCFE#32, 0x10325476#32, 0xC3D2E1F0#32⟩

/-- One round, with its index and its schedule word (R212). -/
def sha1Round (h : Sha1Words) (tw : Nat × Word) : Sha1Words where
  a := rotl h.a 5 + sha1F tw.1 h.b h.c h.d + h.e + sha1K tw.1 + tw.2
  b := h.a
  c := rotl h.b 30
  d := h.c
  e := h.d

/-- Groups of four bytes as big-endian words (R212). -/
def wordsOfBytes : List Byte → List Word
  | b0 :: b1 :: b2 :: b3 :: rest => be32 b0 b1 b2 b3 :: wordsOfBytes rest
  | _ => []

/-- `n` more schedule words in front of those so far, newest first, so that `W[t-3]`, `W[t-8]`, `W[t-14]`, `W[t-16]` stand at the
places 2, 7, 13 and 15 (R212). -/
def extendSchedule : Nat → List Word → List Word
  | 0, ws => ws
  | n + 1, ws => extendSchedule n (rotl (ws.getD 2 0#32 ^^^ ws.getD 7 0#32 ^^^ ws.getD 13 0#32 ^^^ ws.getD 15 0#32) 1 :: ws)

/-- `W[0] … W[79]` of a block (R212). -/
def messageSchedule (block : List Byte) : List Word := (extendSchedule 64 (wordsOfBytes block).reverse).reverse

/-- The compression of one block into the chaining value (R212). -/
def sha1Compress (h : Sha1Words) (block : List Byte) : Sha1Words :=
  let r := ((List.range 80).zip (messageSchedule block)).foldl sha1Round h
  ⟨h.a + r.a, h.b + r.b, h.c + r.c, h.d + r.d, h.e + r.e⟩

/-- The zero bytes of the padding: the fewest that make the length with the byte `0x80` congruent to 56 modulo 64 (R211). -/
def padZeros (len : Nat) : Nat := (119 - len % 64) % 64

/-- The padded message (R211). -/
def sha1Pad (m : List Byte) : List Byte :=
  m ++ 0x80#8 :: List.replicate (padZeros m.length) 0#8 ++ (be64 (BitVec.ofNat 64 (8 * m.length))).toList

/-- The compression of `n` blocks of 64 bytes, in order (R212). -/
def sha1Blocks : Nat → Sha1Words → List Byte → Sha1Words
  | 0, h, _ => h
  | n + 1, h, bs => sha1Blocks n (sha1Compress h (bs.take 64)) (bs.drop 64)

/-- The 20 bytes of a chaining value: each word most significant byte first, `H0` first (R203, R214). -/
def digestOfWords (h : Sha1Words) : Vector Byte 20 :=
  ⟨(bytesOfWord h.a ++ bytesOfWord h.b ++ bytesOfWord h.c ++ bytesOfWord h.d ++ bytesOfWord h.e).toArray, rfl⟩

/-- SHA-1 (R211 to R214). -/
def sha1 (m : List Byte) : Vector Byte 20 :=
  digestOfWords (sha1Blocks ((sha1Pad m).length / 64) sha1Init (sha1Pad m))

/-- HMAC's block size in bytes (R210). -/
def hmacBlock : Nat := 64

/-- The key as HMAC uses it: hashed first when longer than a block, then zero bytes up to a block (R210 steps 1 and 2). -/
def hmacKey (key : List Byte) : List Byte :=
  let k0 := if hmacBlock < key.length then (sha1 key).toList else key
  k0 ++ List.replicate (hmacBlock - k0.length) 0#8

/-- HMAC-SHA-1 (R210 steps 3 to 5). -/
def hmacSha1 (key msg : List Byte) : Vector Byte 20 :=
  let ipad := (hmacKey key).map (fun b => b ^^^ 0x36#8)
  let opad := (hmacKey key).map (fun b => b ^^^ 0x5C#8)
  sha1 (opad ++ (sha1 (ipad ++ msg)).toList)

/-- The key of the request at the port: `KEY[0..KEY_LEN)` (R177, R200). -/
def requestKey (s : State) : List Byte := s.key.firstBytes s.keyLen.toNat

/-- The message of the request (R200). -/
def requestMessage (s : State) : List Byte := s.msg.toList

/-- The effect of the keyed-hash agent's step, `KHSTEP` (R204). -/
def answerRequest (kh : KeyedHash) (s : State) : State :=
  { s with digest := kh (requestKey s) (requestMessage s), phase := .trunc }

/-- The keyed-hash unit's turn: `KHSTEP`, enabled exactly in `PHASE = HASH` (R204); in another phase the unit has no step, and a late
response is ignored (R281; log 5). A request for more bytes than the buffer has reads an absent byte (log 8). -/
def keyedHashTurn (kh : KeyedHash) (s : State) : Result :=
  match s.phase with
  | .hash => if s.params.keyMax < s.keyLen then .fault .keyIndexAbsent else .next (answerRequest kh s)
  | .idle | .trunc => .next s

end Sys2Proof.Machine
end

