-- ==== Sys2Proof/Machine/Wait.lean ====
section
/-! DEFINITION. `WAIT` (30_encoding.md R100): the host repeats `RD STATUS` until the value read has bit 0 equal to 0, and is held to that
while it has not. -/

namespace Sys2Proof.Machine

/-- A turn of the host: a transaction, a bus access, a poll of `WAIT`. -/
def Turn.isHost : Turn → Bool
  | .host _ | .bus _ | .wait => true
  | .keyedHash | .sequencer | .reset => false

/-- Whether a `WAIT` ends at this STATUS value: bit 0, `BUSY`, is 0 (R100). -/
def waitEnds (status : Word) : Bool := !status.getLsbD 0

/-- The turns to come of a host whose `WAIT` has not ended: the `WAIT` stays in front of all its other turns, in their order, and the
next turn that is not the host's goes first, if there is one (R100, R292; log 15). -/
def holdHost (rest : List Turn) : List Turn :=
  match rest.find? (fun t => !t.isHost) with
  | none => .wait :: rest
  | some t => t :: .wait :: rest.eraseP (fun t => !t.isHost)

/-- The turns to come once `turn` is taken: those behind it, but for a poll of `WAIT` whose value keeps the host held (R100). -/
def scheduleAfter (s : State) (turn : Turn) (rest : List Turn) : List Turn :=
  match turn with
  | .wait => if waitEnds (regRead 1#4 s) then rest else holdHost rest
  | .host _ | .bus _ | .keyedHash | .sequencer | .reset => rest

end Sys2Proof.Machine
end

