-- ==== Sys2Proof/Machine/Step.lean ====
section
/-! DEFINITION. One step: the next turn of the schedule (00_scope.md R9, 20_memory.md R70). -/

namespace Sys2Proof.Machine

/-- A turn, in a state that lists what comes after it: a host transaction is decoded and carried out (R101); a bus access goes through
the bridge (R63, R66); a poll of `WAIT` is a `RD STATUS` (R100); the block's own two agents and reset have their steps (R180, R204,
R280). `kh` is the function behind the keyed-hash port (R201). -/
def takeTurn (kh : KeyedHash) (t : Turn) (s : State) : Host.Outcome State Fault Refusal :=
  match t with
  | .host tx => exec (decode tx) s
  | .bus a =>
    match bridge s.params a with
    | .ok tx => exec (decode tx) s
    | .error r => .refused r
  | .wait => exec .rdStatus s
  | .keyedHash => keyedHashTurn kh s
  | .sequencer => sequencerTurn s
  | .reset => resetTurn s

/-- One step of an instance with the keyed-hash function `kh`. With no turn to come nothing moves: the block waits (R45; log 6). -/
def stepWith (kh : KeyedHash) (s : State) : Host.Outcome State Fault Refusal :=
  match s.schedule with
  | [] => .next s
  | t :: rest => takeTurn kh t { s with schedule := scheduleAfter s t rest }

/-- One step of the machine: the function behind the port is HMAC-SHA-1 (R201; log 4). -/
def step (s : State) : Host.Outcome State Fault Refusal := stepWith hmacSha1 s

/-- `n` steps, stopping at the first fault or refusal. -/
def runWith (kh : KeyedHash) : Nat → State → Host.Outcome State Fault Refusal
  | 0, s => .next s
  | n + 1, s =>
    match stepWith kh s with
    | .next t => runWith kh n t
    | .fault r => .fault r
    | .refused r => .refused r

/-- `s` with the table's word `w` of `nbits` bits as the next turn: the transaction the very next step carries out (log 1). -/
def State.withFetchWord (s : State) (nbits w : Nat) : State :=
  { s with schedule := .host (BitVec.ofNat 37 (w % 2 ^ nbits)) :: s.schedule }

end Sys2Proof.Machine
end

