-- ==== Sys2Proof/Machine/Assembler.lean ====
section
/-! DEFINITION. The assembler's statements (30_encoding.md R99, R100) as lists of transactions. The base statements are the
constructors of `Instr` and their words are `encode`'s; `WAIT` is the turn `.wait`, whose repetition is `scheduleAfter`. -/

namespace Sys2Proof.Machine

/-- `SET64 EPOCH, v` (R100). -/
def set64Epoch (v : DWord) : List Instr := [.wrEpochLo (loWord v), .wrEpochHi (hiWord v)]

/-- `SET64 INTERVAL, v` (R100). -/
def set64Interval (v : DWord) : List Instr := [.wrIntervalLo (loWord v), .wrIntervalHi (hiWord v)]

/-- `SET64 TIME, v` (R100). -/
def set64Time (v : DWord) : List Instr := [.wrTimeLo (loWord v), .wrTimeHi (hiWord v)]

/-- `B32STR "…"` (R100). -/
def b32str (s : Text) : List Instr := s.map .b32push

/-- `RAWSTR b0 … b(n-1)` (R100). -/
def rawstr (bs : List Byte) : List Instr := bs.map .rawpush

/-- `SECRET "…"` (R100). -/
def secret (s : Text) : List Instr := .keyclr :: b32str s

/-- `n` polls of STATUS, as single transactions; a `WAIT`, which ends by what it reads, is the turn `.wait`. -/
def waitPolls (n : Nat) : List Instr := List.replicate n .rdStatus

/-- `TOTP "s", d, e, i, t` up to and with COMPUTE (R100). -/
def totpIssue (s : Text) (d : Word) (e i t : DWord) : List Instr :=
  secret s ++ [.wrDigits d] ++ set64Epoch e ++ set64Interval i ++ set64Time t ++ [.compute]

/-- What `TOTP` reads when its `WAIT` has ended (R100). -/
def totpCollect : List Instr := [.rdStatus, .rdCode]

/-- Transactions as turns of the host, in program order (R70). -/
def hostTurns (is : List Instr) : List Turn := is.map (fun i => .host (encode i))

/-- `TOTP "s", d, e, i, t`: the transactions up to COMPUTE, `WAIT`, `RD STATUS`, `RD CODE` (R100). -/
def totpTurns (s : Text) (d : Word) (e i t : DWord) : List Turn :=
  hostTurns (totpIssue s d e i t) ++ .wait :: hostTurns totpCollect

end Sys2Proof.Machine
end

