-- ==== Sys2Proof/Machine/Reference.lean ====
section
/-! DEFINITION. The two functions the block carries out, as KT defines them, apart from the machine: `decode` of a Base32 text
(R140 to R146) and `totp` (R178, R179). -/

namespace Sys2Proof.Machine

/-- The five bits of a character's value, most significant first (R142). -/
def valueBits (v : BitVec 5) : List Bool := [v.getLsbD 4, v.getLsbD 3, v.getLsbD 2, v.getLsbD 1, v.getLsbD 0]

/-- The bit string `B` of a text, `none` if a character is invalid (R142). -/
def textBits : Text → Option (List Bool)
  | [] => some []
  | c :: s =>
    match alphabetValue c, textBits s with
    | some v, some bs => some (valueBits v ++ bs)
    | _, _ => none

/-- Bits read as a number, the first most significant. -/
def numberOfBits (bs : List Bool) : Nat := bs.foldl (fun n b => 2 * n + b.toNat) 0

/-- Whole bytes cut from the front of a bit string; bits that complete no byte are not used (R142, R64 c). -/
def bytesOfBits : List Bool → List Byte
  | b0 :: b1 :: b2 :: b3 :: b4 :: b5 :: b6 :: b7 :: rest =>
    BitVec.ofNat 8 (numberOfBits [b0, b1, b2, b3, b4, b5, b6, b7]) :: bytesOfBits rest
  | _ => []

/-- `decode(s)`: the bytes of a Base32 text, `none` for `DecodeError` (R140, R142). -/
def decodeText (s : Text) : Option (List Byte) := (textBits s).map bytesOfBits

/-- `upper(c)`: only the ASCII letters `a` to `z` are folded (R145). -/
def upperCode (c : Byte) : Byte := if 0x61#8 ≤ c ∧ c ≤ 0x7A#8 then c - 0x20#8 else c

/-- `p` of a digest, in R182's sum form: `((d[o] & 0x7F) << 24) | (d[o+1] << 16) | (d[o+2] << 8) | d[o+3]`. -/
def windowNumber (d : Vector Byte 20) (o : Nat) (h : o < 16) : Nat :=
  ((d[o].toNat &&& 0x7F) <<< 24) ||| (d[o + 1].toNat <<< 16) ||| (d[o + 2].toNat <<< 8) ||| d[o + 3].toNat

/-- The low four bits of a byte are below 16. -/
theorem nibble_lt (b : Byte) : b.toNat % 16 < 16 := Nat.mod_lt _ (by decide)

/-- The last three lines of `totp`: dynamic truncation and reduction by the mathematical power (R179 to R183). -/
def codeOfDigest (d : Vector Byte 20) (digits : Nat) : Nat := windowNumber d (d[19].toNat % 16) (nibble_lt d[19]) % 10 ^ digits

/-- `hotp(key, counter, digits)` (R179). -/
def hotp (kh : KeyedHash) (key : List Byte) (counter : Nat) (digits : Nat) : Nat :=
  codeOfDigest (kh key (be64 (BitVec.ofNat 64 counter)).toList) digits

/-- `totp(key, digits, epoch, interval, timestamp)` (R179). -/
def totp (kh : KeyedHash) (key : List Byte) (digits epoch interval timestamp : Nat) : Except ComputeError Nat :=
  if interval = 0 then .error .invalidInterval
  else if timestamp < epoch then .error .timeBeforeEpoch
  else .ok (hotp kh key ((timestamp - epoch) / interval) digits)

end Sys2Proof.Machine
end

