-- ==== Sys2Proof/Safety.lean ====
section
/-! DEFINITION. What counts as a good state and a finished run, in the terms claims use. -/

namespace Sys2Proof.Machine

/-- The invariants of R44, with the range of the parameters (R6) and the form of the key buffer (R28; log 7). -/
structure State.Inv (s : State) : Prop where
  /-- The parameters are in their range (R6, R63). -/
  params_wf : s.params.wf
  /-- The key buffer has its canonical form (log 7). -/
  key_wf : Memory.wf s.key
  /-- Every byte the buffer lists is below `KEY_MAX` (R28). -/
  key_in_buffer : ∀ c ∈ s.key, c.1 < s.params.keyMax.toNat
  /-- R44 (a). -/
  keyLen_le : s.keyLen ≤ s.params.keyMax
  /-- R44 (b). -/
  acc_lt : s.acc.toNat < 2 ^ s.nbits.toNat
  /-- R44 (c). -/
  done_err : ¬(s.done = true ∧ s.err = true)
  /-- R44 (d), first half. -/
  errcode_clear : s.err = false → s.errcode = 0#4
  /-- R44 (d), second half. -/
  errcode_range : s.err = true → 1 ≤ s.errcode.toNat ∧ s.errcode.toNat ≤ 5
  /-- R44 (e). -/
  derr_kovf : ¬(s.derr = true ∧ s.kovf = true)
  /-- R44 (f), the flags. -/
  busy_flags : s.phase ≠ .idle → s.done = false ∧ s.err = false ∧ s.code = 0#32 ∧ s.derr = false ∧ s.kovf = false ∧ s.tset = true
  /-- R44 (f), the operands. -/
  busy_operands : s.phase ≠ .idle → 0 < s.interval.toNat ∧ s.epoch.toNat ≤ s.time.toNat
  /-- R44 (f), the counter. -/
  busy_counter : s.phase ≠ .idle → s.counter.toNat = (s.time.toNat - s.epoch.toNat) / s.interval.toNat
  /-- R44 (f), the message. -/
  busy_message : s.phase ≠ .idle → s.msg = be64 s.counter
  /-- R44 (g). -/
  code_done : s.done = false → s.code = 0#32
  /-- R44 (h). -/
  code_lt : s.code.toNat < 2 ^ 31

/-- R44 (i), for `d` the value `DIGITS` had when the COMPUTE was accepted: while the derivation runs `DIGITS` is still `d`, and a code
is below `10^d`. -/
def State.codeWithin (s : State) (d : Nat) : Prop :=
  (s.phase ≠ .idle → s.digits.toNat = d) ∧ (s.done = true → s.code.toNat < 10 ^ d)

/-- The host transaction a turn carries, if it carries one: the decoded word, or the decoded transaction of the bridge, or the
poll of a `WAIT`. -/
def Turn.transaction (p : Params) : Turn → Option Instr
  | .host tx => some (decode tx)
  | .bus a =>
    match bridge p a with
    | .ok tx => some (decode tx)
    | .error _ => none
  | .wait => some .rdStatus
  | .keyedHash | .sequencer | .reset => none

/-- The end of a run: the host has no transaction left and the block is idle (R299). -/
def State.final (s : State) : Prop := (∀ t ∈ s.schedule, t.isHost = false) ∧ s.phase = .idle

/-- The state without the secret-bearing contents: key bytes, pending Base32 bits, digest (R28, R30, R33, R47, R69). -/
def State.publicPart (s : State) : State := { s with key := [], acc := 0#7, digest := Vector.replicate 20 0#8 }

/-- Two outcomes that differ in secret-bearing contents only. -/
def samePublicly : Host.Outcome State Fault Refusal → Host.Outcome State Fault Refusal → Prop
  | .next s, .next t => s.publicPart = t.publicPart
  | .fault q, .fault r => q = r
  | .refused q, .refused r => q = r
  | _, _ => False

end Sys2Proof.Machine
end

