-- ==== Sys2Proof/Certificates/Slice0/Obligations.lean ====
section
/-! DEFINITION. The statements for the provers, from the numbered rules of spec/. An equation `exec i s = .next t` with `t` a record
update of `s` is also the frame: every element not named keeps its value, the key buffer with it. -/

open Sys2Proof Sys2Proof.Machine

/-! ## Encoding -/

/-- Every well-formed transaction is read back from its word (R99, R101). -/
def Obligations.DecodeOfEncodeIsIdentity : Prop := ∀ i : Instr, i.wellFormed = true → decode (encode i) = i

/-- Every transaction word is exactly one well-formed transaction, and encoding it gives the word back; for a read, whose data is
ignored, the word with the canonical data 0 (R90, R94). -/
def Obligations.EncodeOfDecodeIsTheCanonicalWord : Prop :=
  ∀ w : TxWord, (decode w).wellFormed = true ∧
    encode (decode w) = if txWe w then w else txOf false (txIdx w) 0#32

/-- R101: the decoder from `TX` to an action is total, by `we` and `idx`. -/
def Obligations.DecoderFollowsWriteBitAndIndex : Prop :=
  ∀ w : TxWord,
    (txWe w = false →
      [Instr.rdCmd, .rdStatus, .rdDigits, .rdKeyLen, .rdEpochLo, .rdEpochHi, .rdIntervalLo, .rdIntervalHi, .rdTimeLo, .rdTimeHi,
        .rdCounterLo, .rdCounterHi, .rdCode, .rdConfig, .rdW14, .rdW15][(txIdx w).toNat]? = some (decode w)) ∧
    (txWe w = true → txIdx w = 0#4 →
      (isCommandWord (txData w) = true →
        decode w ∈ [Instr.nop, .keyclr, .b32push (txData w |>.extractLsb' 8 8), .rawpush (txData w |>.extractLsb' 8 8), .compute,
          .zeroize, .ack] ∧ encodeData (decode w) = txData w) ∧
      (isCommandWord (txData w) = false → decode w = .wrCmdIllegal (txData w))) ∧
    (txWe w = true → txIdx w ≠ 0#4 →
      [Instr.wrStatus, .wrDigits, .wrKeyLen, .wrEpochLo, .wrEpochHi, .wrIntervalLo, .wrIntervalHi, .wrTimeLo, .wrTimeHi,
        .wrCounterLo, .wrCounterHi, .wrCode, .wrConfig, .wrW14, .wrW15][(txIdx w).toNat - 1]?.map (fun f => f (txData w))
          = some (decode w))

/-- R96: which command words are illegal, and that such a write is discarded in every phase: `CMDERR <- 1`, nothing else changes. The
only other illegal transactions are the writes of read-only and reserved words; there is no illegal read. -/
def Obligations.IllegalCommandWordsAreDiscarded : Prop :=
  ∀ d : Word,
    (decode (txOf true 0#4 d) = .wrCmdIllegal d ↔
      (7 ≤ d.toNat % 256 ∨
        (d.toNat % 256 ∈ [0, 1, 4, 5, 6] ∧ d.toNat / 256 ≠ 0) ∨
        (d.toNat % 256 ∈ [2, 3] ∧ d.toNat / 65536 ≠ 0))) ∧
    ∀ s : State,
      exec (.wrCmdIllegal d) s = .next { s with cmderr := true } ∧
      (∀ idx : BitVec 4, idx.toNat ∈ [1, 3, 10, 11, 12, 13, 14, 15] →
        exec (decode (txOf true idx d)) s = .next { s with cmderr := true }) ∧
      (∀ idx : BitVec 4, ∃ v, exec (decode (txOf false idx d)) s = .next { s with replies := v :: s.replies })

/-- The decoder agrees with spec/opcode_table.json as data: a word that is a row's decodes to that row's instruction, and a word
that is no row's is the catch-all row's. -/
def Obligations.DecodeAgreesWithTheOpcodeTable : Prop :=
  ∀ w : TxWord,
    (∀ r ∈ opcodeRows, r.matchedBy w = true → (decode w).mnemonic = r.mnemonic) ∧
    ((∀ r ∈ opcodeRows, r.matchedBy w = false) →
      catchAllRow.matchedBy w = true ∧ (decode w).mnemonic = catchAllRow.mnemonic)

/-- Nine sample words of 95_test_vectors.md V0, written out there from the encoding tables, decode to what they stand for. The tenth
clause is no word of V0: that a number with bit 37 set is refused is the model's choice (log 13). -/
def Obligations.SampleWordsDecode : Prop :=
  decodeNumber 0x01DEADBEEF = .ok .rdStatus ∧ decodeNumber 0x0F00000000 = .ok .rdW15 ∧
  decodeNumber 0x1000004A02 = .ok (.b32push 0x4A#8) ∧ decodeNumber 0x100000FF03 = .ok (.rawpush 0xFF#8) ∧
  decodeNumber 0x1000000004 = .ok .compute ∧ decodeNumber 0x1000000104 = .ok (.wrCmdIllegal 0x104#32) ∧
  decodeNumber 0x1200000008 = .ok (.wrDigits 8#32) ∧ decodeNumber 0x19FFFFFFFF = .ok (.wrTimeHi 0xFFFFFFFF#32) ∧
  decodeNumber 0x1D00000000 = .ok (.wrConfig 0#32) ∧ decodeNumber 0x2000000000 = .error .notATransactionWord

/-! ## The step -/

/-- A step runs the decoded transaction: when the next turn is a host word that decodes to `i`, the step is `exec i` on the state that
no longer lists the turn. Nothing else is added around `exec` on this hardware. -/
def Obligations.StepRunsTheDecodedTransaction : Prop :=
  ∀ (kh : KeyedHash) (s : State) (tx : TxWord) (rest : List Turn) (i : Instr),
    s.schedule = .host tx :: rest → decode tx = i →
      stepWith kh s = exec i { s with schedule := rest } ∧ step s = exec i { s with schedule := rest }

/-- An agent with no step to make lets its turn pass, and with no turn to come the block waits: the state stays, but for the turn
(the model's reading of "enabled", log 5 and log 6; R34, R180, R204, R281). -/
def Obligations.AgentsWithoutAStepLetTheirTurnPass : Prop :=
  ∀ (kh : KeyedHash) (s : State) (rest : List Turn),
    (s.schedule = [] → stepWith kh s = .next s) ∧
    (s.schedule = .keyedHash :: rest → s.phase ≠ .hash → stepWith kh s = .next { s with schedule := rest }) ∧
    (s.schedule = .sequencer :: rest → s.phase ≠ .trunc → stepWith kh s = .next { s with schedule := rest })

/-- The bridge (R63, R66): a 32-bit access at `BASE + 4*idx` is the transaction of word `idx`; a narrower, wider or misaligned access
that touches the window has no step; an access elsewhere is the platform's. The two names of the refusals, that an access elsewhere is
refused at all, and the data 0 of the transaction of a read are the model's choices (log 9). -/
def Obligations.OnlyWholeWordAccessesBecomeTransactions : Prop :=
  ∀ (kh : KeyedHash) (s : State) (a : BusAccess) (rest : List Turn), s.params.wf → s.schedule = .bus a :: rest →
    (∀ idx : BitVec 4, a.addr = s.params.base + 4 * idx.toNat → a.bytes = 4 →
      (a.we = true → stepWith kh s = exec (decode (txOf true idx a.data)) { s with schedule := rest }) ∧
      (a.we = false → stepWith kh s = exec (decode (txOf false idx 0#32)) { s with schedule := rest })) ∧
    (a.addr < s.params.base + 64 → s.params.base < a.addr + a.bytes → (a.bytes ≠ 4 ∨ a.addr % 4 ≠ 0) →
      stepWith kh s = .refused .notAWordAccess) ∧
    ((s.params.base + 64 ≤ a.addr ∨ a.addr + a.bytes ≤ s.params.base) → stepWith kh s = .refused .outsideWindow)

/-! ## Reset -/

/-- R280: a reset turn, in any state and any phase, leaves the values of R45. -/
def Obligations.ResetLeavesTheResetValues : Prop :=
  ∀ (kh : KeyedHash) (s : State) (rest : List Turn), s.schedule = .reset :: rest →
    ∃ t, stepWith kh s = .next t ∧
      t.digits = 6#32 ∧ t.epoch = 0#64 ∧ t.interval = 30#64 ∧ t.time = 0#64 ∧ t.tset = false ∧ t.counter = 0#64 ∧ t.code = 0#32 ∧
      (∀ a, Memory.read t.key a = 0#8) ∧ t.keyLen = 0#16 ∧ t.acc = 0#7 ∧ t.nbits = 0#3 ∧
      (∀ i : Fin 8, t.msg[i] = 0#8) ∧ (∀ i : Fin 20, t.digest[i] = 0#8) ∧ t.phase = .idle ∧
      t.done = false ∧ t.err = false ∧ t.errcode = 0#4 ∧ t.derr = false ∧ t.kovf = false ∧ t.cmderr = false

/-- R45: what words 0 to 15 read after reset, with the default `KEY_MAX` (`CONFIG = 0x01140080`). -/
def Obligations.ResetWordsAsRead : Prop :=
  observable State.reset =
    [0#32, 0x00000000#32, 6#32, 0#32, 0#32, 0#32, 30#32, 0#32, 0#32, 0#32, 0#32, 0#32, 0#32, 0x01140080#32, 0#32, 0#32]

/-- R281: a reset in `HASH` or `TRUNC` abandons the derivation: after it neither the unit's late response nor the sequencer changes
anything, and there is no code and no error. -/
def Obligations.ResetAbandonsTheDerivation : Prop :=
  ∀ (kh : KeyedHash) (s : State) (rest : List Turn), s.phase ≠ .idle →
    s.schedule = .reset :: .keyedHash :: .sequencer :: rest →
      ∃ t, stepWith kh s = .next t ∧ t.phase = .idle ∧ t.done = false ∧ t.err = false ∧ t.code = 0#32 ∧ t.keyLen = 0#16 ∧
        runWith kh 3 s = .next { t with schedule := rest }

/-! ## Reads -/

/-- R120: a read of any word, whatever its data field, in every phase, returns `RegRead(idx)` and changes no state. -/
def Obligations.ReadsReturnTheWordAndChangeNothing : Prop :=
  ∀ (s : State) (idx : BitVec 4) (d : Word),
    exec (decode (txOf false idx d)) s = .next { s with replies := regRead idx s :: s.replies }

/-- R112, R114 to R119: the reads of the operand registers; a 64-bit register is read as its value modulo and divided by `2^32`. -/
def Obligations.OperandReadsReturnTheOperands : Prop :=
  ∀ s : State,
    (decode 0x0200000000#37 = .rdDigits ∧ exec .rdDigits s = .next { s with replies := s.digits :: s.replies }) ∧
    (decode 0x0400000000#37 = .rdEpochLo ∧
      exec .rdEpochLo s = .next { s with replies := BitVec.ofNat 32 (s.epoch.toNat % 2 ^ 32) :: s.replies }) ∧
    (decode 0x0500000000#37 = .rdEpochHi ∧
      exec .rdEpochHi s = .next { s with replies := BitVec.ofNat 32 (s.epoch.toNat / 2 ^ 32) :: s.replies }) ∧
    (decode 0x0600000000#37 = .rdIntervalLo ∧
      exec .rdIntervalLo s = .next { s with replies := BitVec.ofNat 32 (s.interval.toNat % 2 ^ 32) :: s.replies }) ∧
    (decode 0x0700000000#37 = .rdIntervalHi ∧
      exec .rdIntervalHi s = .next { s with replies := BitVec.ofNat 32 (s.interval.toNat / 2 ^ 32) :: s.replies }) ∧
    (decode 0x0800000000#37 = .rdTimeLo ∧
      exec .rdTimeLo s = .next { s with replies := BitVec.ofNat 32 (s.time.toNat % 2 ^ 32) :: s.replies }) ∧
    (decode 0x0900000000#37 = .rdTimeHi ∧
      exec .rdTimeHi s = .next { s with replies := BitVec.ofNat 32 (s.time.toNat / 2 ^ 32) :: s.replies })

/-- R110, R113, R132, R133, R135 to R137: the reads of `CMD`, `KEY_LEN`, the counter, `CONFIG` and the reserved words, and the value
`RD CODE` returns. -/
def Obligations.ResultReadsReturnTheResults : Prop :=
  ∀ s : State,
    (decode 0x0000000000#37 = .rdCmd ∧ exec .rdCmd s = .next { s with replies := 0x00000000#32 :: s.replies }) ∧
    (decode 0x0300000000#37 = .rdKeyLen ∧
      exec .rdKeyLen s = .next { s with replies := BitVec.ofNat 32 s.keyLen.toNat :: s.replies }) ∧
    (decode 0x0A00000000#37 = .rdCounterLo ∧
      exec .rdCounterLo s = .next { s with replies := BitVec.ofNat 32 (s.counter.toNat % 2 ^ 32) :: s.replies }) ∧
    (decode 0x0B00000000#37 = .rdCounterHi ∧
      exec .rdCounterHi s = .next { s with replies := BitVec.ofNat 32 (s.counter.toNat / 2 ^ 32) :: s.replies }) ∧
    (decode 0x0C00000000#37 = .rdCode ∧ exec .rdCode s = .next { s with replies := s.code :: s.replies }) ∧
    (decode 0x0D00000000#37 = .rdConfig ∧
      exec .rdConfig s = .next { s with
        replies := BitVec.ofNat 32 (1 * 2 ^ 24 + 20 * 2 ^ 16 + s.params.keyMax.toNat) :: s.replies }) ∧
    (decode 0x0E00000000#37 = .rdW14 ∧ exec .rdW14 s = .next { s with replies := 0x00000000#32 :: s.replies }) ∧
    (decode 0x0F00000000#37 = .rdW15 ∧ exec .rdW15 s = .next { s with replies := 0x00000000#32 :: s.replies })

/-- R35, R43: what `RD STATUS` returns, bit by bit, in every phase; a write of word 1 is discarded, and the value after reset is 0. The
last clause, `0x801 | (CMDERR << 10)` while busy, is the spec's own inference (R111 from R44 f), in a state with the invariants. -/
def Obligations.StatusReadAssemblesTheFlags : Prop :=
  ∀ s : State, decode 0x0100000000#37 = .rdStatus ∧
    (∃ v : Word, exec .rdStatus s = .next { s with replies := v :: s.replies } ∧
      (v.getLsbD 0 = true ↔ (s.phase = .hash ∨ s.phase = .trunc)) ∧ v.getLsbD 1 = s.done ∧ v.getLsbD 2 = s.err ∧
      v.getLsbD 3 = false ∧ v.extractLsb' 4 4 = s.errcode ∧ v.getLsbD 8 = s.derr ∧ v.getLsbD 9 = s.kovf ∧
      v.getLsbD 10 = s.cmderr ∧ v.getLsbD 11 = s.tset ∧ v.extractLsb' 12 20 = 0#20) ∧
    (∀ v, exec (.wrStatus v) s = .next { s with cmderr := true }) ∧
    exec .rdStatus State.reset = .next { State.reset with replies := [0x00000000#32] } ∧
    (s.Inv → s.phase ≠ .idle →
      exec .rdStatus s = .next { s with replies := (if s.cmderr then 0xC01#32 else 0x801#32) :: s.replies })

/-! ## Writes -/

/-- R122: in `HASH` and `TRUNC` a write of any word with any data, the command word included, is discarded. -/
def Obligations.WritesWhileBusyAreDiscarded : Prop :=
  ∀ (s : State), (s.phase = .hash ∨ s.phase = .trunc) →
    (∀ (idx : BitVec 4) (d : Word), exec (decode (txOf true idx d)) s = .next { s with cmderr := true }) ∧
    (∀ i : Instr, i.isWrite = true → exec i s = .next { s with cmderr := true })

/-- R124: a write of a read-only or reserved word is discarded, whatever its data. -/
def Obligations.ReadOnlyAndReservedWordsKeepTheirValue : Prop :=
  ∀ (s : State) (v : Word), s.phase = .idle →
    (∀ idx : BitVec 4, idx.toNat ∈ [1, 3, 10, 11, 12, 13, 14, 15] →
      exec (decode (txOf true idx v)) s = .next { s with cmderr := true }) ∧
    (∀ i ∈ [Instr.wrStatus v, .wrKeyLen v, .wrCounterLo v, .wrCounterHi v, .wrCode v, .wrConfig v, .wrW14 v, .wrW15 v],
      exec i s = .next { s with cmderr := true })

/-- R125 to R131: an accepted write of an operand register, with the word it is and the whole next state; the other half of a 64-bit
register keeps its value, and the writes of `TIME` set `TSET`. While busy each is discarded. -/
def Obligations.OperandWritesStoreTheirData : Prop :=
  ∀ (s : State) (v : Word),
    (s.phase ≠ .idle →
      ∀ i ∈ [Instr.wrDigits v, .wrEpochLo v, .wrEpochHi v, .wrIntervalLo v, .wrIntervalHi v, .wrTimeLo v, .wrTimeHi v],
        exec i s = .next { s with cmderr := true }) ∧
    (s.phase = .idle →
    (decode (0x1200000000#37 ||| v.setWidth 37) = .wrDigits v ∧ exec (.wrDigits v) s = .next { s with digits := v }) ∧
    (decode (0x1400000000#37 ||| v.setWidth 37) = .wrEpochLo v ∧
      exec (.wrEpochLo v) s = .next { s with epoch := BitVec.ofNat 64 (s.epoch.toNat / 2 ^ 32 * 2 ^ 32 + v.toNat) }) ∧
    (decode (0x1500000000#37 ||| v.setWidth 37) = .wrEpochHi v ∧
      exec (.wrEpochHi v) s = .next { s with epoch := BitVec.ofNat 64 (v.toNat * 2 ^ 32 + s.epoch.toNat % 2 ^ 32) }) ∧
    (decode (0x1600000000#37 ||| v.setWidth 37) = .wrIntervalLo v ∧
      exec (.wrIntervalLo v) s = .next { s with interval := BitVec.ofNat 64 (s.interval.toNat / 2 ^ 32 * 2 ^ 32 + v.toNat) }) ∧
    (decode (0x1700000000#37 ||| v.setWidth 37) = .wrIntervalHi v ∧
      exec (.wrIntervalHi v) s = .next { s with interval := BitVec.ofNat 64 (v.toNat * 2 ^ 32 + s.interval.toNat % 2 ^ 32) }) ∧
    (decode (0x1800000000#37 ||| v.setWidth 37) = .wrTimeLo v ∧
      exec (.wrTimeLo v) s = .next { s with
        time := BitVec.ofNat 64 (s.time.toNat / 2 ^ 32 * 2 ^ 32 + v.toNat), tset := true }) ∧
    (decode (0x1900000000#37 ||| v.setWidth 37) = .wrTimeHi v ∧
      exec (.wrTimeHi v) s = .next { s with
        time := BitVec.ofNat 64 (v.toNat * 2 ^ 32 + s.time.toNat % 2 ^ 32), tset := true }))

/-- R123: the two halves of a 64-bit operand can be written in either order, and then the register holds the 64-bit value. -/
def Obligations.HalvesAreWrittenInEitherOrder : Prop :=
  ∀ (kh : KeyedHash) (s : State) (v : DWord) (rest : List Turn), s.phase = .idle →
    ((s.schedule = hostTurns (set64Epoch v) ++ rest ∨ s.schedule = hostTurns (set64Epoch v).reverse ++ rest) →
      runWith kh 2 s = .next { s with schedule := rest, epoch := v }) ∧
    ((s.schedule = hostTurns (set64Interval v) ++ rest ∨ s.schedule = hostTurns (set64Interval v).reverse ++ rest) →
      runWith kh 2 s = .next { s with schedule := rest, interval := v }) ∧
    ((s.schedule = hostTurns (set64Time v) ++ rest ∨ s.schedule = hostTurns (set64Time v).reverse ++ rest) →
      runWith kh 2 s = .next { s with schedule := rest, time := v, tset := true })

/-! ## The Secret Decoder -/

/-- R141: the alphabet table, code by code, and that exactly 58 codes are valid. -/
def Obligations.AlphabetTable : Prop :=
  (∀ c : Byte,
    (0x41 ≤ c.toNat → c.toNat ≤ 0x5A → alphabetValue c = some (BitVec.ofNat 5 (c.toNat - 0x41))) ∧
    (0x61 ≤ c.toNat → c.toNat ≤ 0x7A → alphabetValue c = some (BitVec.ofNat 5 (c.toNat - 0x61))) ∧
    (0x32 ≤ c.toNat → c.toNat ≤ 0x37 → alphabetValue c = some (BitVec.ofNat 5 (c.toNat - 0x32 + 26))) ∧
    (¬(0x41 ≤ c.toNat ∧ c.toNat ≤ 0x5A) → ¬(0x61 ≤ c.toNat ∧ c.toNat ≤ 0x7A) → ¬(0x32 ≤ c.toNat ∧ c.toNat ≤ 0x37) →
      alphabetValue c = none)) ∧
  ((List.range 256).filter (fun n => (alphabetValue (BitVec.ofNat 8 n)).isSome)).length = 58

/-- R147: `KEYCLR` begins a session; no byte of `KEY` changes. -/
def Obligations.KeyclrBeginsASession : Prop :=
  ∀ s : State, s.phase = .idle →
    decode 0x1000000001#37 = .keyclr ∧
    exec .keyclr s = .next { s with keyLen := 0#16, acc := 0#7, nbits := 0#3, derr := false, kovf := false }

/-- R148: `B32PUSH ch`, every branch, with numbers: `a = ACC * 32 + val(ch)`, `n = NBITS + 5`; a completed byte is `a` without its
`n - 8` low bits, which stay. In the branch that stores, the stored byte is at `KEY_LEN` and every other byte of the buffer reads as
before. The premises on `ACC` and `KEY_LEN` are R44 (a) and (b), that on the buffer its canonical form (log 7). -/
def Obligations.B32PushDecodesOneCharacter : Prop :=
  ∀ (s : State) (ch : Byte), s.phase = .idle → s.acc.toNat < 2 ^ s.nbits.toNat → s.keyLen ≤ s.params.keyMax →
    Memory.wf s.key →
    decode (0x1000000002#37 ||| (ch.setWidth 37 <<< 8)) = .b32push ch ∧
    ((s.derr = true ∨ s.kovf = true) → exec (.b32push ch) s = .next s) ∧
    (s.derr = false → s.kovf = false →
      (alphabetValue ch = none → exec (.b32push ch) s = .next { s with derr := true }) ∧
      (∀ v, alphabetValue ch = some v →
        (s.nbits.toNat + 5 < 8 →
          exec (.b32push ch) s = .next { s with
            acc := BitVec.ofNat 7 (s.acc.toNat * 32 + v.toNat), nbits := BitVec.ofNat 3 (s.nbits.toNat + 5) }) ∧
        (8 ≤ s.nbits.toNat + 5 → s.keyLen = s.params.keyMax → exec (.b32push ch) s = .next { s with kovf := true }) ∧
        (8 ≤ s.nbits.toNat + 5 → s.keyLen ≠ s.params.keyMax →
          ∃ m : Memory,
            exec (.b32push ch) s = .next { s with
              key := m
              keyLen := BitVec.ofNat 16 (s.keyLen.toNat + 1)
              nbits := BitVec.ofNat 3 (s.nbits.toNat + 5 - 8)
              acc := BitVec.ofNat 7 ((s.acc.toNat * 32 + v.toNat) % 2 ^ (s.nbits.toNat + 5 - 8)) } ∧
            Memory.read m s.keyLen.toNat
              = BitVec.ofNat 8 ((s.acc.toNat * 32 + v.toNat) / 2 ^ (s.nbits.toNat + 5 - 8)) ∧
            (s.acc.toNat * 32 + v.toNat) / 2 ^ (s.nbits.toNat + 5 - 8) < 256 ∧
            ∀ a, a ≠ s.keyLen.toNat → Memory.read m a = Memory.read s.key a)))

/-- R152: `RAWPUSH b`, every branch; `ACC` and `NBITS` are not written, and every byte of the buffer but the stored one reads as
before. The premise on `KEY_LEN` is R44 (a), that on the buffer its canonical form (log 7). -/
def Obligations.RawPushAppendsOneByte : Prop :=
  ∀ (s : State) (b : Byte), s.phase = .idle → s.keyLen ≤ s.params.keyMax → Memory.wf s.key →
    decode (0x1000000003#37 ||| (b.setWidth 37 <<< 8)) = .rawpush b ∧
    ((s.derr = true ∨ s.kovf = true) → exec (.rawpush b) s = .next s) ∧
    (s.derr = false → s.kovf = false → s.keyLen = s.params.keyMax → exec (.rawpush b) s = .next { s with kovf := true }) ∧
    (s.derr = false → s.kovf = false → s.keyLen ≠ s.params.keyMax →
      ∃ m : Memory,
        exec (.rawpush b) s = .next { s with key := m, keyLen := BitVec.ofNat 16 (s.keyLen.toNat + 1) } ∧
        Memory.read m s.keyLen.toNat = b ∧ ∀ a, a ≠ s.keyLen.toNat → Memory.read m a = Memory.read s.key a)

/-- A push past the end of the buffer in a state that no run reaches stops by name (log 8): a clean session, a byte due, and
`KEY_LEN > KEY_MAX`. -/
def Obligations.AbsentKeyBytesAreFaults : Prop :=
  ∀ (s : State) (ch : Byte) (v : BitVec 5), s.phase = .idle → s.derr = false → s.kovf = false → s.params.keyMax < s.keyLen →
    (∀ b, exec (.rawpush b) s = .fault .keyIndexAbsent) ∧
    (alphabetValue ch = some v → 3 ≤ s.nbits.toNat → exec (.b32push ch) s = .fault .keyIndexAbsent)

/-- R149: after `KEYCLR` and `B32STR "s"` the decoder's state is what the function `decode` gives, in its three cases: the text is
valid and fits; the first invalid character comes after a prefix that fits; a valid prefix does not fit. -/
def Obligations.SessionCarriesOutDecode : Prop :=
  ∀ (kh : KeyedHash) (s : State) (text : Text) (rest : List Turn), s.phase = .idle → Memory.wf s.key →
    s.schedule = hostTurns (secret text) ++ rest →
    ∃ t, runWith kh (text.length + 1) s = .next t ∧ t.schedule = rest ∧ t.phase = .idle ∧
      { t with key := s.key, keyLen := s.keyLen, acc := s.acc, nbits := s.nbits, derr := s.derr, kovf := s.kovf,
               schedule := s.schedule } = s ∧
      (∀ bits, textBits text = some bits → (bytesOfBits bits).length ≤ s.params.keyMax.toNat →
        t.derr = false ∧ t.kovf = false ∧ t.keyLen.toNat = (bytesOfBits bits).length ∧ requestKey t = bytesOfBits bits ∧
        t.nbits.toNat = (5 * text.length) % 8 ∧ t.acc.toNat = numberOfBits (bits.drop (8 * (5 * text.length / 8)))) ∧
      (∀ pre c post bits, text = pre ++ c :: post → textBits pre = some bits → alphabetValue c = none →
        5 * pre.length / 8 ≤ s.params.keyMax.toNat →
        t.derr = true ∧ t.kovf = false ∧ requestKey t = bytesOfBits bits ∧ t.nbits.toNat = (5 * pre.length) % 8 ∧
        t.acc.toNat = numberOfBits (bits.drop (8 * (5 * pre.length / 8)))) ∧
      (∀ pre c post bits, text = pre ++ c :: post → textBits pre = some bits → (alphabetValue c).isSome = true →
        5 * pre.length / 8 ≤ s.params.keyMax.toNat → s.params.keyMax.toNat < 5 * (pre.length + 1) / 8 →
        t.kovf = true ∧ t.derr = false ∧ t.keyLen = s.params.keyMax ∧ requestKey t = bytesOfBits bits ∧
        t.nbits.toNat = (5 * pre.length) % 8 ∧ t.acc.toNat = numberOfBits (bits.drop (8 * (5 * pre.length / 8))))

/-- R143: the length law, and that the only failure is a character outside the alphabet. -/
def Obligations.DecodedLengthLaw : Prop :=
  ∀ text : Text,
    (∀ out, decodeText text = some out → out.length = 5 * text.length / 8) ∧
    (decodeText text = none ↔ ∃ c ∈ text, alphabetValue c = none)

/-- R145: `decode(s) = decode(upper(s))`. -/
def Obligations.DecodingIsCaseInsensitive : Prop := ∀ text : Text, decodeText (text.map upperCode) = decodeText text

/-! ## The TOTP Engine -/

/-- R172, R246, R249: the checks of COMPUTE in priority order; the error is reported, the previous result is cleared, `MSG` and
everything else stay and the block does not become busy. -/
def Obligations.ComputeReportsTheFirstError : Prop :=
  ∀ s : State, s.phase = .idle →
    let reports (k : BitVec 4) : Prop := exec .compute s = .next { s with
      done := false, code := 0#32, counter := 0#64, err := true, errcode := k }
    (s.derr = true → reports 1#4) ∧
    (s.derr = false → s.kovf = true → reports 4#4) ∧
    (s.derr = false → s.kovf = false → s.tset = false → reports 3#4) ∧
    (s.derr = false → s.kovf = false → s.tset = true → s.interval.toNat = 0 → reports 2#4) ∧
    (s.derr = false → s.kovf = false → s.tset = true → s.interval.toNat ≠ 0 → s.time.toNat < s.epoch.toNat → reports 5#4)

/-- R174, R176: a COMPUTE that finds no error writes the counter and the message; it also clears the previous result and places the
request (R171, R177). `KEY_LEN` is not looked at (R173). -/
def Obligations.ComputePlacesTheRequest : Prop :=
  ∀ s : State, s.phase = .idle → s.derr = false → s.kovf = false → s.tset = true → s.interval.toNat ≠ 0 →
    s.epoch.toNat ≤ s.time.toNat →
    decode 0x1000000004#37 = .compute ∧
    ∃ (c : DWord) (m : Vector Byte 8),
      exec .compute s = .next { s with
        done := false, err := false, errcode := 0#4, code := 0#32, counter := c, msg := m, phase := .hash } ∧
      c.toNat = (s.time.toNat - s.epoch.toNat) / s.interval.toNat ∧
      ∀ i : Fin 8, m[i].toNat = c.toNat / 2 ^ (8 * (7 - i.val)) % 256

/-- R180 to R183: the truncation step, with the window as R182 sums it and the mathematical power of R183. Outside `PHASE = TRUNC` it is
not enabled: that the sequencer's turn then passes is the model's reading (log 5). -/
def Obligations.TruncationStepWritesTheCode : Prop :=
  ∀ (kh : KeyedHash) (s : State) (rest : List Turn), s.schedule = .sequencer :: rest →
    (s.phase = .trunc → stepWith kh s = .next { s with
      schedule := rest, code := BitVec.ofNat 32 (codeOfDigest s.digest s.digits.toNat), done := true, phase := .idle }) ∧
    (s.phase ≠ .trunc → stepWith kh s = .next { s with schedule := rest })

/-- R175 (d): nine moduli, the modulus 1 and a pass-through are the mathematical remainder for every 31-bit value. -/
def Obligations.CodeIsTheMathematicalRemainder : Prop :=
  ∀ p digits : Word, p.toNat < 2 ^ 31 → (reduceCode p digits).toNat = p.toNat % 10 ^ digits.toNat

/-- R184: the range of the code after the truncation step. -/
def Obligations.CodeIsInRange : Prop :=
  ∀ (kh : KeyedHash) (s : State) (rest : List Turn), s.phase = .trunc → s.schedule = .sequencer :: rest →
    ∃ t, stepWith kh s = .next t ∧ t.code.toNat < 10 ^ s.digits.toNat ∧ t.code.toNat < 2 ^ 31 ∧ t.code.getLsbD 31 = false

/-- R185: COMPUTE, the keyed-hash agent's step and the truncation step together compute `totp`, for every keyed-hash function. On an
error the two later steps do not occur (R185), which the model shows as two turns that pass (log 5). -/
def Obligations.DerivationComputesTotp : Prop :=
  ∀ (kh : KeyedHash) (s : State) (rest : List Turn), s.phase = .idle → s.derr = false → s.kovf = false → s.tset = true →
    s.keyLen ≤ s.params.keyMax → s.schedule = .host (encode .compute) :: .keyedHash :: .sequencer :: rest →
    ∃ t, runWith kh 3 s = .next t ∧ t.phase = .idle ∧ t.schedule = rest ∧
      (∀ c, totp kh (requestKey s) s.digits.toNat s.epoch.toNat s.interval.toNat s.time.toNat = .ok c →
        t.done = true ∧ t.err = false ∧ t.errcode = 0#4 ∧ t.code.toNat = c ∧
        t.counter.toNat = (s.time.toNat - s.epoch.toNat) / s.interval.toNat) ∧
      (∀ e, totp kh (requestKey s) s.digits.toNat s.epoch.toNat s.interval.toNat s.time.toNat = .error e →
        t.done = false ∧ t.err = true ∧ t.errcode = errorCode e ∧ t.code = 0#32 ∧ t.counter = 0#64)

/-- R100, R149, R185: the pseudo-statement `TOTP "s", d, e, i, t`, from any idle state, with any polls of `WAIT` while the unit and the
sequencer move: the last read returns KT's `computeTotp(s, d, e, i, t)`, the read before it a STATUS with `DONE`; on an error the
last read returns 0 and STATUS has `ERR` and the error's code. Where COMPUTE reports an error the two agents' turns pass (log 5). -/
def Obligations.TotpStatementComputesTheCode : Prop :=
  ∀ (kh : KeyedHash) (s : State) (text : Text) (d : Word) (e i t : DWord) (p q r : Nat) (rest : List Turn),
    s.phase = .idle → Memory.wf s.key →
    s.schedule = hostTurns (totpIssue text d e i t ++ waitPolls p) ++ .keyedHash :: hostTurns (waitPolls q) ++
      .sequencer :: hostTurns (waitPolls r ++ totpCollect) ++ rest →
    ∃ (u : State) (status code : Word) (polls : List Word),
      runWith kh (text.length + 13 + p + q + r) s = .next u ∧ u.schedule = rest ∧ u.phase = .idle ∧
      ((∀ x ∈ rest, x.isHost = false) → u.final) ∧
      u.replies = code :: status :: polls ++ s.replies ∧ polls.length = p + q + r ∧
      (∀ key, decodeText text = some key → key.length ≤ s.params.keyMax.toNat →
        (∀ c, totp kh key d.toNat e.toNat i.toNat t.toNat = .ok c →
          code.toNat = c ∧ status.extractLsb' 0 4 = 0b0010#4 ∧ status.extractLsb' 4 4 = 0#4) ∧
        (∀ x, totp kh key d.toNat e.toNat i.toNat t.toNat = .error x →
          code = 0#32 ∧ status.extractLsb' 0 4 = 0b0100#4 ∧ status.extractLsb' 4 4 = errorCode x)) ∧
      (∀ pre c post bits, text = pre ++ c :: post → textBits pre = some bits → alphabetValue c = none →
        5 * pre.length / 8 ≤ s.params.keyMax.toNat →
        code = 0#32 ∧ status.extractLsb' 0 4 = 0b0100#4 ∧ status.extractLsb' 4 4 = errorCode .invalidBase32) ∧
      (∀ pre post bits, text = pre ++ post → textBits pre = some bits → s.params.keyMax.toNat < 5 * pre.length / 8 →
        code = 0#32 ∧ status.extractLsb' 0 4 = 0b0100#4 ∧ status.extractLsb' 4 4 = errorCode .keyOverflow)

/-- R187: the result of a derivation depends on the key, the operands and the flags at its acceptance and on nothing else. -/
def Obligations.DerivationIsDeterministic : Prop :=
  ∀ (kh : KeyedHash) (s t : State) (r q : List Turn),
    s.phase = .idle → t.phase = .idle → s.keyLen ≤ s.params.keyMax → t.keyLen ≤ t.params.keyMax →
    requestKey s = requestKey t → s.digits = t.digits → s.epoch = t.epoch → s.interval = t.interval → s.time = t.time →
    s.tset = t.tset → s.derr = t.derr → s.kovf = t.kovf →
    s.schedule = .host (encode .compute) :: .keyedHash :: .sequencer :: r →
    t.schedule = .host (encode .compute) :: .keyedHash :: .sequencer :: q →
    ∃ s' t', runWith kh 3 s = .next s' ∧ runWith kh 3 t = .next t' ∧
      s'.code = t'.code ∧ s'.counter = t'.counter ∧ s'.done = t'.done ∧ s'.err = t'.err ∧ s'.errcode = t'.errcode

/-- R188, the law: two timestamps in the same window give the same code. -/
def Obligations.SameWindowSameCode : Prop :=
  ∀ (kh : KeyedHash) (s : State) (t₂ : DWord) (rest : List Turn),
    s.phase = .idle → s.keyLen ≤ s.params.keyMax → s.derr = false → s.kovf = false → s.tset = true → s.interval.toNat ≠ 0 →
    s.epoch.toNat ≤ s.time.toNat → s.epoch.toNat ≤ t₂.toNat →
    (s.time.toNat - s.epoch.toNat) / s.interval.toNat = (t₂.toNat - s.epoch.toNat) / s.interval.toNat →
    s.schedule = .host (encode .compute) :: .keyedHash :: .sequencer :: rest →
    ∃ u, runWith kh 3 s = .next u ∧ runWith kh 3 { s with time := t₂ } = .next { u with time := t₂ } ∧ u.done = true

/-! ## The keyed-hash unit -/

/-- R204: the keyed-hash agent's step writes `KH(KEY[0..KEY_LEN), MSG)`; outside `PHASE = HASH` it is not enabled and the unit's turn
passes (log 5). The premise on `KEY_LEN` is R44 (a). That `step` has HMAC-SHA-1 as `KH` is log 4. -/
def Obligations.KeyedHashStepAnswersTheRequest : Prop :=
  ∀ (kh : KeyedHash) (s : State) (rest : List Turn), s.schedule = .keyedHash :: rest →
    (s.phase ≠ .hash → stepWith kh s = .next { s with schedule := rest }) ∧
    (s.phase = .hash → s.keyLen ≤ s.params.keyMax →
      ∃ key : List Byte, key.length = s.keyLen.toNat ∧ (∀ i (h : i < key.length), key[i] = Memory.read s.key i) ∧
        stepWith kh s = .next { s with schedule := rest, digest := kh key s.msg.toList, phase := .trunc } ∧
        step s = .next { s with schedule := rest, digest := hmacSha1 key s.msg.toList, phase := .trunc })

/-- R211: the padded message starts with the message and `0x80`, ends with the bit length, and is the fewest whole blocks. -/
def Obligations.PaddingFillsWholeBlocks : Prop :=
  ∀ m : List Byte, m.length < 2 ^ 61 →
    ∃ z : Nat, z < 64 ∧ (m.length + 1 + z) % 64 = 56 ∧
      sha1Pad m = m ++ [0x80#8] ++ List.replicate z 0#8 ++ (be64 (BitVec.ofNat 64 (8 * m.length))).toList ∧
      (sha1Pad m).length % 64 = 0

/-- R210 steps 1 and 2: a key longer than a block stands for its hash, and zero bytes up to a block do not matter. -/
def Obligations.HmacKeyPreparation : Prop :=
  ∀ key msg : List Byte,
    (64 < key.length → hmacSha1 key msg = hmacSha1 (sha1 key).toList msg) ∧
    (∀ n, key.length + n ≤ 64 → hmacSha1 (key ++ List.replicate n 0#8) msg = hmacSha1 key msg)

/-! ## Control commands -/

/-- R230, R234: `NOP` changes nothing; `ACK` clears `CMDERR` and nothing else; while busy both are discarded. -/
def Obligations.NopAndAck : Prop :=
  ∀ s : State, decode 0x1000000000#37 = .nop ∧ decode 0x1000000006#37 = .ack ∧
    (s.phase = .idle → exec .nop s = .next s ∧ exec .ack s = .next { s with cmderr := false }) ∧
    (s.phase ≠ .idle → exec .nop s = .next { s with cmderr := true } ∧ exec .ack s = .next { s with cmderr := true })

/-- R232: `ZEROIZE` erases the secret and everything derived from it; the operands, `TSET`, `CMDERR` and `PHASE` stay; while busy it is
discarded. -/
def Obligations.ZeroizeErasesTheSecret : Prop :=
  ∀ s : State, decode 0x1000000005#37 = .zeroize ∧
    (s.phase ≠ .idle → exec .zeroize s = .next { s with cmderr := true }) ∧
    (s.phase = .idle →
      ∃ (m : Memory) (g : Vector Byte 8) (h : Vector Byte 20),
        exec .zeroize s = .next { s with
          key := m, keyLen := 0#16, acc := 0#7, nbits := 0#3, msg := g, digest := h, counter := 0#64, code := 0#32,
          done := false, err := false, errcode := 0#4, derr := false, kovf := false } ∧
        (∀ a, Memory.read m a = 0#8) ∧ (∀ i : Fin 8, g[i] = 0#8) ∧ (∀ i : Fin 20, h[i] = 0#8))

/-! ## Invariants and rules about the whole machine -/

/-- The invariants of R44 hold at reset. -/
def Obligations.InvariantsHoldAtReset : Prop := State.reset.Inv ∧ ∀ d, State.reset.codeWithin d

/-- R44: every step from a state with the invariants gives a state with the invariants, for every keyed-hash function and every turn.
Clause (i) speaks of the `DIGITS` of the COMPUTE's acceptance: with `d` for that value, only an accepted COMPUTE starts a new `d`. -/
def Obligations.EveryStepKeepsTheInvariants : Prop :=
  ∀ (kh : KeyedHash) (s t : State), s.Inv → stepWith kh s = .next t →
    t.Inv ∧
    ∀ d, s.codeWithin d →
      t.codeWithin d ∨
        ((∃ turn rest, s.schedule = turn :: rest ∧ turn.transaction s.params = some .compute) ∧ s.phase = .idle ∧
          t.codeWithin s.digits.toNat)

/-- In a state with the invariants no step faults, and only a bus access that is no whole word of the window is refused: every host
transaction, every agent's turn and reset has a next state (R61, R120, R121, R280). -/
def Obligations.EveryTransactionCompletes : Prop :=
  ∀ (kh : KeyedHash) (s : State), s.Inv →
    (∀ i : Instr, ∃ t, exec i s = .next t) ∧
    (∀ r, stepWith kh s ≠ .fault r) ∧
    (∀ r, stepWith kh s = .refused r →
      ∃ a rest, s.schedule = .bus a :: rest ∧ ¬(a.bytes = 4 ∧ ∃ idx : BitVec 4, a.addr = s.params.base + 4 * idx.toNat))

/-- R34: the transitions of `PHASE` are exactly these: `IDLE` to `HASH` by an accepted COMPUTE that finds no error, `HASH` to `TRUNC` by
the keyed-hash agent, `TRUNC` to `IDLE` by the sequencer, and any phase to `IDLE` by reset. -/
def Obligations.PhaseTransitions : Prop :=
  ∀ (kh : KeyedHash) (s t : State) (turn : Turn) (rest : List Turn), s.schedule = turn :: rest → stepWith kh s = .next t →
    t.phase = s.phase ∨
    (s.phase = .idle ∧ t.phase = .hash ∧ turn.transaction s.params = some .compute ∧ t.err = false) ∨
    (s.phase = .hash ∧ t.phase = .trunc ∧ turn = .keyedHash) ∨
    (s.phase = .trunc ∧ t.phase = .idle ∧ turn = .sequencer) ∨
    (t.phase = .idle ∧ turn = .reset)

/-- R21 to R25: who writes the operand registers and `TSET`: their own words and reset, nothing else. -/
def Obligations.OperandsChangeOnlyByTheirWrites : Prop :=
  ∀ (kh : KeyedHash) (s t : State) (turn : Turn) (rest : List Turn), s.schedule = turn :: rest → stepWith kh s = .next t →
    turn ≠ .reset →
    ((∀ v, turn.transaction s.params ≠ some (.wrDigits v)) → t.digits = s.digits) ∧
    ((∀ v, turn.transaction s.params ≠ some (.wrEpochLo v)) → (∀ v, turn.transaction s.params ≠ some (.wrEpochHi v)) →
      t.epoch = s.epoch) ∧
    ((∀ v, turn.transaction s.params ≠ some (.wrIntervalLo v)) → (∀ v, turn.transaction s.params ≠ some (.wrIntervalHi v)) →
      t.interval = s.interval) ∧
    ((∀ v, turn.transaction s.params ≠ some (.wrTimeLo v)) → (∀ v, turn.transaction s.params ≠ some (.wrTimeHi v)) →
      t.time = s.time ∧ t.tset = s.tset) ∧
    (s.tset = true → t.tset = true)

/-- R26, R27, R38, R39: who writes the results: COMPUTE, the truncation step, ZEROIZE and reset, nothing else. -/
def Obligations.ResultsChangeOnlyByTheEngine : Prop :=
  ∀ (kh : KeyedHash) (s t : State) (turn : Turn) (rest : List Turn), s.schedule = turn :: rest → stepWith kh s = .next t →
    turn ≠ .reset → turn.transaction s.params ≠ some .compute → turn.transaction s.params ≠ some .zeroize →
    t.counter = s.counter ∧ t.err = s.err ∧ t.errcode = s.errcode ∧
    (turn ≠ .sequencer → t.code = s.code ∧ t.done = s.done)

/-- R28 to R33: who writes the hidden elements. -/
def Obligations.HiddenElementsChangeOnlyByTheirRules : Prop :=
  ∀ (kh : KeyedHash) (s t : State) (turn : Turn) (rest : List Turn), s.schedule = turn :: rest → stepWith kh s = .next t →
    Memory.wf s.key → turn ≠ .reset → turn.transaction s.params ≠ some .zeroize →
    (∀ a, Memory.read t.key a ≠ Memory.read s.key a → a = s.keyLen.toNat ∧
      ((∃ c, turn.transaction s.params = some (.b32push c)) ∨ (∃ b, turn.transaction s.params = some (.rawpush b)))) ∧
    ((∀ c, turn.transaction s.params ≠ some (.b32push c)) → turn.transaction s.params ≠ some .keyclr →
      t.acc = s.acc ∧ t.nbits = s.nbits ∧ t.derr = s.derr) ∧
    ((∀ c, turn.transaction s.params ≠ some (.b32push c)) → (∀ b, turn.transaction s.params ≠ some (.rawpush b)) →
      turn.transaction s.params ≠ some .keyclr → t.keyLen = s.keyLen ∧ t.kovf = s.kovf) ∧
    (turn.transaction s.params ≠ some .compute → t.msg = s.msg) ∧
    (turn ≠ .keyedHash → t.digest = s.digest)

/-- R250: a write is discarded for one of the four causes and no other; then `CMDERR <- 1` and nothing else changes; nothing else sets
`CMDERR`, and only ACK and reset clear it. -/
def Obligations.CmderrMarksDiscardedWrites : Prop :=
  ∀ (kh : KeyedHash) (s t : State) (turn : Turn) (rest : List Turn), s.schedule = turn :: rest → stepWith kh s = .next t →
    let discarded (i : Instr) : Prop := i.isWrite = true ∧
      (s.phase ≠ .idle ∨ i.idx.toNat ∈ [1, 3, 10, 11, 12, 13] ∨ i.idx.toNat ∈ [14, 15] ∨ ∃ d, i = .wrCmdIllegal d)
    (∀ i, turn.transaction s.params = some i → discarded i → t = { s with cmderr := true, schedule := rest }) ∧
    (s.cmderr = false → t.cmderr = true → ∃ i, turn.transaction s.params = some i ∧ discarded i) ∧
    (s.cmderr = true → t.cmderr = false → turn = .reset ∨ (turn.transaction s.params = some .ack ∧ s.phase = .idle))

/-- R240: only COMPUTE raises a compute error; it is one of the five, with its code and its condition, and nothing else is recorded. -/
def Obligations.OnlyComputeRaisesErrors : Prop :=
  ∀ (kh : KeyedHash) (s t : State) (turn : Turn) (rest : List Turn), s.schedule = turn :: rest → stepWith kh s = .next t →
    t.err = true → (s.err = false ∨ t.errcode ≠ s.errcode) →
    turn.transaction s.params = some .compute ∧
    t = { s with
      schedule := rest, done := false, code := 0#32, counter := 0#64, err := true, errcode := t.errcode } ∧
    ((t.errcode = 1#4 ∧ s.derr = true) ∨ (t.errcode = 2#4 ∧ s.interval = 0#64) ∨ (t.errcode = 3#4 ∧ s.tset = false) ∨
      (t.errcode = 4#4 ∧ s.kovf = true) ∨ (t.errcode = 5#4 ∧ s.time.toNat < s.epoch.toNat))

/-- No step changes the instance's parameters or takes back a reply, and every step uses up its turn, but for a poll of `WAIT` that
reads `BUSY` as 1: it holds the host (the model's own fields; logs 1, 2, 3, 10 and 15). -/
def Obligations.ParametersAndRepliesStay : Prop :=
  ∀ (kh : KeyedHash) (s t : State) (turn : Turn) (rest : List Turn), s.schedule = turn :: rest → stepWith kh s = .next t →
    t.params = s.params ∧
    (turn ≠ .wait ∨ s.phase = .idle → t.schedule = rest) ∧
    (turn = .wait → s.phase ≠ .idle → t.schedule = holdHost rest) ∧
    (t.replies = s.replies ∨
      ∃ i, turn.transaction s.params = some i ∧ i.isWrite = false ∧ t.replies = regRead i.idx s :: s.replies)

/-- R47, R69: no transaction reveals `KEY`, `ACC` or `DIGEST`. Two runs of the same turns from states that differ only there, in which
the sequencer does not move, give the host the same replies and end in states that differ only there: what the host learns of the
secret passes through the truncation step alone. -/
def Obligations.SecretsStayHidden : Prop :=
  ∀ (kh : KeyedHash) (n : Nat) (s t : State), s.publicPart = t.publicPart → (∀ turn ∈ s.schedule, turn ≠ .sequencer) →
    samePublicly (runWith kh n s) (runWith kh n t)

/-- R47: and through the truncation step passes the code alone. -/
def Obligations.TruncationRevealsTheCodeOnly : Prop :=
  ∀ (kh : KeyedHash) (s t s' t' : State) (rest : List Turn), s.publicPart = t.publicPart → s.schedule = .sequencer :: rest →
    stepWith kh s = .next s' → stepWith kh t = .next t' →
    { s' with code := t'.code }.publicPart = t'.publicPart

/-- R292: what lifts a wait: from `HASH`, the keyed-hash agent's step and then the truncation step, whatever the host writes or reads in
between, end in `IDLE` with `DONE`. The premise on `KEY_LEN` is R44 (a). -/
def Obligations.HashAndTruncationLiftTheWait : Prop :=
  ∀ (kh : KeyedHash) (s : State) (xs ys : List TxWord) (rest : List Turn), s.phase = .hash → s.keyLen ≤ s.params.keyMax →
    s.schedule = xs.map .host ++ .keyedHash :: ys.map .host ++ .sequencer :: rest →
    ∃ t, runWith kh (xs.length + ys.length + 2) s = .next t ∧ t.phase = .idle ∧ t.done = true ∧ t.schedule = rest ∧
      t.code.toNat = codeOfDigest (kh (requestKey s) (requestMessage s)) s.digits.toNat

/-- R256: the one hang: while the keyed-hash unit does not move and nobody resets, the block stays in `HASH` whatever else happens, and
every write is discarded. -/
def Obligations.DeadUnitHangsTheBlock : Prop :=
  ∀ (kh : KeyedHash) (n : Nat) (s t : State), s.phase = .hash → (∀ turn ∈ s.schedule, turn ≠ .keyedHash ∧ turn ≠ .reset) →
    runWith kh n s = .next t →
    t.phase = .hash ∧ { t with schedule := s.schedule, replies := s.replies, cmderr := s.cmderr } = s

/-! ## The assembler's `WAIT` -/

/-- R100, R292: a poll of `WAIT` is a `RD STATUS`. If the value read has bit 0 equal to 0, the `WAIT` is over. If not, the host has no
other step: the next turn that is not the host's goes first, then the poll again, and every other turn of the host stays behind it; with
nobody else to move the host polls again and again (R256). Which turn passes the held host is the model's choice (log 15). -/
def Obligations.WaitHoldsTheHost : Prop :=
  ∀ (kh : KeyedHash) (s : State) (rest : List Turn), s.schedule = .wait :: rest →
    (s.phase = .idle → (regRead 1#4 s).getLsbD 0 = false ∧
      stepWith kh s = .next { s with schedule := rest, replies := regRead 1#4 s :: s.replies }) ∧
    (s.phase ≠ .idle → (regRead 1#4 s).getLsbD 0 = true ∧
      (∀ pre a post, rest = pre ++ a :: post → (∀ x ∈ pre, x.isHost = true) → a.isHost = false →
        stepWith kh s = .next { s with
          schedule := a :: .wait :: (pre ++ post), replies := regRead 1#4 s :: s.replies }) ∧
      ((∀ x ∈ rest, x.isHost = true) →
        stepWith kh s = .next { s with schedule := .wait :: rest, replies := regRead 1#4 s :: s.replies }))

/-- R100, R292: a `WAIT` in `HASH` lasts exactly until the keyed-hash agent's step and then the truncation step have been made: the host
reads `BUSY` as 1 twice and then as 0 with `DONE`, and only then do the turns behind the `WAIT` come, in their order. The premise on
`KEY_LEN` is R44 (a); which turn passes the held host is log 15. -/
def Obligations.WaitEndsWithTheDerivation : Prop :=
  ∀ (kh : KeyedHash) (s : State) (hs₁ hs₂ rest : List Turn), s.phase = .hash → s.keyLen ≤ s.params.keyMax →
    (∀ x ∈ hs₁, x.isHost = true) → (∀ x ∈ hs₂, x.isHost = true) →
    s.schedule = .wait :: hs₁ ++ .keyedHash :: hs₂ ++ .sequencer :: rest →
    ∃ (t : State) (p q r : Word), runWith kh 5 s = .next t ∧ t.phase = .idle ∧ t.done = true ∧ t.schedule = hs₁ ++ hs₂ ++ rest ∧
      t.replies = r :: q :: p :: s.replies ∧ p.getLsbD 0 = true ∧ q.getLsbD 0 = true ∧ r.getLsbD 0 = false ∧
      r.getLsbD 1 = true ∧ t.code.toNat = codeOfDigest (kh (requestKey s) (requestMessage s)) s.digits.toNat

/-- R100, R149, R185: the pseudo-statement `TOTP "s", d, e, i, t` with its `WAIT`, from any idle state. The polls of the `WAIT` read bit 0
as 1 but for the last, which reads 0; then `RD STATUS` and `RD CODE` give KT's `computeTotp(s, d, e, i, t)`, or 0 and the error's code.
Where COMPUTE reports an error the two agents' turns pass (log 5); which turn passes the held host is log 15. -/
def Obligations.TotpWithItsWaitComputesTheCode : Prop :=
  ∀ (kh : KeyedHash) (s : State) (text : Text) (d : Word) (e i t : DWord) (rest : List Turn),
    s.phase = .idle → Memory.wf s.key →
    s.schedule = totpTurns text d e i t ++ .keyedHash :: .sequencer :: rest →
    ∃ (n : Nat) (u : State) (status code last : Word) (polls : List Word),
      n ≤ text.length + 16 ∧ runWith kh n s = .next u ∧ u.schedule = rest ∧ u.phase = .idle ∧
      ((∀ x ∈ rest, x.isHost = false) → u.final) ∧
      u.replies = code :: status :: last :: polls ++ s.replies ∧
      last.getLsbD 0 = false ∧ (∀ p ∈ polls, p.getLsbD 0 = true) ∧
      (∀ key, decodeText text = some key → key.length ≤ s.params.keyMax.toNat →
        (∀ c, totp kh key d.toNat e.toNat i.toNat t.toNat = .ok c →
          code.toNat = c ∧ status.extractLsb' 0 4 = 0b0010#4 ∧ status.extractLsb' 4 4 = 0#4) ∧
        (∀ x, totp kh key d.toNat e.toNat i.toNat t.toNat = .error x →
          code = 0#32 ∧ status.extractLsb' 0 4 = 0b0100#4 ∧ status.extractLsb' 4 4 = errorCode x)) ∧
      (∀ pre c post bits, text = pre ++ c :: post → textBits pre = some bits → alphabetValue c = none →
        5 * pre.length / 8 ≤ s.params.keyMax.toNat →
        code = 0#32 ∧ status.extractLsb' 0 4 = 0b0100#4 ∧ status.extractLsb' 4 4 = errorCode .invalidBase32) ∧
      (∀ pre post bits, text = pre ++ post → textBits pre = some bits → s.params.keyMax.toNat < 5 * pre.length / 8 →
        code = 0#32 ∧ status.extractLsb' 0 4 = 0b0100#4 ∧ status.extractLsb' 4 4 = errorCode .keyOverflow)
end

