-- ==== Sys2Proof/Laws/Encoding.lean ====
section
/-! SUPPORT. The fields of a transaction word, taken apart and put together. -/

namespace Sys2Proof

theorem getLsbD_txOf (we : Bool) (idx : BitVec 4) (d : Word) (i : Nat) :
    (txOf we idx d).getLsbD i =
      if i < 32 then d.getLsbD i else if i - 32 < 4 then idx.getLsbD (i - 32) else (BitVec.ofBool we).getLsbD (i - 32 - 4) := by
  show (BitVec.ofBool we ++ idx ++ d : BitVec (1 + 4 + 32)).getLsbD i = _
  rw [BitVec.getLsbD_append, BitVec.getLsbD_append]

@[simp] theorem txWe_txOf (we : Bool) (idx : BitVec 4) (d : Word) : txWe (txOf we idx d) = we := by
  unfold txWe
  rw [getLsbD_txOf]
  simp

@[simp] theorem txIdx_txOf (we : Bool) (idx : BitVec 4) (d : Word) : txIdx (txOf we idx d) = idx := by
  apply BitVec.eq_of_getLsbD_eq
  intro i hi
  unfold txIdx
  rw [BitVec.getLsbD_extractLsb', getLsbD_txOf]
  simp [hi]

@[simp] theorem txData_txOf (we : Bool) (idx : BitVec 4) (d : Word) : txData (txOf we idx d) = d := by
  apply BitVec.eq_of_getLsbD_eq
  intro i hi
  unfold txData
  rw [BitVec.getLsbD_extractLsb', getLsbD_txOf]
  simp [hi]

/-- A transaction word is its three fields. -/
theorem txOf_fields (w : TxWord) : txOf (txWe w) (txIdx w) (txData w) = w := by
  apply BitVec.eq_of_getLsbD_eq
  intro i hi
  rw [getLsbD_txOf]
  split
  · rename_i h
    unfold txData
    rw [BitVec.getLsbD_extractLsb']
    simp [h]
  · split
    · rename_i h1 h2
      unfold txIdx
      rw [BitVec.getLsbD_extractLsb']
      have : 32 + (i - 32) = i := by omega
      simp [h2, this]
    · have : i = 36 := by omega
      subst this
      simp [txWe]

/-- A word is determined by its three fields. -/
theorem tx_ext {v w : TxWord} (h1 : txWe v = txWe w) (h2 : txIdx v = txIdx w) (h3 : txData v = txData w) : v = w := by
  rw [← txOf_fields v, ← txOf_fields w, h1, h2, h3]

/-- The decoder, on a word given by its fields. -/
theorem decode_txOf (we : Bool) (idx : BitVec 4) (d : Word) :
    decode (txOf we idx d) = if we then decodeWrite idx d else decodeRead idx := by
  unfold decode
  simp

/-- The operand of a format C word is read back from it, and the word spells its command. -/
theorem decodeCommand_commandWordC (ch : Byte) :
    decodeCommand (commandWordC 0x02#8 ch) = .b32push ch ∧ decodeCommand (commandWordC 0x03#8 ch) = .rawpush ch := by
  revert ch
  decide

/-- A masked format C word is its operand and its opcode. -/
theorem commandWordC_of_mask {d : Word} {op : Byte} (h : d &&& 0xFFFF00FF#32 = op.setWidth 32) :
    commandWordC op (commandOperand d) = d := by
  apply BitVec.eq_of_getLsbD_eq
  intro i hi
  have hb := congrArg (fun w : Word => w.getLsbD i) h
  simp only [BitVec.getLsbD_and, BitVec.getLsbD_setWidth] at hb
  have hm : (0xFFFF00FF#32).getLsbD i = (decide (i < 8) || (decide (16 ≤ i) && decide (i < 32))) := by
    have : ∀ i : Fin 32, (0xFFFF00FF#32).getLsbD i = (decide (i.val < 8) || (decide (16 ≤ i.val) && decide (i.val < 32))) := by decide
    exact this ⟨i, hi⟩
  rw [hm] at hb
  have e : (commandWordC op (commandOperand d)).getLsbD i =
      if i < 8 then op.getLsbD i else if i - 8 < 8 then (commandOperand d).getLsbD (i - 8) else (0#16).getLsbD (i - 8 - 8) := by
    show (0#16 ++ commandOperand d ++ op : BitVec (16 + 8 + 8)).getLsbD i = _
    rw [BitVec.getLsbD_append, BitVec.getLsbD_append]
  rw [e]
  split
  · rename_i h8
    simpa [h8, hi] using hb.symm
  · split
    · rename_i h8 h16
      unfold commandOperand
      rw [BitVec.getLsbD_extractLsb']
      have : 8 + (i - 8) = i := by omega
      simp [h16, this]
    · rename_i h8 h16
      have h16' : 16 ≤ i := by omega
      have : op.getLsbD i = false := BitVec.getLsbD_of_ge _ _ (by omega)
      simpa [h8, h16', hi, this] using hb.symm

/-- What a command word decodes to, in the eight cases of R94 and R96. -/
theorem decodeCommand_cases (d : Word) :
    (d = 0#32 ∧ decodeCommand d = .nop) ∨ (d = 1#32 ∧ decodeCommand d = .keyclr) ∨
    (d &&& 0xFFFF00FF#32 = 2#32 ∧ decodeCommand d = .b32push (commandOperand d)) ∨
    (d &&& 0xFFFF00FF#32 = 3#32 ∧ decodeCommand d = .rawpush (commandOperand d)) ∨
    (d = 4#32 ∧ decodeCommand d = .compute) ∨ (d = 5#32 ∧ decodeCommand d = .zeroize) ∨
    (d = 6#32 ∧ decodeCommand d = .ack) ∨ (isCommandWord d = false ∧ decodeCommand d = .wrCmdIllegal d) := by
  have e : d &&& 0xFFFFFFFF#32 = d := by simpa using BitVec.and_allOnes (x := d)
  unfold decodeCommand isCommandWord commandRows CommandRow.spelledBy
  rw [e]
  split
  · simp_all
  · split
    · simp_all
    · split
      · simp_all
      · split
        · simp_all
        · split
          · simp_all
          · split
            · simp_all
            · split
              · simp_all
              · simp_all

/-- A command word's transaction is a write of word 0, is well formed and has that word as its data. -/
theorem decodeCommand_encodes (d : Word) :
    encodeData (decodeCommand d) = d ∧ (decodeCommand d).isWrite = true ∧ (decodeCommand d).idx = 0#4 ∧
      (decodeCommand d).wellFormed = true := by
  rcases decodeCommand_cases d with ⟨h, h2⟩ | ⟨h, h2⟩ | ⟨h, h2⟩ | ⟨h, h2⟩ | ⟨h, h2⟩ | ⟨h, h2⟩ | ⟨h, h2⟩ | ⟨h, h2⟩ <;> rw [h2] <;>
    first | (exact ⟨h.symm, rfl, rfl, rfl⟩) | skip
  · exact ⟨commandWordC_of_mask (op := 2#8) h, rfl, rfl, rfl⟩
  · exact ⟨commandWordC_of_mask (op := 3#8) h, rfl, rfl, rfl⟩
  · exact ⟨rfl, rfl, rfl, by simp [Instr.wellFormed, h]⟩

end Sys2Proof
end

