-- ==== Sys2Proof/Laws/Memory.lean ====
section
/-! SUPPORT. The laws of the key buffer: a read after a write, the canonical form, and that equal buffers are equal data. -/

namespace Sys2Proof.Machine

@[simp] theorem Memory.read_nil (a : Nat) : Memory.read [] a = 0#8 := rfl

theorem Memory.read_consCell (x : Nat) (b : Byte) (m : Memory) (a : Nat) (hm : a = x → Memory.read m a = 0#8) :
    Memory.read (Memory.consCell x b m) a = if a = x then b else Memory.read m a := by
  unfold Memory.consCell
  by_cases hb : b = 0#8
  · by_cases hx : a = x
    · rw [if_pos hb, if_pos hx, hm hx, hb]
    · rw [if_pos hb, if_neg hx]
  · simp [hb, Memory.read]

theorem Memory.read_of_lt {m : Memory} {a : Nat} (h : ∀ c ∈ m, a < c.1) : Memory.read m a = 0#8 := by
  induction m with
  | nil => rfl
  | cons c m ih =>
    have hc := h c (by simp)
    have : a ≠ c.1 := Nat.ne_of_lt hc
    simpa [Memory.read, this] using ih (fun d hd => h d (by simp [hd]))

theorem Memory.wf_tail {c : Host.Cell} {m : Memory} (h : Memory.wf (c :: m)) : Memory.wf m :=
  ⟨(List.pairwise_cons.mp h.1).2, fun d hd => h.2 d (by simp [hd])⟩

theorem Memory.wf_head_lt {c : Host.Cell} {m : Memory} (h : Memory.wf (c :: m)) : ∀ d ∈ m, c.1 < d.1 :=
  (List.pairwise_cons.mp h.1).1

/-- A read after a write: the byte written at its own index, the old byte elsewhere. -/
theorem Memory.read_write {m : Memory} (h : Memory.wf m) (x : Nat) (b : Byte) (a : Nat) :
    Memory.read (Memory.write m x b) a = if a = x then b else Memory.read m a := by
  induction m with
  | nil => exact Memory.read_consCell x b [] a (fun _ => rfl)
  | cons c m ih =>
    obtain ⟨y, d⟩ := c
    have hlt := Memory.wf_head_lt h
    unfold Memory.write
    split
    · rename_i hxy
      refine Memory.read_consCell x b _ a (fun hax => Memory.read_of_lt ?_)
      intro e he
      rcases List.mem_cons.mp he with rfl | he
      · exact hax ▸ hxy
      · exact lt_trans (hax ▸ hxy) (hlt e he)
    · split
      · rename_i hxy
        rw [Memory.read_consCell x b m a (fun hax => Memory.read_of_lt (fun e he => by
          have := hlt e he; simp only at this; omega))]
        by_cases hax : a = x
        · simp [hax]
        · have : a ≠ y := hxy ▸ hax
          simp [hax, Memory.read, this]
      · rename_i h1 h2
        by_cases hay : a = y
        · have : a ≠ x := fun e => h2 (e ▸ hay)
          simp [Memory.read, hay, hay ▸ this]
        · simpa [Memory.read, hay] using ih (Memory.wf_tail h)

/-- What a written buffer lists: the written cell, and cells that stood there. -/
theorem Memory.mem_write {m : Memory} {x : Nat} {b : Byte} {c : Host.Cell} (hc : c ∈ Memory.write m x b) :
    c = (x, b) ∨ c ∈ m := by
  induction m with
  | nil =>
    unfold Memory.write Memory.consCell at hc
    split at hc <;> simp_all
  | cons d m ih =>
    obtain ⟨y, e⟩ := d
    unfold Memory.write at hc
    split at hc
    · unfold Memory.consCell at hc
      split at hc <;> simp_all
    · split at hc
      · unfold Memory.consCell at hc
        split at hc
        · exact .inr (by simp [hc])
        · rcases List.mem_cons.mp hc with h | h
          · exact .inl h
          · exact .inr (by simp [h])
      · rcases List.mem_cons.mp hc with h | h
        · exact .inr (by simp [h])
        · rcases ih h with h | h
          · exact .inl h
          · exact .inr (by simp [h])

theorem Memory.wf_consCell {m : Memory} (h : Memory.wf m) {x : Nat} (b : Byte) (hx : ∀ c ∈ m, x < c.1) :
    Memory.wf (Memory.consCell x b m) := by
  unfold Memory.consCell
  split
  · exact h
  · rename_i hb
    refine ⟨List.pairwise_cons.mpr ⟨fun c hc => hx c hc, h.1⟩, ?_⟩
    intro c hc
    rcases List.mem_cons.mp hc with rfl | hc
    · exact hb
    · exact h.2 c hc

/-- A write keeps the canonical form. -/
theorem Memory.wf_write {m : Memory} (h : Memory.wf m) (x : Nat) (b : Byte) : Memory.wf (Memory.write m x b) := by
  induction m with
  | nil => exact Memory.wf_consCell h b (by simp)
  | cons c m ih =>
    obtain ⟨y, d⟩ := c
    have hlt := Memory.wf_head_lt h
    unfold Memory.write
    split
    · rename_i hxy
      refine Memory.wf_consCell h b ?_
      intro e he
      rcases List.mem_cons.mp he with rfl | he
      · exact hxy
      · exact lt_trans hxy (hlt e he)
    · split
      · rename_i hxy
        exact Memory.wf_consCell (Memory.wf_tail h) b (fun e he => hxy ▸ hlt e he)
      · rename_i h1 h2
        have ht := ih (Memory.wf_tail h)
        refine ⟨List.pairwise_cons.mpr ⟨?_, ht.1⟩, ?_⟩
        · intro e he
          rcases Memory.mem_write he with rfl | he
          · exact lt_of_le_of_ne (Nat.le_of_not_lt h1) (fun e => h2 e.symm)
          · exact hlt e he
        · intro e he
          rcases List.mem_cons.mp he with rfl | he
          · exact h.2 _ (by simp)
          · exact ht.2 e he

/-- The empty buffer is canonical. -/
theorem Memory.wf_nil : Memory.wf [] := ⟨List.Pairwise.nil, by simp⟩

/-- Two canonical buffers that read alike are the same data. -/
theorem Memory.ext_of_read {m n : Memory} (hm : Memory.wf m) (hn : Memory.wf n)
    (h : ∀ a, Memory.read m a = Memory.read n a) : m = n := by
  induction m generalizing n with
  | nil =>
    cases n with
    | nil => rfl
    | cons d n =>
      have := h d.1
      simp only [Memory.read] at this
      exact absurd this.symm (hn.2 d (by simp))
  | cons c m ih =>
    cases n with
    | nil =>
      have := h c.1
      simp only [Memory.read] at this
      exact absurd this (hm.2 c (by simp))
    | cons d n =>
      have hc0 : c.2 ≠ 0#8 := hm.2 c (by simp)
      have hd0 : d.2 ≠ 0#8 := hn.2 d (by simp)
      have hcm := Memory.wf_head_lt hm
      have hdn := Memory.wf_head_lt hn
      have hkey : c.1 = d.1 := by
        by_contra hne
        rcases Nat.lt_or_gt_of_ne hne with hlt | hlt
        · have e := h c.1
          rw [Memory.read_of_lt (m := d :: n) (fun e he => by
            rcases List.mem_cons.mp he with rfl | he
            · exact hlt
            · exact lt_trans hlt (hdn e he))] at e
          simp only [Memory.read] at e
          exact hc0 e
        · have e := h d.1
          rw [Memory.read_of_lt (m := c :: m) (fun e he => by
            rcases List.mem_cons.mp he with rfl | he
            · exact hlt
            · exact lt_trans hlt (hcm e he))] at e
          simp only [Memory.read] at e
          exact hd0 e.symm
      have hval : c.2 = d.2 := by
        have e := h c.1
        simpa [Memory.read, hkey] using e
      have hcd : c = d := Prod.ext hkey hval
      subst hcd
      congr 1
      refine ih (Memory.wf_tail hm) (Memory.wf_tail hn) (fun a => ?_)
      have e := h a
      by_cases ha : a = c.1
      · rw [Memory.read_of_lt (fun e he => ha ▸ hcm e he), Memory.read_of_lt (fun e he => ha ▸ hdn e he)]
      · simpa [Memory.read, ha] using e

@[simp] theorem Memory.length_firstBytes (m : Memory) (n : Nat) : (Memory.firstBytes m n).length = n := by
  simp [Memory.firstBytes]

theorem Memory.getElem_firstBytes (m : Memory) (n i : Nat) (h : i < (Memory.firstBytes m n).length) :
    (Memory.firstBytes m n)[i] = Memory.read m i := by
  simp [Memory.firstBytes]

@[simp] theorem Memory.firstBytes_zero (m : Memory) : Memory.firstBytes m 0 = [] := rfl

theorem Memory.firstBytes_succ (m : Memory) (n : Nat) :
    Memory.firstBytes m (n + 1) = Memory.firstBytes m n ++ [Memory.read m n] := by
  simp [Memory.firstBytes, List.range_succ]

/-- Appending a byte at index `n` appends it to the first `n` bytes. -/
theorem Memory.firstBytes_write {m : Memory} (h : Memory.wf m) (n : Nat) (b : Byte) :
    Memory.firstBytes (Memory.write m n b) (n + 1) = Memory.firstBytes m n ++ [b] := by
  rw [Memory.firstBytes_succ, Memory.read_write h, if_pos rfl]
  congr 1
  refine List.map_congr_left (fun a ha => ?_)
  rw [Memory.read_write h, if_neg (Nat.ne_of_lt (List.mem_range.mp ha))]

end Sys2Proof.Machine
end

