-- ==== Sys2Proof/Laws/Engine.lean ====
section
/-! SUPPORT. The decoder's, the engine's and the keyed-hash unit's small operations as arithmetic. -/

namespace Sys2Proof.Machine

/-- `(ACC << 5) | val(ch)` is a sum (R148). -/
theorem shiftedAcc_eq (s : State) (v : BitVec 5) : shiftedAcc s v = s.acc.toNat * 32 + v.toNat := by
  unfold shiftedAcc
  rw [← Nat.shiftLeft_add_eq_or_of_lt (i := 5) v.isLt, Nat.shiftLeft_eq]

/-- The counter is exact: nothing wraps (R174). -/
theorem counterOf_toNat (epoch interval time : DWord) :
    (counterOf epoch interval time).toNat = (time.toNat - epoch.toNat) / interval.toNat := by
  unfold counterOf
  rw [BitVec.toNat_ofNat]
  refine Nat.mod_eq_of_lt (lt_of_le_of_lt (Nat.div_le_self _ _) ?_)
  have := time.isLt
  omega

/-- The request's key has `KEY_LEN` bytes (R200). -/
@[simp] theorem requestKey_length (s : State) : (requestKey s).length = s.keyLen.toNat := by simp [requestKey]

/-- The prepared key is one block long, whatever the key (R210). -/
theorem hmacKey_length (key : List Byte) : (hmacKey key).length = hmacBlock := by
  simp only [hmacKey, List.length_append, List.length_replicate]
  have : (if hmacBlock < key.length then (sha1 key).toList else key).length ≤ hmacBlock := by
    split
    · simp [hmacBlock]
    · omega
  omega

end Sys2Proof.Machine
end

