-- ==== Sys2Proof/Laws/State.lean ====
section
/-! SUPPORT. One lemma per field and named update of the state, true by unfolding, so that later proofs open no record update. -/

namespace Sys2Proof.Machine

@[simp] theorem reply_params (v : Word) (s : State) : (reply v s).params = s.params := rfl
@[simp] theorem reply_digits (v : Word) (s : State) : (reply v s).digits = s.digits := rfl
@[simp] theorem reply_epoch (v : Word) (s : State) : (reply v s).epoch = s.epoch := rfl
@[simp] theorem reply_interval (v : Word) (s : State) : (reply v s).interval = s.interval := rfl
@[simp] theorem reply_time (v : Word) (s : State) : (reply v s).time = s.time := rfl
@[simp] theorem reply_tset (v : Word) (s : State) : (reply v s).tset = s.tset := rfl
@[simp] theorem reply_counter (v : Word) (s : State) : (reply v s).counter = s.counter := rfl
@[simp] theorem reply_code (v : Word) (s : State) : (reply v s).code = s.code := rfl
@[simp] theorem reply_key (v : Word) (s : State) : (reply v s).key = s.key := rfl
@[simp] theorem reply_keyLen (v : Word) (s : State) : (reply v s).keyLen = s.keyLen := rfl
@[simp] theorem reply_acc (v : Word) (s : State) : (reply v s).acc = s.acc := rfl
@[simp] theorem reply_nbits (v : Word) (s : State) : (reply v s).nbits = s.nbits := rfl
@[simp] theorem reply_msg (v : Word) (s : State) : (reply v s).msg = s.msg := rfl
@[simp] theorem reply_digest (v : Word) (s : State) : (reply v s).digest = s.digest := rfl
@[simp] theorem reply_phase (v : Word) (s : State) : (reply v s).phase = s.phase := rfl
@[simp] theorem reply_done (v : Word) (s : State) : (reply v s).done = s.done := rfl
@[simp] theorem reply_err (v : Word) (s : State) : (reply v s).err = s.err := rfl
@[simp] theorem reply_errcode (v : Word) (s : State) : (reply v s).errcode = s.errcode := rfl
@[simp] theorem reply_derr (v : Word) (s : State) : (reply v s).derr = s.derr := rfl
@[simp] theorem reply_kovf (v : Word) (s : State) : (reply v s).kovf = s.kovf := rfl
@[simp] theorem reply_cmderr (v : Word) (s : State) : (reply v s).cmderr = s.cmderr := rfl
@[simp] theorem reply_schedule (v : Word) (s : State) : (reply v s).schedule = s.schedule := rfl
@[simp] theorem reply_replies (v : Word) (s : State) : (reply v s).replies = v :: s.replies := rfl

@[simp] theorem discard_params (s : State) : (discard s).params = s.params := rfl
@[simp] theorem discard_digits (s : State) : (discard s).digits = s.digits := rfl
@[simp] theorem discard_epoch (s : State) : (discard s).epoch = s.epoch := rfl
@[simp] theorem discard_interval (s : State) : (discard s).interval = s.interval := rfl
@[simp] theorem discard_time (s : State) : (discard s).time = s.time := rfl
@[simp] theorem discard_tset (s : State) : (discard s).tset = s.tset := rfl
@[simp] theorem discard_counter (s : State) : (discard s).counter = s.counter := rfl
@[simp] theorem discard_code (s : State) : (discard s).code = s.code := rfl
@[simp] theorem discard_key (s : State) : (discard s).key = s.key := rfl
@[simp] theorem discard_keyLen (s : State) : (discard s).keyLen = s.keyLen := rfl
@[simp] theorem discard_acc (s : State) : (discard s).acc = s.acc := rfl
@[simp] theorem discard_nbits (s : State) : (discard s).nbits = s.nbits := rfl
@[simp] theorem discard_msg (s : State) : (discard s).msg = s.msg := rfl
@[simp] theorem discard_digest (s : State) : (discard s).digest = s.digest := rfl
@[simp] theorem discard_phase (s : State) : (discard s).phase = s.phase := rfl
@[simp] theorem discard_done (s : State) : (discard s).done = s.done := rfl
@[simp] theorem discard_err (s : State) : (discard s).err = s.err := rfl
@[simp] theorem discard_errcode (s : State) : (discard s).errcode = s.errcode := rfl
@[simp] theorem discard_derr (s : State) : (discard s).derr = s.derr := rfl
@[simp] theorem discard_kovf (s : State) : (discard s).kovf = s.kovf := rfl
@[simp] theorem discard_cmderr (s : State) : (discard s).cmderr = true := rfl
@[simp] theorem discard_schedule (s : State) : (discard s).schedule = s.schedule := rfl
@[simp] theorem discard_replies (s : State) : (discard s).replies = s.replies := rfl

@[simp] theorem clearResult_params (s : State) : (clearResult s).params = s.params := rfl
@[simp] theorem clearResult_digits (s : State) : (clearResult s).digits = s.digits := rfl
@[simp] theorem clearResult_epoch (s : State) : (clearResult s).epoch = s.epoch := rfl
@[simp] theorem clearResult_interval (s : State) : (clearResult s).interval = s.interval := rfl
@[simp] theorem clearResult_time (s : State) : (clearResult s).time = s.time := rfl
@[simp] theorem clearResult_tset (s : State) : (clearResult s).tset = s.tset := rfl
@[simp] theorem clearResult_counter (s : State) : (clearResult s).counter = 0#64 := rfl
@[simp] theorem clearResult_code (s : State) : (clearResult s).code = 0#32 := rfl
@[simp] theorem clearResult_key (s : State) : (clearResult s).key = s.key := rfl
@[simp] theorem clearResult_keyLen (s : State) : (clearResult s).keyLen = s.keyLen := rfl
@[simp] theorem clearResult_acc (s : State) : (clearResult s).acc = s.acc := rfl
@[simp] theorem clearResult_nbits (s : State) : (clearResult s).nbits = s.nbits := rfl
@[simp] theorem clearResult_msg (s : State) : (clearResult s).msg = s.msg := rfl
@[simp] theorem clearResult_digest (s : State) : (clearResult s).digest = s.digest := rfl
@[simp] theorem clearResult_phase (s : State) : (clearResult s).phase = s.phase := rfl
@[simp] theorem clearResult_done (s : State) : (clearResult s).done = false := rfl
@[simp] theorem clearResult_err (s : State) : (clearResult s).err = false := rfl
@[simp] theorem clearResult_errcode (s : State) : (clearResult s).errcode = 0#4 := rfl
@[simp] theorem clearResult_derr (s : State) : (clearResult s).derr = s.derr := rfl
@[simp] theorem clearResult_kovf (s : State) : (clearResult s).kovf = s.kovf := rfl
@[simp] theorem clearResult_cmderr (s : State) : (clearResult s).cmderr = s.cmderr := rfl
@[simp] theorem clearResult_schedule (s : State) : (clearResult s).schedule = s.schedule := rfl
@[simp] theorem clearResult_replies (s : State) : (clearResult s).replies = s.replies := rfl

@[simp] theorem raiseError_params (e : ComputeError) (s : State) : (raiseError e s).params = s.params := rfl
@[simp] theorem raiseError_digits (e : ComputeError) (s : State) : (raiseError e s).digits = s.digits := rfl
@[simp] theorem raiseError_epoch (e : ComputeError) (s : State) : (raiseError e s).epoch = s.epoch := rfl
@[simp] theorem raiseError_interval (e : ComputeError) (s : State) : (raiseError e s).interval = s.interval := rfl
@[simp] theorem raiseError_time (e : ComputeError) (s : State) : (raiseError e s).time = s.time := rfl
@[simp] theorem raiseError_tset (e : ComputeError) (s : State) : (raiseError e s).tset = s.tset := rfl
@[simp] theorem raiseError_counter (e : ComputeError) (s : State) : (raiseError e s).counter = s.counter := rfl
@[simp] theorem raiseError_code (e : ComputeError) (s : State) : (raiseError e s).code = s.code := rfl
@[simp] theorem raiseError_key (e : ComputeError) (s : State) : (raiseError e s).key = s.key := rfl
@[simp] theorem raiseError_keyLen (e : ComputeError) (s : State) : (raiseError e s).keyLen = s.keyLen := rfl
@[simp] theorem raiseError_acc (e : ComputeError) (s : State) : (raiseError e s).acc = s.acc := rfl
@[simp] theorem raiseError_nbits (e : ComputeError) (s : State) : (raiseError e s).nbits = s.nbits := rfl
@[simp] theorem raiseError_msg (e : ComputeError) (s : State) : (raiseError e s).msg = s.msg := rfl
@[simp] theorem raiseError_digest (e : ComputeError) (s : State) : (raiseError e s).digest = s.digest := rfl
@[simp] theorem raiseError_phase (e : ComputeError) (s : State) : (raiseError e s).phase = s.phase := rfl
@[simp] theorem raiseError_done (e : ComputeError) (s : State) : (raiseError e s).done = s.done := rfl
@[simp] theorem raiseError_err (e : ComputeError) (s : State) : (raiseError e s).err = true := rfl
@[simp] theorem raiseError_errcode (e : ComputeError) (s : State) : (raiseError e s).errcode = errorCode e := rfl
@[simp] theorem raiseError_derr (e : ComputeError) (s : State) : (raiseError e s).derr = s.derr := rfl
@[simp] theorem raiseError_kovf (e : ComputeError) (s : State) : (raiseError e s).kovf = s.kovf := rfl
@[simp] theorem raiseError_cmderr (e : ComputeError) (s : State) : (raiseError e s).cmderr = s.cmderr := rfl
@[simp] theorem raiseError_schedule (e : ComputeError) (s : State) : (raiseError e s).schedule = s.schedule := rfl
@[simp] theorem raiseError_replies (e : ComputeError) (s : State) : (raiseError e s).replies = s.replies := rfl

@[simp] theorem storeKeyByte_params (b : Byte) (s : State) : (storeKeyByte b s).params = s.params := rfl
@[simp] theorem storeKeyByte_digits (b : Byte) (s : State) : (storeKeyByte b s).digits = s.digits := rfl
@[simp] theorem storeKeyByte_epoch (b : Byte) (s : State) : (storeKeyByte b s).epoch = s.epoch := rfl
@[simp] theorem storeKeyByte_interval (b : Byte) (s : State) : (storeKeyByte b s).interval = s.interval := rfl
@[simp] theorem storeKeyByte_time (b : Byte) (s : State) : (storeKeyByte b s).time = s.time := rfl
@[simp] theorem storeKeyByte_tset (b : Byte) (s : State) : (storeKeyByte b s).tset = s.tset := rfl
@[simp] theorem storeKeyByte_counter (b : Byte) (s : State) : (storeKeyByte b s).counter = s.counter := rfl
@[simp] theorem storeKeyByte_code (b : Byte) (s : State) : (storeKeyByte b s).code = s.code := rfl
@[simp] theorem storeKeyByte_key (b : Byte) (s : State) : (storeKeyByte b s).key = Memory.write s.key s.keyLen.toNat b := rfl
@[simp] theorem storeKeyByte_keyLen (b : Byte) (s : State) : (storeKeyByte b s).keyLen = s.keyLen + 1#16 := rfl
@[simp] theorem storeKeyByte_acc (b : Byte) (s : State) : (storeKeyByte b s).acc = s.acc := rfl
@[simp] theorem storeKeyByte_nbits (b : Byte) (s : State) : (storeKeyByte b s).nbits = s.nbits := rfl
@[simp] theorem storeKeyByte_msg (b : Byte) (s : State) : (storeKeyByte b s).msg = s.msg := rfl
@[simp] theorem storeKeyByte_digest (b : Byte) (s : State) : (storeKeyByte b s).digest = s.digest := rfl
@[simp] theorem storeKeyByte_phase (b : Byte) (s : State) : (storeKeyByte b s).phase = s.phase := rfl
@[simp] theorem storeKeyByte_done (b : Byte) (s : State) : (storeKeyByte b s).done = s.done := rfl
@[simp] theorem storeKeyByte_err (b : Byte) (s : State) : (storeKeyByte b s).err = s.err := rfl
@[simp] theorem storeKeyByte_errcode (b : Byte) (s : State) : (storeKeyByte b s).errcode = s.errcode := rfl
@[simp] theorem storeKeyByte_derr (b : Byte) (s : State) : (storeKeyByte b s).derr = s.derr := rfl
@[simp] theorem storeKeyByte_kovf (b : Byte) (s : State) : (storeKeyByte b s).kovf = s.kovf := rfl
@[simp] theorem storeKeyByte_cmderr (b : Byte) (s : State) : (storeKeyByte b s).cmderr = s.cmderr := rfl
@[simp] theorem storeKeyByte_schedule (b : Byte) (s : State) : (storeKeyByte b s).schedule = s.schedule := rfl
@[simp] theorem storeKeyByte_replies (b : Byte) (s : State) : (storeKeyByte b s).replies = s.replies := rfl

@[simp] theorem startSession_params (s : State) : (startSession s).params = s.params := rfl
@[simp] theorem startSession_digits (s : State) : (startSession s).digits = s.digits := rfl
@[simp] theorem startSession_epoch (s : State) : (startSession s).epoch = s.epoch := rfl
@[simp] theorem startSession_interval (s : State) : (startSession s).interval = s.interval := rfl
@[simp] theorem startSession_time (s : State) : (startSession s).time = s.time := rfl
@[simp] theorem startSession_tset (s : State) : (startSession s).tset = s.tset := rfl
@[simp] theorem startSession_counter (s : State) : (startSession s).counter = s.counter := rfl
@[simp] theorem startSession_code (s : State) : (startSession s).code = s.code := rfl
@[simp] theorem startSession_key (s : State) : (startSession s).key = s.key := rfl
@[simp] theorem startSession_keyLen (s : State) : (startSession s).keyLen = 0#16 := rfl
@[simp] theorem startSession_acc (s : State) : (startSession s).acc = 0#7 := rfl
@[simp] theorem startSession_nbits (s : State) : (startSession s).nbits = 0#3 := rfl
@[simp] theorem startSession_msg (s : State) : (startSession s).msg = s.msg := rfl
@[simp] theorem startSession_digest (s : State) : (startSession s).digest = s.digest := rfl
@[simp] theorem startSession_phase (s : State) : (startSession s).phase = s.phase := rfl
@[simp] theorem startSession_done (s : State) : (startSession s).done = s.done := rfl
@[simp] theorem startSession_err (s : State) : (startSession s).err = s.err := rfl
@[simp] theorem startSession_errcode (s : State) : (startSession s).errcode = s.errcode := rfl
@[simp] theorem startSession_derr (s : State) : (startSession s).derr = false := rfl
@[simp] theorem startSession_kovf (s : State) : (startSession s).kovf = false := rfl
@[simp] theorem startSession_cmderr (s : State) : (startSession s).cmderr = s.cmderr := rfl
@[simp] theorem startSession_schedule (s : State) : (startSession s).schedule = s.schedule := rfl
@[simp] theorem startSession_replies (s : State) : (startSession s).replies = s.replies := rfl

@[simp] theorem absorbBits_params (v : BitVec 5) (s : State) : (absorbBits v s).params = s.params := rfl
@[simp] theorem absorbBits_digits (v : BitVec 5) (s : State) : (absorbBits v s).digits = s.digits := rfl
@[simp] theorem absorbBits_epoch (v : BitVec 5) (s : State) : (absorbBits v s).epoch = s.epoch := rfl
@[simp] theorem absorbBits_interval (v : BitVec 5) (s : State) : (absorbBits v s).interval = s.interval := rfl
@[simp] theorem absorbBits_time (v : BitVec 5) (s : State) : (absorbBits v s).time = s.time := rfl
@[simp] theorem absorbBits_tset (v : BitVec 5) (s : State) : (absorbBits v s).tset = s.tset := rfl
@[simp] theorem absorbBits_counter (v : BitVec 5) (s : State) : (absorbBits v s).counter = s.counter := rfl
@[simp] theorem absorbBits_code (v : BitVec 5) (s : State) : (absorbBits v s).code = s.code := rfl
@[simp] theorem absorbBits_key (v : BitVec 5) (s : State) : (absorbBits v s).key = s.key := rfl
@[simp] theorem absorbBits_keyLen (v : BitVec 5) (s : State) : (absorbBits v s).keyLen = s.keyLen := rfl
@[simp] theorem absorbBits_acc (v : BitVec 5) (s : State) : (absorbBits v s).acc = BitVec.ofNat 7 (shiftedAcc s v) := rfl
@[simp] theorem absorbBits_nbits (v : BitVec 5) (s : State) : (absorbBits v s).nbits = BitVec.ofNat 3 (bitsAfterPush s) := rfl
@[simp] theorem absorbBits_msg (v : BitVec 5) (s : State) : (absorbBits v s).msg = s.msg := rfl
@[simp] theorem absorbBits_digest (v : BitVec 5) (s : State) : (absorbBits v s).digest = s.digest := rfl
@[simp] theorem absorbBits_phase (v : BitVec 5) (s : State) : (absorbBits v s).phase = s.phase := rfl
@[simp] theorem absorbBits_done (v : BitVec 5) (s : State) : (absorbBits v s).done = s.done := rfl
@[simp] theorem absorbBits_err (v : BitVec 5) (s : State) : (absorbBits v s).err = s.err := rfl
@[simp] theorem absorbBits_errcode (v : BitVec 5) (s : State) : (absorbBits v s).errcode = s.errcode := rfl
@[simp] theorem absorbBits_derr (v : BitVec 5) (s : State) : (absorbBits v s).derr = s.derr := rfl
@[simp] theorem absorbBits_kovf (v : BitVec 5) (s : State) : (absorbBits v s).kovf = s.kovf := rfl
@[simp] theorem absorbBits_cmderr (v : BitVec 5) (s : State) : (absorbBits v s).cmderr = s.cmderr := rfl
@[simp] theorem absorbBits_schedule (v : BitVec 5) (s : State) : (absorbBits v s).schedule = s.schedule := rfl
@[simp] theorem absorbBits_replies (v : BitVec 5) (s : State) : (absorbBits v s).replies = s.replies := rfl

@[simp] theorem emitByte_params (v : BitVec 5) (s : State) : (emitByte v s).params = s.params := rfl
@[simp] theorem emitByte_digits (v : BitVec 5) (s : State) : (emitByte v s).digits = s.digits := rfl
@[simp] theorem emitByte_epoch (v : BitVec 5) (s : State) : (emitByte v s).epoch = s.epoch := rfl
@[simp] theorem emitByte_interval (v : BitVec 5) (s : State) : (emitByte v s).interval = s.interval := rfl
@[simp] theorem emitByte_time (v : BitVec 5) (s : State) : (emitByte v s).time = s.time := rfl
@[simp] theorem emitByte_tset (v : BitVec 5) (s : State) : (emitByte v s).tset = s.tset := rfl
@[simp] theorem emitByte_counter (v : BitVec 5) (s : State) : (emitByte v s).counter = s.counter := rfl
@[simp] theorem emitByte_code (v : BitVec 5) (s : State) : (emitByte v s).code = s.code := rfl
@[simp] theorem emitByte_key (v : BitVec 5) (s : State) : (emitByte v s).key = Memory.write s.key s.keyLen.toNat (BitVec.ofNat 8 ((shiftedAcc s v >>> (bitsAfterPush s - 8)) &&& 0xFF)) := rfl
@[simp] theorem emitByte_keyLen (v : BitVec 5) (s : State) : (emitByte v s).keyLen = s.keyLen + 1#16 := rfl
@[simp] theorem emitByte_acc (v : BitVec 5) (s : State) : (emitByte v s).acc = BitVec.ofNat 7 (shiftedAcc s v &&& ((1 <<< (bitsAfterPush s - 8)) - 1)) := rfl
@[simp] theorem emitByte_nbits (v : BitVec 5) (s : State) : (emitByte v s).nbits = BitVec.ofNat 3 (bitsAfterPush s - 8) := rfl
@[simp] theorem emitByte_msg (v : BitVec 5) (s : State) : (emitByte v s).msg = s.msg := rfl
@[simp] theorem emitByte_digest (v : BitVec 5) (s : State) : (emitByte v s).digest = s.digest := rfl
@[simp] theorem emitByte_phase (v : BitVec 5) (s : State) : (emitByte v s).phase = s.phase := rfl
@[simp] theorem emitByte_done (v : BitVec 5) (s : State) : (emitByte v s).done = s.done := rfl
@[simp] theorem emitByte_err (v : BitVec 5) (s : State) : (emitByte v s).err = s.err := rfl
@[simp] theorem emitByte_errcode (v : BitVec 5) (s : State) : (emitByte v s).errcode = s.errcode := rfl
@[simp] theorem emitByte_derr (v : BitVec 5) (s : State) : (emitByte v s).derr = s.derr := rfl
@[simp] theorem emitByte_kovf (v : BitVec 5) (s : State) : (emitByte v s).kovf = s.kovf := rfl
@[simp] theorem emitByte_cmderr (v : BitVec 5) (s : State) : (emitByte v s).cmderr = s.cmderr := rfl
@[simp] theorem emitByte_schedule (v : BitVec 5) (s : State) : (emitByte v s).schedule = s.schedule := rfl
@[simp] theorem emitByte_replies (v : BitVec 5) (s : State) : (emitByte v s).replies = s.replies := rfl

@[simp] theorem startDerivation_params (s : State) : (startDerivation s).params = s.params := rfl
@[simp] theorem startDerivation_digits (s : State) : (startDerivation s).digits = s.digits := rfl
@[simp] theorem startDerivation_epoch (s : State) : (startDerivation s).epoch = s.epoch := rfl
@[simp] theorem startDerivation_interval (s : State) : (startDerivation s).interval = s.interval := rfl
@[simp] theorem startDerivation_time (s : State) : (startDerivation s).time = s.time := rfl
@[simp] theorem startDerivation_tset (s : State) : (startDerivation s).tset = s.tset := rfl
@[simp] theorem startDerivation_counter (s : State) : (startDerivation s).counter = counterOf s.epoch s.interval s.time := rfl
@[simp] theorem startDerivation_code (s : State) : (startDerivation s).code = s.code := rfl
@[simp] theorem startDerivation_key (s : State) : (startDerivation s).key = s.key := rfl
@[simp] theorem startDerivation_keyLen (s : State) : (startDerivation s).keyLen = s.keyLen := rfl
@[simp] theorem startDerivation_acc (s : State) : (startDerivation s).acc = s.acc := rfl
@[simp] theorem startDerivation_nbits (s : State) : (startDerivation s).nbits = s.nbits := rfl
@[simp] theorem startDerivation_msg (s : State) : (startDerivation s).msg = be64 (counterOf s.epoch s.interval s.time) := rfl
@[simp] theorem startDerivation_digest (s : State) : (startDerivation s).digest = s.digest := rfl
@[simp] theorem startDerivation_phase (s : State) : (startDerivation s).phase = .hash := rfl
@[simp] theorem startDerivation_done (s : State) : (startDerivation s).done = s.done := rfl
@[simp] theorem startDerivation_err (s : State) : (startDerivation s).err = s.err := rfl
@[simp] theorem startDerivation_errcode (s : State) : (startDerivation s).errcode = s.errcode := rfl
@[simp] theorem startDerivation_derr (s : State) : (startDerivation s).derr = s.derr := rfl
@[simp] theorem startDerivation_kovf (s : State) : (startDerivation s).kovf = s.kovf := rfl
@[simp] theorem startDerivation_cmderr (s : State) : (startDerivation s).cmderr = s.cmderr := rfl
@[simp] theorem startDerivation_schedule (s : State) : (startDerivation s).schedule = s.schedule := rfl
@[simp] theorem startDerivation_replies (s : State) : (startDerivation s).replies = s.replies := rfl

@[simp] theorem truncateDigest_params (s : State) : (truncateDigest s).params = s.params := rfl
@[simp] theorem truncateDigest_digits (s : State) : (truncateDigest s).digits = s.digits := rfl
@[simp] theorem truncateDigest_epoch (s : State) : (truncateDigest s).epoch = s.epoch := rfl
@[simp] theorem truncateDigest_interval (s : State) : (truncateDigest s).interval = s.interval := rfl
@[simp] theorem truncateDigest_time (s : State) : (truncateDigest s).time = s.time := rfl
@[simp] theorem truncateDigest_tset (s : State) : (truncateDigest s).tset = s.tset := rfl
@[simp] theorem truncateDigest_counter (s : State) : (truncateDigest s).counter = s.counter := rfl
@[simp] theorem truncateDigest_code (s : State) : (truncateDigest s).code = reduceCode (truncatedValue s.digest) s.digits := rfl
@[simp] theorem truncateDigest_key (s : State) : (truncateDigest s).key = s.key := rfl
@[simp] theorem truncateDigest_keyLen (s : State) : (truncateDigest s).keyLen = s.keyLen := rfl
@[simp] theorem truncateDigest_acc (s : State) : (truncateDigest s).acc = s.acc := rfl
@[simp] theorem truncateDigest_nbits (s : State) : (truncateDigest s).nbits = s.nbits := rfl
@[simp] theorem truncateDigest_msg (s : State) : (truncateDigest s).msg = s.msg := rfl
@[simp] theorem truncateDigest_digest (s : State) : (truncateDigest s).digest = s.digest := rfl
@[simp] theorem truncateDigest_phase (s : State) : (truncateDigest s).phase = .idle := rfl
@[simp] theorem truncateDigest_done (s : State) : (truncateDigest s).done = true := rfl
@[simp] theorem truncateDigest_err (s : State) : (truncateDigest s).err = s.err := rfl
@[simp] theorem truncateDigest_errcode (s : State) : (truncateDigest s).errcode = s.errcode := rfl
@[simp] theorem truncateDigest_derr (s : State) : (truncateDigest s).derr = s.derr := rfl
@[simp] theorem truncateDigest_kovf (s : State) : (truncateDigest s).kovf = s.kovf := rfl
@[simp] theorem truncateDigest_cmderr (s : State) : (truncateDigest s).cmderr = s.cmderr := rfl
@[simp] theorem truncateDigest_schedule (s : State) : (truncateDigest s).schedule = s.schedule := rfl
@[simp] theorem truncateDigest_replies (s : State) : (truncateDigest s).replies = s.replies := rfl

@[simp] theorem answerRequest_params (kh : KeyedHash) (s : State) : (answerRequest kh s).params = s.params := rfl
@[simp] theorem answerRequest_digits (kh : KeyedHash) (s : State) : (answerRequest kh s).digits = s.digits := rfl
@[simp] theorem answerRequest_epoch (kh : KeyedHash) (s : State) : (answerRequest kh s).epoch = s.epoch := rfl
@[simp] theorem answerRequest_interval (kh : KeyedHash) (s : State) : (answerRequest kh s).interval = s.interval := rfl
@[simp] theorem answerRequest_time (kh : KeyedHash) (s : State) : (answerRequest kh s).time = s.time := rfl
@[simp] theorem answerRequest_tset (kh : KeyedHash) (s : State) : (answerRequest kh s).tset = s.tset := rfl
@[simp] theorem answerRequest_counter (kh : KeyedHash) (s : State) : (answerRequest kh s).counter = s.counter := rfl
@[simp] theorem answerRequest_code (kh : KeyedHash) (s : State) : (answerRequest kh s).code = s.code := rfl
@[simp] theorem answerRequest_key (kh : KeyedHash) (s : State) : (answerRequest kh s).key = s.key := rfl
@[simp] theorem answerRequest_keyLen (kh : KeyedHash) (s : State) : (answerRequest kh s).keyLen = s.keyLen := rfl
@[simp] theorem answerRequest_acc (kh : KeyedHash) (s : State) : (answerRequest kh s).acc = s.acc := rfl
@[simp] theorem answerRequest_nbits (kh : KeyedHash) (s : State) : (answerRequest kh s).nbits = s.nbits := rfl
@[simp] theorem answerRequest_msg (kh : KeyedHash) (s : State) : (answerRequest kh s).msg = s.msg := rfl
@[simp] theorem answerRequest_digest (kh : KeyedHash) (s : State) : (answerRequest kh s).digest = kh (requestKey s) (requestMessage s) := rfl
@[simp] theorem answerRequest_phase (kh : KeyedHash) (s : State) : (answerRequest kh s).phase = .trunc := rfl
@[simp] theorem answerRequest_done (kh : KeyedHash) (s : State) : (answerRequest kh s).done = s.done := rfl
@[simp] theorem answerRequest_err (kh : KeyedHash) (s : State) : (answerRequest kh s).err = s.err := rfl
@[simp] theorem answerRequest_errcode (kh : KeyedHash) (s : State) : (answerRequest kh s).errcode = s.errcode := rfl
@[simp] theorem answerRequest_derr (kh : KeyedHash) (s : State) : (answerRequest kh s).derr = s.derr := rfl
@[simp] theorem answerRequest_kovf (kh : KeyedHash) (s : State) : (answerRequest kh s).kovf = s.kovf := rfl
@[simp] theorem answerRequest_cmderr (kh : KeyedHash) (s : State) : (answerRequest kh s).cmderr = s.cmderr := rfl
@[simp] theorem answerRequest_schedule (kh : KeyedHash) (s : State) : (answerRequest kh s).schedule = s.schedule := rfl
@[simp] theorem answerRequest_replies (kh : KeyedHash) (s : State) : (answerRequest kh s).replies = s.replies := rfl

@[simp] theorem eraseSecret_params (s : State) : (eraseSecret s).params = s.params := rfl
@[simp] theorem eraseSecret_digits (s : State) : (eraseSecret s).digits = s.digits := rfl
@[simp] theorem eraseSecret_epoch (s : State) : (eraseSecret s).epoch = s.epoch := rfl
@[simp] theorem eraseSecret_interval (s : State) : (eraseSecret s).interval = s.interval := rfl
@[simp] theorem eraseSecret_time (s : State) : (eraseSecret s).time = s.time := rfl
@[simp] theorem eraseSecret_tset (s : State) : (eraseSecret s).tset = s.tset := rfl
@[simp] theorem eraseSecret_counter (s : State) : (eraseSecret s).counter = 0#64 := rfl
@[simp] theorem eraseSecret_code (s : State) : (eraseSecret s).code = 0#32 := rfl
@[simp] theorem eraseSecret_key (s : State) : (eraseSecret s).key = [] := rfl
@[simp] theorem eraseSecret_keyLen (s : State) : (eraseSecret s).keyLen = 0#16 := rfl
@[simp] theorem eraseSecret_acc (s : State) : (eraseSecret s).acc = 0#7 := rfl
@[simp] theorem eraseSecret_nbits (s : State) : (eraseSecret s).nbits = 0#3 := rfl
@[simp] theorem eraseSecret_msg (s : State) : (eraseSecret s).msg = Vector.replicate 8 0#8 := rfl
@[simp] theorem eraseSecret_digest (s : State) : (eraseSecret s).digest = Vector.replicate 20 0#8 := rfl
@[simp] theorem eraseSecret_phase (s : State) : (eraseSecret s).phase = s.phase := rfl
@[simp] theorem eraseSecret_done (s : State) : (eraseSecret s).done = false := rfl
@[simp] theorem eraseSecret_err (s : State) : (eraseSecret s).err = false := rfl
@[simp] theorem eraseSecret_errcode (s : State) : (eraseSecret s).errcode = 0#4 := rfl
@[simp] theorem eraseSecret_derr (s : State) : (eraseSecret s).derr = false := rfl
@[simp] theorem eraseSecret_kovf (s : State) : (eraseSecret s).kovf = false := rfl
@[simp] theorem eraseSecret_cmderr (s : State) : (eraseSecret s).cmderr = s.cmderr := rfl
@[simp] theorem eraseSecret_schedule (s : State) : (eraseSecret s).schedule = s.schedule := rfl
@[simp] theorem eraseSecret_replies (s : State) : (eraseSecret s).replies = s.replies := rfl

@[simp] theorem publicPart_params (s : State) : (s.publicPart).params = s.params := rfl
@[simp] theorem publicPart_digits (s : State) : (s.publicPart).digits = s.digits := rfl
@[simp] theorem publicPart_epoch (s : State) : (s.publicPart).epoch = s.epoch := rfl
@[simp] theorem publicPart_interval (s : State) : (s.publicPart).interval = s.interval := rfl
@[simp] theorem publicPart_time (s : State) : (s.publicPart).time = s.time := rfl
@[simp] theorem publicPart_tset (s : State) : (s.publicPart).tset = s.tset := rfl
@[simp] theorem publicPart_counter (s : State) : (s.publicPart).counter = s.counter := rfl
@[simp] theorem publicPart_code (s : State) : (s.publicPart).code = s.code := rfl
@[simp] theorem publicPart_key (s : State) : (s.publicPart).key = [] := rfl
@[simp] theorem publicPart_keyLen (s : State) : (s.publicPart).keyLen = s.keyLen := rfl
@[simp] theorem publicPart_acc (s : State) : (s.publicPart).acc = 0#7 := rfl
@[simp] theorem publicPart_nbits (s : State) : (s.publicPart).nbits = s.nbits := rfl
@[simp] theorem publicPart_msg (s : State) : (s.publicPart).msg = s.msg := rfl
@[simp] theorem publicPart_digest (s : State) : (s.publicPart).digest = Vector.replicate 20 0#8 := rfl
@[simp] theorem publicPart_phase (s : State) : (s.publicPart).phase = s.phase := rfl
@[simp] theorem publicPart_done (s : State) : (s.publicPart).done = s.done := rfl
@[simp] theorem publicPart_err (s : State) : (s.publicPart).err = s.err := rfl
@[simp] theorem publicPart_errcode (s : State) : (s.publicPart).errcode = s.errcode := rfl
@[simp] theorem publicPart_derr (s : State) : (s.publicPart).derr = s.derr := rfl
@[simp] theorem publicPart_kovf (s : State) : (s.publicPart).kovf = s.kovf := rfl
@[simp] theorem publicPart_cmderr (s : State) : (s.publicPart).cmderr = s.cmderr := rfl
@[simp] theorem publicPart_schedule (s : State) : (s.publicPart).schedule = s.schedule := rfl
@[simp] theorem publicPart_replies (s : State) : (s.publicPart).replies = s.replies := rfl

end Sys2Proof.Machine
end

