-- ==== Sys2Proof/Laws/Ops.lean ====
section
/-! SUPPORT. One lemma per shared operation: what the guards of a write can answer. -/

namespace Sys2Proof.Machine

@[simp] theorem whenIdle_idle {effect : State → Result} {s : State} (h : s.phase = .idle) : whenIdle effect s = effect s := by
  simp [whenIdle, h]

@[simp] theorem whenIdle_busy {effect : State → Result} {s : State} (h : s.phase ≠ .idle) :
    whenIdle effect s = .next (discard s) := by
  unfold whenIdle
  split
  · contradiction
  all_goals rfl

theorem whenIdle_next {effect : State → Result} {s t : State} (h : whenIdle effect s = .next t) :
    (s.phase ≠ .idle ∧ t = discard s) ∨ (s.phase = .idle ∧ effect s = .next t) := by
  by_cases hp : s.phase = .idle
  · exact .inr ⟨hp, by rwa [whenIdle_idle hp] at h⟩
  · rw [whenIdle_busy hp] at h
    exact .inl ⟨hp, by simpa using h.symm⟩

theorem whenSessionClean_failed {effect : State → Result} {s : State} (h : s.derr = true ∨ s.kovf = true) :
    whenSessionClean effect s = .next s := by
  simp [whenSessionClean, h]

theorem whenSessionClean_clean {effect : State → Result} {s : State} (hd : s.derr = false) (hk : s.kovf = false) :
    whenSessionClean effect s = effect s := by
  simp [whenSessionClean, hd, hk]

theorem whenSessionClean_next {effect : State → Result} {s t : State} (h : whenSessionClean effect s = .next t) :
    t = s ∨ (s.derr = false ∧ s.kovf = false ∧ effect s = .next t) := by
  by_cases hf : s.derr = true ∨ s.kovf = true
  · rw [whenSessionClean_failed hf] at h
    exact .inl (by simpa using h.symm)
  · have hd : s.derr = false := by simpa using fun e => hf (.inl e)
    have hk : s.kovf = false := by simpa using fun e => hf (.inr e)
    exact .inr ⟨hd, hk, by rwa [whenSessionClean_clean hd hk] at h⟩

theorem whenKeyRoom_full {effect : State → Result} {s : State} (h : s.keyLen = s.params.keyMax) :
    whenKeyRoom effect s = .next { s with kovf := true } := by
  simp [whenKeyRoom, h]

theorem whenKeyRoom_room {effect : State → Result} {s : State} (h : s.keyLen < s.params.keyMax) :
    whenKeyRoom effect s = effect s := by
  have h1 : s.keyLen ≠ s.params.keyMax := fun e => absurd h (by simp [e])
  have h2 : ¬ s.params.keyMax < s.keyLen := BitVec.not_lt.mpr (BitVec.le_of_lt h)
  simp [whenKeyRoom, h1, h2]

theorem whenKeyRoom_absent {effect : State → Result} {s : State} (h : s.params.keyMax < s.keyLen) :
    whenKeyRoom effect s = .fault .keyIndexAbsent := by
  have h1 : s.keyLen ≠ s.params.keyMax := fun e => absurd h (by simp [e])
  simp [whenKeyRoom, h1, h]

theorem whenKeyRoom_next {effect : State → Result} {s t : State} (h : whenKeyRoom effect s = .next t) :
    t = { s with kovf := true } ∨ (s.keyLen < s.params.keyMax ∧ effect s = .next t) := by
  unfold whenKeyRoom at h
  split at h
  · exact .inl (by simpa using h.symm)
  · split at h
    · simp at h
    · rename_i h1 h2
      exact .inr ⟨BitVec.lt_of_le_ne (BitVec.not_lt.mp h2) h1, h⟩

/-- `KEY_LEN + 1` does not wrap while there is room. -/
theorem keyLen_succ_toNat {s : State} (h : s.keyLen < s.params.keyMax) : (s.keyLen + 1#16).toNat = s.keyLen.toNat + 1 := by
  have h1 : s.keyLen.toNat < s.params.keyMax.toNat := h
  have h2 := s.params.keyMax.isLt
  simp only [BitVec.toNat_add, BitVec.toNat_ofNat]
  omega

end Sys2Proof.Machine
end

