-- ==== Sys2Proof/Laws/PerInstr.lean ====
section
/-! SUPPORT. One lemma per constructor of `Instr`: the fields of its transaction word (R90, R99). -/

namespace Sys2Proof.Laws.EncodedFields

/-- The word of a transaction has its write bit, its index and its data in their places. -/
def Statement (i : Instr) : Prop :=
  txWe (encode i) = i.isWrite ∧ txIdx (encode i) = i.idx ∧ txData (encode i) = encodeData i

/-- The fields are where the encoder puts them, whichever the transaction is. -/
theorem of_encode (i : Instr) : Statement i := ⟨txWe_txOf _ _ _, txIdx_txOf _ _ _, txData_txOf _ _ _⟩

theorem rdCmd : Statement .rdCmd := of_encode _
theorem rdStatus : Statement .rdStatus := of_encode _
theorem rdDigits : Statement .rdDigits := of_encode _
theorem rdKeyLen : Statement .rdKeyLen := of_encode _
theorem rdEpochLo : Statement .rdEpochLo := of_encode _
theorem rdEpochHi : Statement .rdEpochHi := of_encode _
theorem rdIntervalLo : Statement .rdIntervalLo := of_encode _
theorem rdIntervalHi : Statement .rdIntervalHi := of_encode _
theorem rdTimeLo : Statement .rdTimeLo := of_encode _
theorem rdTimeHi : Statement .rdTimeHi := of_encode _
theorem rdCounterLo : Statement .rdCounterLo := of_encode _
theorem rdCounterHi : Statement .rdCounterHi := of_encode _
theorem rdCode : Statement .rdCode := of_encode _
theorem rdConfig : Statement .rdConfig := of_encode _
theorem rdW14 : Statement .rdW14 := of_encode _
theorem rdW15 : Statement .rdW15 := of_encode _
theorem wrStatus (v : Word) : Statement (.wrStatus v) := of_encode _
theorem wrDigits (v : Word) : Statement (.wrDigits v) := of_encode _
theorem wrKeyLen (v : Word) : Statement (.wrKeyLen v) := of_encode _
theorem wrEpochLo (v : Word) : Statement (.wrEpochLo v) := of_encode _
theorem wrEpochHi (v : Word) : Statement (.wrEpochHi v) := of_encode _
theorem wrIntervalLo (v : Word) : Statement (.wrIntervalLo v) := of_encode _
theorem wrIntervalHi (v : Word) : Statement (.wrIntervalHi v) := of_encode _
theorem wrTimeLo (v : Word) : Statement (.wrTimeLo v) := of_encode _
theorem wrTimeHi (v : Word) : Statement (.wrTimeHi v) := of_encode _
theorem wrCounterLo (v : Word) : Statement (.wrCounterLo v) := of_encode _
theorem wrCounterHi (v : Word) : Statement (.wrCounterHi v) := of_encode _
theorem wrCode (v : Word) : Statement (.wrCode v) := of_encode _
theorem wrConfig (v : Word) : Statement (.wrConfig v) := of_encode _
theorem wrW14 (v : Word) : Statement (.wrW14 v) := of_encode _
theorem wrW15 (v : Word) : Statement (.wrW15 v) := of_encode _
theorem nop : Statement .nop := of_encode _
theorem keyclr : Statement .keyclr := of_encode _
theorem b32push (ch : Byte) : Statement (.b32push ch) := of_encode _
theorem rawpush (b : Byte) : Statement (.rawpush b) := of_encode _
theorem compute : Statement .compute := of_encode _
theorem zeroize : Statement .zeroize := of_encode _
theorem ack : Statement .ack := of_encode _
theorem wrCmdIllegal (v : Word) : Statement (.wrCmdIllegal v) := of_encode _

end Sys2Proof.Laws.EncodedFields
end

