-- ==== Sys2Proof/Laws/Wait.lean ====
section
/-! SUPPORT. What a `WAIT` does to the turns to come, said once. -/

namespace Sys2Proof.Machine

/-- A host with nobody to wait for polls for ever (R256). -/
theorem holdHost_of_hostTurns {rest : List Turn} (h : ∀ x ∈ rest, x.isHost = true) : holdHost rest = .wait :: rest := by
  have : rest.find? (fun t => !t.isHost) = none := List.find?_eq_none.mpr (by simpa using h)
  simp [holdHost, this]

/-- The next turn that is not the host's passes the held host. -/
theorem holdHost_append {pre post : List Turn} {a : Turn} (hpre : ∀ x ∈ pre, x.isHost = true) (ha : a.isHost = false) :
    holdHost (pre ++ a :: post) = a :: .wait :: (pre ++ post) := by
  have hf : pre.find? (fun t => !t.isHost) = none := List.find?_eq_none.mpr (by simpa using hpre)
  have he : (pre ++ a :: post).eraseP (fun t => !t.isHost) = pre ++ post := by
    rw [List.eraseP_append_right _ (by simpa using hpre), List.eraseP_cons_of_pos (by simp [ha])]
  simp [holdHost, List.find?_append, hf, ha, he]

/-- A held host brings no turn in but its own poll. -/
theorem mem_of_mem_holdHost {rest : List Turn} {x : Turn} (h : x ∈ holdHost rest) : x = .wait ∨ x ∈ rest := by
  unfold holdHost at h
  split at h
  · simpa using h
  · rename_i a ha
    rcases List.mem_cons.mp h with rfl | h
    · exact .inr (List.mem_of_find?_eq_some ha)
    · rcases List.mem_cons.mp h with rfl | h
      · exact .inl rfl
      · exact .inr (List.mem_of_mem_eraseP h)

/-- Only a poll of `WAIT` puts a turn back. -/
theorem scheduleAfter_of_ne_wait {s : State} {turn : Turn} {rest : List Turn} (h : turn ≠ .wait) :
    scheduleAfter s turn rest = rest := by
  cases turn <;> first | rfl | exact absurd rfl h

/-- Bit 0 of `STATUS` is `BUSY` (R35). -/
theorem statusWord_busy (s : State) : (statusWord s).getLsbD 0 = busy s := by simp [statusWord, flagWord]

/-- A poll that reads `BUSY` as 0 ends the `WAIT`. -/
theorem scheduleAfter_wait_idle {s : State} (rest : List Turn) (h : busy s = false) : scheduleAfter s .wait rest = rest := by
  have : waitEnds (statusWord s) = true := by rw [waitEnds, statusWord_busy, h]; rfl
  simp [scheduleAfter, regRead, this]

/-- A poll that reads `BUSY` as 1 holds the host. -/
theorem scheduleAfter_wait_busy {s : State} (rest : List Turn) (h : busy s = true) :
    scheduleAfter s .wait rest = holdHost rest := by
  have : waitEnds (statusWord s) = false := by rw [waitEnds, statusWord_busy, h]; rfl
  simp [scheduleAfter, regRead, this]

end Sys2Proof.Machine
end

