-- ==== Sys2Proof/Laws/Step.lean ====
section
/-! SUPPORT. What a step can do, said once: `Effect` lists the next states of a host transaction, and `stepWith_next` the next states
of a turn. -/

namespace Sys2Proof.Machine

/-- The next states of a push in a clean session with a valid character or a raw byte. -/
inductive PushEffect (s : State) : State → Prop where
  /-- The buffer is full and a byte is due. -/
  | full : PushEffect s { s with kovf := true }
  /-- The bits complete no byte. -/
  | absorb (v : BitVec 5) : bitsAfterPush s < 8 → PushEffect s (absorbBits v s)
  /-- The bits complete a byte and there is room. -/
  | emit (v : BitVec 5) : 8 ≤ bitsAfterPush s → s.keyLen < s.params.keyMax → PushEffect s (emitByte v s)

/-- The next states of a host transaction. -/
inductive Effect (s : State) : Instr → State → Prop where
  /-- A read. -/
  | read (i : Instr) : i.isWrite = false → Effect s i (reply (regRead i.idx s) s)
  /-- A write while busy. -/
  | busy (i : Instr) : i.isWrite = true → s.phase ≠ .idle → Effect s i (discard s)
  /-- A write of a read-only or reserved word. -/
  | illegalWrite (i : Instr) : i.isWrite = true → s.phase = .idle → i.idx.toNat ∈ [1, 3, 10, 11, 12, 13, 14, 15] →
      Effect s i (discard s)
  /-- An illegal command word. -/
  | illegalCommand (d : Word) : s.phase = .idle → Effect s (.wrCmdIllegal d) (discard s)
  /-- `WR DIGITS`. -/
  | digits (v : Word) : s.phase = .idle → Effect s (.wrDigits v) { s with digits := v }
  /-- `WR EPOCH_LO`. -/
  | epochLo (v : Word) : s.phase = .idle → Effect s (.wrEpochLo v) { s with epoch := withLoWord s.epoch v }
  /-- `WR EPOCH_HI`. -/
  | epochHi (v : Word) : s.phase = .idle → Effect s (.wrEpochHi v) { s with epoch := withHiWord s.epoch v }
  /-- `WR INTERVAL_LO`. -/
  | intervalLo (v : Word) : s.phase = .idle → Effect s (.wrIntervalLo v) { s with interval := withLoWord s.interval v }
  /-- `WR INTERVAL_HI`. -/
  | intervalHi (v : Word) : s.phase = .idle → Effect s (.wrIntervalHi v) { s with interval := withHiWord s.interval v }
  /-- `WR TIME_LO`. -/
  | timeLo (v : Word) : s.phase = .idle → Effect s (.wrTimeLo v) { s with time := withLoWord s.time v, tset := true }
  /-- `WR TIME_HI`. -/
  | timeHi (v : Word) : s.phase = .idle → Effect s (.wrTimeHi v) { s with time := withHiWord s.time v, tset := true }
  /-- `NOP`. -/
  | nop : s.phase = .idle → Effect s .nop s
  /-- `KEYCLR`. -/
  | keyclr : s.phase = .idle → Effect s .keyclr (startSession s)
  /-- A push in a failed session. -/
  | pushIgnored (i : Instr) : s.phase = .idle → (∃ c, i = .b32push c) ∨ (∃ b, i = .rawpush b) → Effect s i s
  /-- A push of an invalid character. -/
  | pushInvalid (c : Byte) : s.phase = .idle → s.derr = false → s.kovf = false → alphabetValue c = none →
      Effect s (.b32push c) { s with derr := true }
  /-- A push of a valid character. -/
  | pushValid (c : Byte) (t : State) : s.phase = .idle → s.derr = false → s.kovf = false → PushEffect s t →
      Effect s (.b32push c) t
  /-- A raw push into a full buffer. -/
  | rawFull (b : Byte) : s.phase = .idle → s.derr = false → s.kovf = false → Effect s (.rawpush b) { s with kovf := true }
  /-- A raw push. -/
  | rawStore (b : Byte) : s.phase = .idle → s.derr = false → s.kovf = false → s.keyLen < s.params.keyMax →
      Effect s (.rawpush b) (storeKeyByte b s)
  /-- A COMPUTE that reports an error. -/
  | computeError (e : ComputeError) : s.phase = .idle → computeError s = some e →
      Effect s .compute (raiseError e (clearResult s))
  /-- A COMPUTE that places a request. -/
  | computeStart : s.phase = .idle → Machine.computeError s = none → Effect s .compute (startDerivation (clearResult s))
  /-- `ZEROIZE`. -/
  | zeroize : s.phase = .idle → Effect s .zeroize (eraseSecret s)
  /-- `ACK`. -/
  | ack : s.phase = .idle → Effect s .ack { s with cmderr := false }

/-- The answers of a push of a valid character. -/
theorem pushBits_next {v : BitVec 5} {s t : State} (h : pushBits v s = .next t) : PushEffect s t := by
  unfold pushBits at h
  split at h
  · rename_i hn
    simp only [Host.Outcome.next.injEq] at h
    exact h ▸ .absorb v hn
  · rename_i hn
    rcases whenKeyRoom_next h with h | ⟨hr, h⟩
    · exact h ▸ .full
    · simp only [Host.Outcome.next.injEq] at h
      exact h ▸ .emit v (Nat.le_of_not_lt hn) hr

theorem execB32push_next {c : Byte} {s t : State} (h : execB32push c s = .next t) : Effect s (.b32push c) t := by
  rcases whenIdle_next h with ⟨hp, rfl⟩ | ⟨hp, h⟩
  · exact .busy _ rfl hp
  · rcases whenSessionClean_next h with rfl | ⟨hd, hk, h⟩
    · exact .pushIgnored _ hp (.inl ⟨c, rfl⟩)
    · unfold pushCharacter at h
      split at h
      · rename_i hv
        simp only [Host.Outcome.next.injEq] at h
        exact h ▸ .pushInvalid c hp hd hk hv
      · exact .pushValid c t hp hd hk (pushBits_next h)

theorem execRawpush_next {b : Byte} {s t : State} (h : execRawpush b s = .next t) : Effect s (.rawpush b) t := by
  rcases whenIdle_next h with ⟨hp, rfl⟩ | ⟨hp, h⟩
  · exact .busy _ rfl hp
  · rcases whenSessionClean_next h with rfl | ⟨hd, hk, h⟩
    · exact .pushIgnored _ hp (.inr ⟨b, rfl⟩)
    · rcases whenKeyRoom_next h with rfl | ⟨hr, h⟩
      · exact .rawFull b hp hd hk
      · simp only [Host.Outcome.next.injEq] at h
        exact h ▸ .rawStore b hp hd hk hr

theorem execCompute_next {s t : State} (h : execCompute s = .next t) : Effect s .compute t := by
  rcases whenIdle_next h with ⟨hp, rfl⟩ | ⟨hp, h⟩
  · exact .busy _ rfl hp
  · simp only [Host.Outcome.next.injEq] at h
    subst h
    unfold acceptCompute
    split
    · rename_i e he
      exact .computeError e hp he
    · rename_i he
      exact .computeStart hp he

/-- What a host transaction can do: if it answers a next state, `Effect` lists it. -/
theorem exec_next {i : Instr} {s t : State} (h : exec i s = .next t) : Effect s i t := by
  have write : ∀ (f : State → State) (j : Instr), j.isWrite = true → exec j s = whenIdle (fun s => .next (f s)) s →
      exec j s = .next t → (s.phase = .idle → Effect s j (f s)) → Effect s j t := by
    intro f j hj hw hn hi
    rcases whenIdle_next (hw ▸ hn) with ⟨hp, rfl⟩ | ⟨hp, he⟩
    · exact .busy j hj hp
    · exact Host.Outcome.next.inj he ▸ hi hp
  cases i
  case rdCmd | rdStatus | rdDigits | rdKeyLen | rdEpochLo | rdEpochHi | rdIntervalLo | rdIntervalHi | rdTimeLo | rdTimeHi
      | rdCounterLo | rdCounterHi | rdCode | rdConfig | rdW14 | rdW15 =>
    have e := Host.Outcome.next.inj h
    subst e
    exact Effect.read _ rfl
  case wrStatus v | wrKeyLen v | wrCounterLo v | wrCounterHi v | wrCode v | wrConfig v | wrW14 v | wrW15 v =>
    refine write discard _ rfl rfl h (fun hp => .illegalWrite _ rfl hp ?_)
    simp only [Instr.idx]
    decide
  case wrDigits v => exact write (fun s => { s with digits := v }) _ rfl rfl h (.digits v)
  case wrEpochLo v => exact write (fun s => { s with epoch := withLoWord s.epoch v }) _ rfl rfl h (.epochLo v)
  case wrEpochHi v => exact write (fun s => { s with epoch := withHiWord s.epoch v }) _ rfl rfl h (.epochHi v)
  case wrIntervalLo v => exact write (fun s => { s with interval := withLoWord s.interval v }) _ rfl rfl h (.intervalLo v)
  case wrIntervalHi v => exact write (fun s => { s with interval := withHiWord s.interval v }) _ rfl rfl h (.intervalHi v)
  case wrTimeLo v => exact write (fun s => { s with time := withLoWord s.time v, tset := true }) _ rfl rfl h (.timeLo v)
  case wrTimeHi v => exact write (fun s => { s with time := withHiWord s.time v, tset := true }) _ rfl rfl h (.timeHi v)
  case nop => exact write id _ rfl rfl h .nop
  case keyclr => exact write startSession _ rfl rfl h .keyclr
  case b32push c => exact execB32push_next h
  case rawpush b => exact execRawpush_next h
  case compute => exact execCompute_next h
  case zeroize => exact write eraseSecret _ rfl rfl h .zeroize
  case ack => exact write (fun s => { s with cmderr := false }) _ rfl rfl h .ack
  case wrCmdIllegal d => exact write discard _ rfl rfl h (.illegalCommand d)

/-- Every write checks the phase first (R121). -/
theorem exec_write {i : Instr} (h : i.isWrite = true) : ∃ effect : State → Result, ∀ s, exec i s = whenIdle effect s := by
  cases i <;> first | (exact absurd h Bool.false_ne_true) | exact ⟨_, fun s => by simp only [exec]; rfl⟩

/-- A turn that carries a transaction is that transaction, in the state that lists what comes after the turn. -/
theorem stepWith_transaction {kh : KeyedHash} {s : State} {turn : Turn} {rest : List Turn} {i : Instr}
    (hs : s.schedule = turn :: rest) (ht : turn.transaction s.params = some i) :
    stepWith kh s = exec i { s with schedule := scheduleAfter s turn rest } := by
  unfold stepWith
  rw [hs]
  cases turn with
  | host tx => exact congrArg (fun j => exec j _) (Option.some.inj ht)
  | bus a =>
    cases hb : bridge s.params a with
    | ok tx =>
      simp only [Turn.transaction, hb, Option.some.injEq] at ht
      simp only [takeTurn, hb, ht]
    | error r => simp [Turn.transaction, hb] at ht
  | wait => exact congrArg (fun j => exec j _) (Option.some.inj ht)
  | keyedHash | sequencer | reset => simp [Turn.transaction] at ht

/-- What a turn can do: if the step answers a next state, the turn carried a transaction with that effect, or one of the block's
agents or reset moved. -/
theorem stepWith_next {kh : KeyedHash} {s t : State} {turn : Turn} {rest : List Turn} (hs : s.schedule = turn :: rest)
    (h : stepWith kh s = .next t) :
    (∃ i, turn.transaction s.params = some i ∧ Effect { s with schedule := scheduleAfter s turn rest } i t) ∨
    (turn = .keyedHash ∧ s.phase = .hash ∧ s.keyLen ≤ s.params.keyMax ∧ t = answerRequest kh { s with schedule := rest }) ∨
    (turn = .keyedHash ∧ s.phase ≠ .hash ∧ t = { s with schedule := rest }) ∨
    (turn = .sequencer ∧ s.phase = .trunc ∧ t = truncateDigest { s with schedule := rest }) ∨
    (turn = .sequencer ∧ s.phase ≠ .trunc ∧ t = { s with schedule := rest }) ∨
    (turn = .reset ∧ t = { State.reset with params := s.params, schedule := rest, replies := s.replies }) := by
  cases hi : turn.transaction s.params with
  | some i => exact .inl ⟨i, rfl, exec_next (stepWith_transaction hs hi ▸ h)⟩
  | none =>
    refine .inr ?_
    unfold stepWith at h
    rw [hs] at h
    cases turn with
    | host tx => simp [Turn.transaction] at hi
    | bus a =>
      simp only [Turn.transaction] at hi
      simp only [takeTurn] at h
      split at hi
      · simp at hi
      · rename_i r hb
        simp [hb] at h
    | wait => simp [Turn.transaction] at hi
    | keyedHash =>
      simp only [takeTurn, keyedHashTurn] at h
      split at h
      · rename_i hp
        split at h
        · simp at h
        · rename_i hk
          exact .inl ⟨rfl, hp, BitVec.not_lt.mp hk, (Host.Outcome.next.inj h).symm⟩
      all_goals
        rename_i hp
        exact .inr (.inl ⟨rfl, by simp_all, (Host.Outcome.next.inj h).symm⟩)
    | sequencer =>
      simp only [takeTurn, sequencerTurn] at h
      split at h
      · rename_i hp
        exact .inr (.inr (.inl ⟨rfl, hp, (Host.Outcome.next.inj h).symm⟩))
      all_goals
        rename_i hp
        exact .inr (.inr (.inr (.inl ⟨rfl, by simp_all, (Host.Outcome.next.inj h).symm⟩)))
    | reset => exact .inr (.inr (.inr (.inr ⟨rfl, (Host.Outcome.next.inj h).symm⟩)))

theorem stepWith_nil {kh : KeyedHash} {s : State} (h : s.schedule = []) : stepWith kh s = .next s := by
  simp [stepWith, h]

@[simp] theorem runWith_zero (kh : KeyedHash) (s : State) : runWith kh 0 s = .next s := rfl

/-- One step, then the others. -/
theorem runWith_succ {kh : KeyedHash} {n : Nat} {s t : State} (h : stepWith kh s = .next t) :
    runWith kh (n + 1) s = runWith kh n t := by
  simp [runWith, h]

/-- A run cut in two. -/
theorem runWith_add {kh : KeyedHash} {m n : Nat} {s t : State} (h : runWith kh m s = .next t) :
    runWith kh (m + n) s = runWith kh n t := by
  induction m generalizing s with
  | zero => simp only [runWith_zero, Host.Outcome.next.injEq] at h; simp [h]
  | succ m ih =>
    cases hu : stepWith kh s with
    | next u =>
      rw [runWith_succ hu] at h
      rw [Nat.add_right_comm, runWith_succ hu]
      exact ih h
    | fault r => simp [runWith, hu] at h
    | refused r => simp [runWith, hu] at h

/-- A run from a schedule whose first turn is a host transaction. -/
theorem stepWith_host {kh : KeyedHash} {s : State} {tx : TxWord} {rest : List Turn} (h : s.schedule = .host tx :: rest) :
    stepWith kh s = exec (decode tx) { s with schedule := rest } := by
  simp [stepWith, h, takeTurn, scheduleAfter]

end Sys2Proof.Machine
end

