-- ==== Sys2Proof/Laws/Words.lean ====
section
/-! SUPPORT. The bit-field helpers as arithmetic: halves of a 64-bit register, the message bytes, the truncation window. -/

namespace Sys2Proof.Machine

theorem loWord_toNat (v : DWord) : (loWord v).toNat = v.toNat % 2 ^ 32 := by simp [loWord]

theorem hiWord_toNat (v : DWord) : (hiWord v).toNat = v.toNat / 2 ^ 32 := by
  have := v.isLt
  simp only [hiWord, BitVec.extractLsb'_toNat, Nat.shiftRight_eq_div_pow]
  omega

/-- The new low half joins the old high half. -/
theorem withLoWord_eq_append (r : DWord) (v : Word) : withLoWord r v = hiWord r ++ v := by
  apply BitVec.eq_of_getLsbD_eq
  intro i hi
  simp only [withLoWord, hiWord, BitVec.getLsbD_or, BitVec.getLsbD_and, BitVec.getLsbD_setWidth, BitVec.getLsbD_append,
    BitVec.getLsbD_extractLsb']
  have hm : (0xFFFFFFFF00000000#64).getLsbD i = (decide (32 ≤ i) && decide (i < 64)) := by
    have : ∀ i : Fin 64, (0xFFFFFFFF00000000#64).getLsbD i = (decide (32 ≤ i.val) && decide (i.val < 64)) := by decide
    exact this ⟨i, hi⟩
  rw [hm]
  by_cases h : i < 32
  · simp [h, Nat.not_le.mpr h, hi]
  · have h' : 32 ≤ i := Nat.le_of_not_lt h
    have e : 32 + (i - 32) = i := by omega
    have e2 : i - 32 < 32 := by omega
    simp [h, h', hi, e, e2]

/-- The new high half joins the old low half. -/
theorem withHiWord_eq_append (r : DWord) (v : Word) : withHiWord r v = v ++ loWord r := by
  apply BitVec.eq_of_getLsbD_eq
  intro i hi
  simp only [withHiWord, loWord, BitVec.getLsbD_or, BitVec.getLsbD_and, BitVec.getLsbD_setWidth, BitVec.getLsbD_append,
    BitVec.getLsbD_extractLsb', BitVec.getLsbD_shiftLeft]
  have hm : (0xFFFFFFFF#64).getLsbD i = decide (i < 32) := by
    have : ∀ i : Fin 64, (0xFFFFFFFF#64).getLsbD i = decide (i.val < 32) := by decide
    exact this ⟨i, hi⟩
  rw [hm]
  by_cases h : i < 32
  · simp [h]
  · have e2 : i - 32 < 64 := by omega
    simp [h, hi, e2]

theorem append_toNat (a b : Word) : (a ++ b : DWord).toNat = a.toNat * 2 ^ 32 + b.toNat := by
  have := b.isLt
  rw [BitVec.toNat_append, Nat.shiftLeft_eq, Nat.mul_comm, ← Nat.two_pow_add_eq_or_of_lt this]

theorem hiWord_append (a b : Word) : hiWord (a ++ b) = a := by
  apply BitVec.eq_of_toNat_eq
  have := b.isLt
  rw [hiWord_toNat, append_toNat]
  omega

theorem loWord_append (a b : Word) : loWord (a ++ b) = b := by
  apply BitVec.eq_of_toNat_eq
  have := b.isLt
  rw [loWord_toNat, append_toNat]
  omega

/-- A 64-bit register is its two halves. -/
theorem hiWord_append_loWord (v : DWord) : hiWord v ++ loWord v = v := by
  apply BitVec.eq_of_toNat_eq
  rw [append_toNat, loWord_toNat, hiWord_toNat]
  omega

theorem withLoWord_toNat (r : DWord) (v : Word) : (withLoWord r v).toNat = r.toNat / 2 ^ 32 * 2 ^ 32 + v.toNat := by
  rw [withLoWord_eq_append, append_toNat, hiWord_toNat]

theorem withHiWord_toNat (r : DWord) (v : Word) : (withHiWord r v).toNat = v.toNat * 2 ^ 32 + r.toNat % 2 ^ 32 := by
  rw [withHiWord_eq_append, append_toNat, loWord_toNat]

theorem be64Byte_toNat (c : DWord) (i : Nat) : (be64Byte c i).toNat = c.toNat / 2 ^ (8 * (7 - i)) % 256 := by
  simp [be64Byte, Nat.shiftRight_eq_div_pow]

/-- The message byte at an index below 8. -/
theorem be64_getElem (c : DWord) (i : Fin 8) : (be64 c)[i] = be64Byte c i := by
  fin_cases i <;> rfl

theorem be32_toNat (a b c d : Byte) :
    (be32 a b c d).toNat = a.toNat * 2 ^ 24 + b.toNat * 2 ^ 16 + c.toNat * 2 ^ 8 + d.toNat := by
  have := b.isLt
  have := c.isLt
  have := d.isLt
  simp only [be32, BitVec.toNat_append]
  rw [← Nat.shiftLeft_add_eq_or_of_lt (b := b.toNat) (by assumption),
    ← Nat.shiftLeft_add_eq_or_of_lt (b := c.toNat) (by assumption),
    ← Nat.shiftLeft_add_eq_or_of_lt (b := d.toNat) (by assumption)]
  simp only [Nat.shiftLeft_eq]
  omega

theorem truncationOffset_toNat (d : Vector Byte 20) : (truncationOffset d).toNat = d[19].toNat % 16 := by
  have : d[19].toNat &&& 15 = d[19].toNat % 16 := Nat.and_two_pow_sub_one_eq_mod _ 4
  have h8 : 15 % 2 ^ 8 = 15 := rfl
  simp only [truncationOffset, BitVec.toNat_setWidth, BitVec.toNat_and, BitVec.toNat_ofNat, h8, this]
  omega

/-- R182's sum form of the window with the sign bit cleared. -/
theorem windowNumber_eq (d : Vector Byte 20) (o : Nat) (h : o < 16) :
    windowNumber d o h = (d[o].toNat % 128) * 2 ^ 24 + d[o + 1].toNat * 2 ^ 16 + d[o + 2].toNat * 2 ^ 8 + d[o + 3].toNat := by
  have h1 := d[o + 1].isLt
  have h2 := d[o + 2].isLt
  have h3 := d[o + 3].isLt
  have e : d[o].toNat &&& 0x7F = d[o].toNat % 128 := Nat.and_two_pow_sub_one_eq_mod _ 7
  have s1 : ((d[o].toNat % 128) <<< 24) ||| (d[o + 1].toNat <<< 16) = (((d[o].toNat % 128) <<< 8) ||| d[o + 1].toNat) <<< 16 := by
    rw [Nat.shiftLeft_or_distrib, ← Nat.shiftLeft_add]
  have s2 : ((((d[o].toNat % 128) <<< 8) ||| d[o + 1].toNat) <<< 16) ||| (d[o + 2].toNat <<< 8)
      = (((((d[o].toNat % 128) <<< 8) ||| d[o + 1].toNat) <<< 8) ||| d[o + 2].toNat) <<< 8 := by
    simp only [Nat.shiftLeft_or_distrib, ← Nat.shiftLeft_add]
  unfold windowNumber
  rw [e, s1, s2, ← Nat.shiftLeft_add_eq_or_of_lt (i := 8) h3, ← Nat.shiftLeft_add_eq_or_of_lt (i := 8) h2,
    ← Nat.shiftLeft_add_eq_or_of_lt (i := 8) h1]
  simp only [Nat.shiftLeft_eq]
  omega

theorem windowNumber_lt (d : Vector Byte 20) (o : Nat) (h : o < 16) : windowNumber d o h < 2 ^ 31 := by
  have h1 := d[o + 1].isLt
  have h2 := d[o + 2].isLt
  have h3 := d[o + 3].isLt
  rw [windowNumber_eq]
  omega

/-- The machine's masked window is R182's number. -/
theorem truncatedValue_toNat (d : Vector Byte 20) :
    (truncatedValue d).toNat = windowNumber d (d[19].toNat % 16) (nibble_lt d[19]) := by
  have e : ∀ n : Nat, n &&& 0x7FFFFFFF = n % 2 ^ 31 := fun n => Nat.and_two_pow_sub_one_eq_mod n 31
  have ho : (truncationOffset d).toNat = d[19].toNat % 16 := truncationOffset_toNat d
  rw [windowNumber_eq]
  simp only [truncatedValue, BitVec.toNat_and, BitVec.toNat_ofNat, truncationWindow, be32_toNat, ho]
  have h1 := d[d[19].toNat % 16 + 1].isLt
  have h2 := d[d[19].toNat % 16 + 2].isLt
  have h3 := d[d[19].toNat % 16 + 3].isLt
  have hm : (0x7FFFFFFF : Nat) % 2 ^ 32 = 0x7FFFFFFF := by decide
  rw [hm, e]
  omega

theorem truncatedValue_lt (d : Vector Byte 20) : (truncatedValue d).toNat < 2 ^ 31 := by
  rw [truncatedValue_toNat]
  exact windowNumber_lt d _ _

end Sys2Proof.Machine
end

