-- ==== Sys2Proof/Tests/Slice0.lean ====
section
/-! SUPPORT. Named tests. Expected values come from 95_test_vectors.md (its numbers V, S and P) and from the encoding tables of
30_encoding.md; the second part shows, for every obligation with hypotheses, states and operands that meet them. -/

namespace Sys2Proof.Tests

open Sys2Proof Sys2Proof.Machine

/-! ## Helpers -/

/-- The next state of an outcome, if it is one. -/
def nextOf : Result → Option State
  | .next s => some s
  | .fault _ | .refused _ => none

/-- An instance with `KEY_MAX = 4`, after reset (V2.40, P4). -/
def small : State := { State.reset with params := ⟨0, 4#16⟩ }

/-- `small` after `SECRET "INVALID"` (V2.40). -/
def full : State := { small with
  key := [(0, 0x43#8), (1, 0x6A#8), (2, 0x05#8), (3, 0xA0#8)], keyLen := 4#16, nbits := 3#3, acc := 3#7 }

/-- After reset and `SET64 TIME, 59`. -/
def timed : State := { State.reset with time := 59#64, tset := true }

/-- `timed` with the request of its COMPUTE outstanding (the example of R170). -/
def inHash : State := { timed with counter := 1#64, msg := be64 1#64, phase := .hash }

/-- The digest of S1's first row. -/
def digest59 : Vector Byte 20 :=
  #v[0x75#8, 0xa4#8, 0x8a#8, 0x19#8, 0xd4#8, 0xcb#8, 0xe1#8, 0x00#8, 0x64#8, 0x4e#8, 0x8a#8, 0xc1#8, 0x39#8, 0x7e#8, 0xea#8,
    0x74#8, 0x7a#8, 0x2d#8, 0x33#8, 0xab#8]

/-- `inHash` after the answer of S1's first row, with eight digits. -/
def inTrunc : State := { inHash with digest := digest59, phase := .trunc, digits := 8#32 }

/-- The twenty key bytes of S2. -/
def rfcKey : List Byte :=
  [0x31#8, 0x32#8, 0x33#8, 0x34#8, 0x35#8, 0x36#8, 0x37#8, 0x38#8, 0x39#8, 0x30#8,
    0x31#8, 0x32#8, 0x33#8, 0x34#8, 0x35#8, 0x36#8, 0x37#8, 0x38#8, 0x39#8, 0x30#8]

/-- A keyed-hash function that gives S1's first digest. -/
def fixedHash : KeyedHash := fun _ _ => digest59

/-! ## Decoding: every constructor, by a word written out from R90, R91, R95 and R99 -/

theorem test_decode_read_bits : decode 0b0000100000000000000000000000000000000#37 = .rdStatus := by decide

theorem test_decode_write_bits : decode 0b1001000000000000000000000000000001000#37 = .wrDigits 8#32 := by decide

theorem test_decode_command_bits : decode 0b1000000000000000000000100101000000010#37 = .b32push 0x4A#8 := by decide

theorem test_decode_reads :
    [0x0000000000#37, 0x01DEADBEEF#37, 0x0200000000#37, 0x0300000000#37, 0x0400000000#37, 0x0500000000#37, 0x0600000000#37,
      0x0700000000#37, 0x0800000000#37, 0x0900000000#37, 0x0A00000000#37, 0x0B00000000#37, 0x0C00000000#37, 0x0D00000000#37,
      0x0E00000000#37, 0x0F00000000#37].map decode =
    [.rdCmd, .rdStatus, .rdDigits, .rdKeyLen, .rdEpochLo, .rdEpochHi, .rdIntervalLo, .rdIntervalHi, .rdTimeLo, .rdTimeHi,
      .rdCounterLo, .rdCounterHi, .rdCode, .rdConfig, .rdW14, .rdW15] := by decide

theorem test_decode_writes :
    [0x1100000001#37, 0x1200000002#37, 0x1300000003#37, 0x1400000004#37, 0x1500000005#37, 0x1600000006#37, 0x1700000007#37,
      0x1800000008#37, 0x19FFFFFFFF#37, 0x1A0000000A#37, 0x1B0000000B#37, 0x1C0000000C#37, 0x1D00000000#37, 0x1E0000000E#37,
      0x1F80000000#37].map decode =
    [.wrStatus 1#32, .wrDigits 2#32, .wrKeyLen 3#32, .wrEpochLo 4#32, .wrEpochHi 5#32, .wrIntervalLo 6#32, .wrIntervalHi 7#32,
      .wrTimeLo 8#32, .wrTimeHi 0xFFFFFFFF#32, .wrCounterLo 10#32, .wrCounterHi 11#32, .wrCode 12#32, .wrConfig 0#32, .wrW14 14#32,
      .wrW15 0x80000000#32] := by decide

theorem test_decode_commands :
    [0x1000000000#37, 0x1000000001#37, 0x100000FF02#37, 0x1000000003#37, 0x1000000004#37, 0x1000000005#37, 0x1000000006#37].map decode =
    [.nop, .keyclr, .b32push 0xFF#8, .rawpush 0#8, .compute, .zeroize, .ack] := by decide

theorem test_decode_illegal_commands :
    [0x1000000007#37, 0x10000000FF#37, 0x1000000104#37, 0x1000000100#37, 0x1000010002#37, 0x1080000003#37].map decode =
    [.wrCmdIllegal 7#32, .wrCmdIllegal 0xFF#32, .wrCmdIllegal 0x104#32, .wrCmdIllegal 0x100#32, .wrCmdIllegal 0x10002#32,
      .wrCmdIllegal 0x80000003#32] := by decide

theorem test_decode_bytes : decodeBytes [0x02#8, 0x4A#8, 0x00#8, 0x00#8, 0x10#8] = .ok (.b32push 0x4A#8) := by decide

theorem test_decode_bytes_rejects :
    decodeBytes [0x00#8, 0x00#8, 0x00#8, 0x00#8, 0x20#8] = .error .notATransactionWord ∧
      decodeBytes [0x00#8, 0x00#8, 0x00#8, 0x00#8, 0x10#8, 0x01#8] = .error .notATransactionWord := by decide

theorem test_decodeTableWord :
    decodeTableWord 40 0x1200000008 = some (.wrDigits 8#32) ∧ decodeTableWord 40 0x2000000000 = none := by decide

theorem test_opcode_rows_are_disjoint :
    opcodeRows.Pairwise (fun a b => a.pattern &&& (a.mask &&& b.mask) ≠ b.pattern &&& (a.mask &&& b.mask)) := by decide +kernel

/-! ## WellFormed refuses an illegal-command term whose word is a command (R94, R96): one term for each row of the check -/

theorem test_wellFormed_refuses_nop_word : (Instr.wrCmdIllegal 0x00000000#32).wellFormed = false := by decide

theorem test_wellFormed_refuses_keyclr_word : (Instr.wrCmdIllegal 0x00000001#32).wellFormed = false := by decide

theorem test_wellFormed_refuses_b32push_word : (Instr.wrCmdIllegal 0x00004A02#32).wellFormed = false := by decide

theorem test_wellFormed_refuses_rawpush_word : (Instr.wrCmdIllegal 0x0000FF03#32).wellFormed = false := by decide

theorem test_wellFormed_refuses_compute_word : (Instr.wrCmdIllegal 0x00000004#32).wellFormed = false := by decide

theorem test_wellFormed_refuses_zeroize_word : (Instr.wrCmdIllegal 0x00000005#32).wellFormed = false := by decide

theorem test_wellFormed_refuses_ack_word : (Instr.wrCmdIllegal 0x00000006#32).wellFormed = false := by decide

/-! ## Reads -/

/-- A state in which every word reads a value of its own. -/
def marked : State := { State.reset with
  digits := 0x11111111#32, epoch := 0x2222222233333333#64, interval := 0x4444444455555555#64, time := 0x6666666677777777#64
  counter := 0x8888888899999999#64, code := 0x2AAAAAAA#32, keyLen := 3#16
  err := true, errcode := 5#4, kovf := true, cmderr := true, tset := true }

theorem test_reads_of_a_marked_state :
    [Instr.rdCmd, .rdStatus, .rdDigits, .rdKeyLen, .rdEpochLo, .rdEpochHi, .rdIntervalLo, .rdIntervalHi, .rdTimeLo, .rdTimeHi,
      .rdCounterLo, .rdCounterHi, .rdCode, .rdConfig, .rdW14, .rdW15].map (fun i => (nextOf (exec i marked)).map (·.replies)) =
    [some [0#32], some [0xE54#32], some [0x11111111#32], some [3#32], some [0x33333333#32], some [0x22222222#32],
      some [0x55555555#32], some [0x44444444#32], some [0x77777777#32], some [0x66666666#32], some [0x99999999#32],
      some [0x88888888#32], some [0x2AAAAAAA#32], some [0x01140080#32], some [0#32], some [0#32]] := by decide

/-- V1.1. -/
theorem test_reset_words : observable State.reset =
    [0#32, 0#32, 6#32, 0#32, 0#32, 0#32, 0x1E#32, 0#32, 0#32, 0#32, 0#32, 0#32, 0#32, 0x01140080#32, 0#32, 0#32] := by decide

/-! ## Writes -/

/-- V1.2. -/
theorem test_wrDigits : (nextOf (exec (.wrDigits 0xFFFFFFFF#32) State.reset)).map (fun t => (t.digits, statusWord t)) =
    some (0xFFFFFFFF#32, 0#32) := by decide

/-- The example of R126. -/
theorem test_wrEpochLo : (nextOf (exec (.wrEpochLo 0x3B9ACA00#32) State.reset)).map (·.epoch) = some 1000000000#64 := by decide

/-- V1.4. -/
theorem test_wrEpochHi : (nextOf (exec (.wrEpochHi 1#32) State.reset)).map (·.epoch) = some 4294967296#64 := by decide

/-- V1.6. -/
theorem test_wrIntervalLo : (nextOf (exec (.wrIntervalLo 0#32) State.reset)).map (fun t => (t.interval, statusWord t)) =
    some (0#64, 0#32) := by decide

/-- V1.5. -/
theorem test_wrIntervalHi : (nextOf (exec (.wrIntervalHi 1#32) State.reset)).map (·.interval) = some 4294967326#64 := by decide

/-- The example of R130. -/
theorem test_wrTimeLo : (nextOf (exec (.wrTimeLo 59#32) State.reset)).map (fun t => (t.time, statusWord t)) =
    some (59#64, 0x800#32) := by decide

/-- V1.7. -/
theorem test_wrTimeHi : (nextOf (exec (.wrTimeHi 0#32) State.reset)).map (fun t => (t.time, statusWord t)) =
    some (0#64, 0x800#32) := by decide

/-- V1.10, V1.11 and the example of R124. -/
theorem test_illegal_writes :
    ∀ i ∈ [Instr.wrStatus 0xFFFFFFFF#32, .wrKeyLen 5#32, .wrCounterLo 1#32, .wrCounterHi 1#32, .wrCode 1#32, .wrConfig 0#32,
      .wrW14 1#32, .wrW15 1#32, .wrCmdIllegal 0xFF#32], nextOf (exec i State.reset) = some { State.reset with cmderr := true } := by
  decide

/-- V1.13. -/
theorem test_write_while_busy : (nextOf (exec (.wrEpochLo 7#32) inHash)).map (fun t => (t.epoch, statusWord t)) =
    some (0#64, 0xC01#32) := by decide

/-- A write of word 0 while busy, the command included (V6's rule R122). -/
theorem test_commands_while_busy :
    ∀ i ∈ [Instr.nop, .keyclr, .b32push 0x41#8, .rawpush 0#8, .compute, .zeroize, .ack, .wrCmdIllegal 7#32],
      nextOf (exec i inHash) = some { inHash with cmderr := true } := by decide

/-! ## The Secret Decoder -/

/-- The edges of the table (V2, after V2.38). -/
theorem test_alphabet_edges :
    [0x40#8, 0x41#8, 0x5A#8, 0x5B#8, 0x60#8, 0x61#8, 0x7A#8, 0x7B#8, 0x31#8, 0x32#8, 0x37#8, 0x38#8, 0x00#8, 0x20#8, 0x3D#8, 0x7F#8,
      0x80#8, 0xFF#8].map alphabetValue =
    [none, some 0#5, some 25#5, none, none, some 0#5, some 25#5, none, none, some 26#5, some 31#5, none, none, none, none, none, none,
      none] := by decide

/-- The example of R147. -/
theorem test_keyclr : nextOf (exec .keyclr { full with derr := true }) = some { small with key := full.key } := by decide

/-- The example of R148, first push: no byte is due. -/
theorem test_b32push_absorbs : (nextOf (exec (.b32push 0x4A#8) State.reset)).map (fun t => (t.keyLen, t.nbits, t.acc, t.key)) =
    some (0#16, 5#3, 9#7, []) := by decide

/-- The push of `A` in the trace of `INVALID` (P4, statement 6): the byte `6A`, no bits left but four. -/
theorem test_b32push_emits :
    (nextOf (exec (.b32push 0x41#8) { small with key := [(0, 0x43#8)], keyLen := 1#16, nbits := 7#3, acc := 53#7 })).map
      (fun t => (t.keyLen, t.nbits, t.acc, t.key)) = some (2#16, 4#3, 0#7, [(0, 0x43#8), (1, 0x6A#8)]) := by decide

/-- V2.41 and P4, statement 14: an overflow changes nothing but the flag, and the pushes after it nothing. -/
theorem test_b32push_overflows :
    nextOf (exec (.b32push 0x41#8) full) = some { full with kovf := true } ∧
      nextOf (exec (.b32push 0x21#8) { full with kovf := true }) = some { full with kovf := true } := by decide

/-- V2.45: a zero byte is a key byte. -/
theorem test_rawpush_zero : (nextOf (exec (.rawpush 0#8) small)).map (fun t => (t.keyLen, t.key, Memory.read t.key 0)) =
    some (1#16, [], 0#8) := by decide

/-- P4, statements 24 and 26. -/
theorem test_rawpush_fills_and_overflows :
    (nextOf (exec (.rawpush 0x34#8) { small with keyLen := 3#16 })).map (fun t => (t.keyLen, t.key, t.kovf)) =
        some (4#16, [(3, 0x34#8)], false) ∧
      nextOf (exec (.rawpush 0x35#8) full) = some { full with kovf := true } := by decide

/-- V2.24, V2.19, V2.15 and V2.25: the function `decode`. -/
theorem test_decodeText :
    decodeText [0x49#8, 0x4E#8, 0x56#8, 0x41#8, 0x4C#8, 0x49#8, 0x44#8] = some [0x43#8, 0x6A#8, 0x05#8, 0xA0#8] ∧
      decodeText [0x6D#8, 0x66#8, 0x72#8, 0x67#8, 0x67#8, 0x7A#8, 0x64#8, 0x66#8] = some [0x61#8, 0x62#8, 0x63#8, 0x64#8, 0x65#8] ∧
      decodeText [0x4D#8, 0x5A#8] = some [0x66#8] ∧
      decodeText [0x4D#8, 0x46#8, 0x52#8, 0x47#8, 0x47#8, 0x3D#8, 0x3D#8, 0x3D#8] = none := by decide

/-! ## The TOTP Engine -/

/-- The example of R170. -/
theorem test_compute_starts : (nextOf (exec .compute timed)).map (fun t => (t.counter, t.msg, t.phase, statusWord t)) =
    some (1#64, #v[0#8, 0#8, 0#8, 0#8, 0#8, 0#8, 0#8, 1#8], .hash, 0x801#32) := by decide

/-- The ladder of R172 on a state in which four causes hold (P2, statement 19), and V3.9's last row. -/
theorem test_compute_errors :
    (nextOf (exec .compute { State.reset with derr := true, interval := 0#64, epoch := 1#64 })).map statusWord = some 0x114#32 ∧
      (nextOf (exec .compute { timed with time := 0#64, epoch := 1#64, code := 7#32, done := true })).map
        (fun t => (statusWord t, t.code, t.phase)) = some (0x854#32, 0#32, .idle) := by decide

/-- V3.9: the largest counter. -/
theorem test_largest_counter :
    counterOf 0#64 1#64 0xFFFFFFFFFFFFFFFF#64 = 0xFFFFFFFFFFFFFFFF#64 ∧ counterOf 41#64 30#64 100#64 = 1#64 ∧
      be64 666666666#64 = #v[0#8, 0#8, 0#8, 0#8, 0x27#8, 0xBC#8, 0x86#8, 0xAA#8] := by decide

/-- The example of R180. -/
theorem test_truncation : (nextOf (sequencerTurn inTrunc)).map (fun t => (t.code, statusWord t, t.phase)) =
    some (94287082#32, 0x802#32, .idle) := by decide

/-- V3.8: the largest offset, with the sign bit set. -/
theorem test_truncation_offset_15 :
    truncatedValue #v[0x38#8, 0x71#8, 0x92#8, 0xe1#8, 0x86#8, 0x64#8, 0x22#8, 0x45#8, 0x30#8, 0x8e#8, 0xa9#8, 0x4b#8, 0xc8#8, 0x03#8,
      0x49#8, 0xfa#8, 0x28#8, 0x8d#8, 0x8a#8, 0x7f#8] = 0x7A288D8A#32 := by decide

/-- V3.6. -/
theorem test_digits_corners :
    [0#32, 1#32, 3#32, 8#32, 9#32, 10#32, 0xFFFFFFFF#32].map (reduceCode 1094287082#32) =
      [0#32, 2#32, 82#32, 94287082#32, 94287082#32, 1094287082#32, 1094287082#32] := by decide

/-! ## The keyed-hash unit -/

/-- R215: `SHA-1("abc")`. -/
theorem test_sha1_abc : (sha1 [0x61#8, 0x62#8, 0x63#8]).toList =
    [0xa9#8, 0x99#8, 0x3e#8, 0x36#8, 0x47#8, 0x06#8, 0x81#8, 0x6a#8, 0xba#8, 0x3e#8, 0x25#8, 0x71#8, 0x78#8, 0x50#8, 0xc2#8, 0x6c#8,
      0x9c#8, 0xd0#8, 0xd8#8, 0x9d#8] := by decide +kernel

/-- S1, first row: HMAC-SHA-1 of the twenty-byte key and the message of counter 1. -/
theorem test_hmac_rfc : hmacSha1 rfcKey (be64 1#64).toList = digest59 := by decide +kernel

/-- V3.5: a key one byte longer than a block. -/
theorem test_hmac_long_key : (hmacSha1 ((List.range 65).map (BitVec.ofNat 8)) (be64 1#64).toList).toList =
    [0x7f#8, 0x7b#8, 0xb6#8, 0xb5#8, 0x3d#8, 0x6f#8, 0x4d#8, 0xe3#8, 0xe5#8, 0xd2#8, 0x5f#8, 0xdd#8, 0xfe#8, 0x35#8, 0x65#8, 0x29#8,
      0x48#8, 0x70#8, 0x57#8, 0xdc#8] := by decide +kernel

/-- The unit's turn writes the digest and moves to `TRUNC` (R204). -/
theorem test_keyed_hash_turn : (nextOf (keyedHashTurn fixedHash inHash)).map (fun t => (t.digest, t.phase)) =
    some (digest59, .trunc) := by decide

/-! ## Control -/

/-- P5, statements 24, 21 and 19; the example of R232. -/
theorem test_nop_ack_zeroize :
    nextOf (exec .nop marked) = some marked ∧ nextOf (exec .ack marked) = some { marked with cmderr := false } ∧
      nextOf (exec .zeroize { full with tset := true, done := true, code := 94287082#32, digest := digest59, cmderr := true }) =
        some { small with tset := true, cmderr := true } := by decide

/-- R280, in the middle of a derivation. -/
theorem test_reset_turn : nextOf (resetTurn inTrunc) = some State.reset := by decide

/-- A `WAIT` in `HASH` with the unit still to move: the poll reads `0x801`, and the read of the code stays held (R100, R292). -/
theorem test_wait_holds_the_host :
    (nextOf (stepWith fixedHash { inHash with schedule := [.wait, .host (encode .rdCode), .keyedHash, .reset] })).map
      (fun t => (t.schedule, t.replies)) = some ([.keyedHash, .wait, .host (encode .rdCode), .reset], [0x801#32]) := by decide

/-- P1's reads of S1's first row, with `WAIT` polling: `DONE` and the code come only after the two agents (R100). -/
theorem test_wait_ends :
    (nextOf (runWith fixedHash 7 { inHash with
      digits := 8#32, schedule := .wait :: hostTurns totpCollect ++ [.keyedHash, .sequencer] })).map (fun t => (t.schedule, t.replies)) =
    some ([], [94287082#32, 0x802#32, 0x802#32, 0x801#32, 0x801#32]) := by decide

/-- The bridge at `BASE = 64` (R63, R66): the first and the last word, a halfword, a misaligned word, and both sides of the window. -/
theorem test_bridge :
    bridge ⟨64, 4#16⟩ ⟨true, 64, 4, 5#32⟩ = .ok 0x1000000005#37 ∧ bridge ⟨64, 4#16⟩ ⟨false, 124, 4, 9#32⟩ = .ok 0x0F00000000#37 ∧
      bridge ⟨64, 4#16⟩ ⟨false, 64, 2, 0#32⟩ = .error .notAWordAccess ∧ bridge ⟨64, 4#16⟩ ⟨false, 66, 4, 0#32⟩ = .error .notAWordAccess ∧
      bridge ⟨64, 4#16⟩ ⟨false, 62, 4, 0#32⟩ = .error .notAWordAccess ∧ bridge ⟨64, 4#16⟩ ⟨false, 60, 4, 0#32⟩ = .error .outsideWindow ∧
      bridge ⟨64, 4#16⟩ ⟨false, 128, 4, 0#32⟩ = .error .outsideWindow := by decide

/-- What the host asks of a table word: the first step after reset runs it. -/
theorem test_withFetchWord :
    (nextOf (step (State.reset.withFetchWord 40 0x1200000008))).map (fun t => (t.digits, t.schedule)) = some (8#32, []) := by decide

/-! ## Witnesses: states and operands that meet the hypotheses of the obligations -/

theorem next_of_isSome {o : Result} (h : (nextOf o).isSome = true) : ∃ t, o = .next t := by
  cases o with
  | next s => exact ⟨s, rfl⟩
  | fault r => simp [nextOf] at h
  | refused r => simp [nextOf] at h

/-- `s` with one turn to come. -/
def before (s : State) (t : Turn) : State := { s with schedule := [t] }

/-- `s` with one transaction to come. -/
def beforeHost (s : State) (i : Instr) : State := before s (.host (encode i))

/-- The three steps of a derivation (R185). -/
def derivation : List Turn := [.host (encode .compute), .keyedHash, .sequencer]

/-- The text `INVALID`. -/
def invalidText : Text := [0x49#8, 0x4E#8, 0x56#8, 0x41#8, 0x4C#8, 0x49#8, 0x44#8]

theorem witness_DecodeOfEncodeIsIdentity :
    (Instr.wrCmdIllegal 7#32).wellFormed = true ∧ (Instr.b32push 0xFF#8).wellFormed = true := by decide

theorem witness_DecoderFollowsWriteBitAndIndex :
    txWe 0x0FFFFFFFFF#37 = false ∧
      (txWe 0x1000004A02#37 = true ∧ txIdx 0x1000004A02#37 = 0#4 ∧ isCommandWord (txData 0x1000004A02#37) = true) ∧
      (txWe 0x1000000007#37 = true ∧ txIdx 0x1000000007#37 = 0#4 ∧ isCommandWord (txData 0x1000000007#37) = false) ∧
      (txWe 0x1F00000000#37 = true ∧ txIdx 0x1F00000000#37 ≠ 0#4) := by decide

theorem witness_DecodeAgreesWithTheOpcodeTable :
    (∃ r ∈ opcodeRows, r.matchedBy 0x1000004A02#37 = true) ∧ ∀ r ∈ opcodeRows, r.matchedBy 0x1000000007#37 = false := by decide

theorem witness_StepRunsTheDecodedTransaction :
    (beforeHost timed .compute).schedule = .host 0x1000000004#37 :: [] ∧ decode 0x1000000004#37 = .compute := by decide

theorem witness_AgentsWithoutAStepLetTheirTurnPass :
    timed.schedule = [] ∧
      ((before inTrunc .keyedHash).schedule = .keyedHash :: [] ∧ (before inTrunc .keyedHash).phase ≠ .hash) ∧
      ((before inHash .sequencer).schedule = .sequencer :: [] ∧ (before inHash .sequencer).phase ≠ .trunc) := by decide

/-- The instance with the window at `BASE = 64`. -/
def at64 : State := { State.reset with params := ⟨64, 4#16⟩ }

theorem witness_OnlyWholeWordAccessesBecomeTransactions :
    at64.params.wf ∧ (64 = at64.params.base + 4 * (0#4).toNat ∧ 124 = at64.params.base + 4 * (15#4).toNat) ∧
      (127 < at64.params.base + 64 ∧ at64.params.base < 127 + 1 ∧ (1 ≠ 4 ∨ 127 % 4 ≠ 0)) ∧
      (61 < at64.params.base + 64 ∧ at64.params.base < 61 + 4 ∧ (4 ≠ 4 ∨ 61 % 4 ≠ 0)) ∧
      at64.params.base + 64 ≤ 128 ∧ 60 + 4 ≤ at64.params.base := by decide

theorem witness_ResetLeavesTheResetValues : (before inTrunc .reset).schedule = .reset :: [] := by decide

theorem witness_ResetAbandonsTheDerivation :
    (inHash.phase ≠ .idle ∧ inTrunc.phase ≠ .idle) ∧
      ({ inHash with schedule := [.reset, .keyedHash, .sequencer] } : State).schedule = .reset :: .keyedHash :: .sequencer :: [] := by
  decide

theorem inHash_inv : inHash.Inv := by constructor <;> decide

theorem witness_StatusReadAssemblesTheFlags : inHash.Inv ∧ inHash.phase ≠ .idle := ⟨inHash_inv, by decide⟩

theorem witness_WritesWhileBusyAreDiscarded : inHash.phase = .hash ∧ inTrunc.phase = .trunc ∧ Instr.compute.isWrite = true := by decide

theorem witness_ReadOnlyAndReservedWordsKeepTheirValue :
    timed.phase = .idle ∧ (1#4).toNat ∈ [1, 3, 10, 11, 12, 13, 14, 15] ∧ (15#4).toNat ∈ [1, 3, 10, 11, 12, 13, 14, 15] := by decide

theorem witness_OperandWritesStoreTheirData : inHash.phase ≠ .idle ∧ timed.phase = .idle := by decide

theorem witness_HalvesAreWrittenInEitherOrder :
    ({ timed with schedule := hostTurns (set64Epoch 0x1FFFFFFFF#64) } : State).schedule = hostTurns (set64Epoch 0x1FFFFFFFF#64) ++ [] ∧
      ({ timed with schedule := hostTurns (set64Time 1#64).reverse } : State).schedule = hostTurns (set64Time 1#64).reverse ++ [] ∧
      timed.phase = .idle := by decide

theorem witness_AlphabetTable :
    (0x41 ≤ (0x5A#8).toNat ∧ (0x5A#8).toNat ≤ 0x5A) ∧ (0x61 ≤ (0x61#8).toNat ∧ (0x61#8).toNat ≤ 0x7A) ∧
      (0x32 ≤ (0x37#8).toNat ∧ (0x37#8).toNat ≤ 0x37) ∧
      (¬(0x41 ≤ (0x40#8).toNat ∧ (0x40#8).toNat ≤ 0x5A) ∧ ¬(0x61 ≤ (0x40#8).toNat ∧ (0x40#8).toNat ≤ 0x7A) ∧
        ¬(0x32 ≤ (0x40#8).toNat ∧ (0x40#8).toNat ≤ 0x37)) := by decide

theorem witness_KeyclrBeginsASession : full.phase = .idle := by decide

/-- The premises on the state, and one state for each branch: a failed session, an invalid code, `NBITS = 2` (the largest that
completes no byte), `NBITS = 3` with the buffer full, `NBITS = 7` with room for one byte. -/
theorem witness_B32PushDecodesOneCharacter :
    (full.phase = .idle ∧ full.acc.toNat < 2 ^ full.nbits.toNat ∧ full.keyLen ≤ full.params.keyMax ∧ Memory.wf full.key) ∧
      { full with derr := true }.derr = true ∧ alphabetValue 0x40#8 = none ∧ alphabetValue 0x37#8 = some 31#5 ∧
      (({ small with nbits := 2#3, acc := 3#7 } : State).acc.toNat < 2 ^ 2 ∧ (2#3).toNat + 5 < 8) ∧
      (8 ≤ full.nbits.toNat + 5 ∧ full.keyLen = full.params.keyMax) ∧
      (({ small with nbits := 7#3, acc := 127#7, keyLen := 3#16 } : State).acc.toNat < 2 ^ 7 ∧ 8 ≤ (7#3).toNat + 5 ∧
        3#16 ≠ small.params.keyMax) := by decide

theorem witness_RawPushAppendsOneByte :
    (full.phase = .idle ∧ full.keyLen ≤ full.params.keyMax ∧ Memory.wf full.key) ∧ { full with kovf := true }.kovf = true ∧
      (full.derr = false ∧ full.kovf = false ∧ full.keyLen = full.params.keyMax) ∧
      ({ full with keyLen := 3#16 } : State).keyLen ≠ full.params.keyMax := by decide

theorem witness_AbsentKeyBytesAreFaults :
    small.phase = .idle ∧ small.derr = false ∧ small.kovf = false ∧ small.params.keyMax < 5#16 ∧
      alphabetValue 0x41#8 = some 0#5 ∧ 3 ≤ (3#3).toNat := by decide

/-- The three cases of R149 at `KEY_MAX = 4`: `INVALID` fits exactly; `INVALID!` has an invalid character after it; `INVALIDA` is one
byte too long. -/
theorem witness_SessionCarriesOutDecode :
    small.phase = .idle ∧ Memory.wf small.key ∧
      (∃ bits, textBits invalidText = some bits ∧ (bytesOfBits bits).length ≤ small.params.keyMax.toNat) ∧
      (alphabetValue 0x21#8 = none ∧ 5 * invalidText.length / 8 ≤ small.params.keyMax.toNat) ∧
      ((alphabetValue 0x41#8).isSome = true ∧ small.params.keyMax.toNat < 5 * (invalidText.length + 1) / 8) := by
  refine ⟨by decide, by decide, ⟨_, rfl, by decide⟩, by decide, by decide⟩

theorem witness_DecodedLengthLaw : decodeText [0x4D#8, 0x5A#8] = some [0x66#8] ∧ decodeText [0x3D#8] = none := by decide

theorem witness_ComputeReportsTheFirstError :
    timed.phase = .idle ∧ { timed with derr := true }.derr = true ∧ ({ timed with kovf := true }.derr = false) ∧
      State.reset.tset = false ∧ ({ timed with interval := 0#64 } : State).interval.toNat = 0 ∧
      ({ timed with epoch := 60#64 } : State).time.toNat < ({ timed with epoch := 60#64 } : State).epoch.toNat := by decide

theorem witness_ComputePlacesTheRequest :
    timed.phase = .idle ∧ timed.derr = false ∧ timed.kovf = false ∧ timed.tset = true ∧ timed.interval.toNat ≠ 0 ∧
      ({ timed with epoch := 59#64 } : State).epoch.toNat ≤ timed.time.toNat := by decide

theorem witness_TruncationStepWritesTheCode :
    (before inTrunc .sequencer).schedule = .sequencer :: [] ∧ inTrunc.phase = .trunc ∧ inHash.phase ≠ .trunc := by decide

theorem witness_CodeIsTheMathematicalRemainder : (0x7FFFFFFF#32).toNat < 2 ^ 31 := by decide

theorem witness_CodeIsInRange : (before inTrunc .sequencer).phase = .trunc ∧ (before inTrunc .sequencer).schedule = .sequencer :: [] := by
  decide

theorem witness_DerivationComputesTotp :
    (timed.phase = .idle ∧ timed.derr = false ∧ timed.kovf = false ∧ timed.tset = true ∧ timed.keyLen ≤ timed.params.keyMax) ∧
      ({ timed with schedule := derivation } : State).schedule = .host (encode .compute) :: .keyedHash :: .sequencer :: [] ∧
      (∃ c, totp fixedHash (requestKey timed) 8 0 30 59 = .ok c) ∧ totp fixedHash [] 8 0 0 59 = .error .invalidInterval ∧
      totp fixedHash [] 8 60 30 59 = .error .timeBeforeEpoch :=
  ⟨by decide, by decide, ⟨_, rfl⟩, rfl, rfl⟩

/-- The premises, and one text for each clause: `INVALID` at `KEY_MAX = 4` with a code and with an error, then `INVALID!`, then
`INVALIDA`. -/
theorem witness_TotpStatementComputesTheCode :
    small.phase = .idle ∧ Memory.wf small.key ∧
      decodeText invalidText = some [0x43#8, 0x6A#8, 0x05#8, 0xA0#8] ∧ 4 ≤ small.params.keyMax.toNat ∧
      (∃ c, totp fixedHash [0x43#8, 0x6A#8, 0x05#8, 0xA0#8] 8 0 30 59 = .ok c) ∧
      totp fixedHash [0x43#8, 0x6A#8, 0x05#8, 0xA0#8] 8 0 0 59 = .error .invalidInterval ∧
      (∃ bits, textBits invalidText = some bits) ∧ alphabetValue 0x21#8 = none ∧ 5 * invalidText.length / 8 ≤ small.params.keyMax.toNat ∧
      (∃ bits, textBits (invalidText ++ [0x41#8]) = some bits) ∧
      small.params.keyMax.toNat < 5 * (invalidText ++ [0x41#8]).length / 8 :=
  ⟨by decide, by decide, by decide, by decide, ⟨_, rfl⟩, rfl, ⟨_, rfl⟩, by decide, by decide, ⟨_, rfl⟩, by decide⟩

/-- Two different states with the same inputs of a derivation. -/
theorem witness_DerivationIsDeterministic :
    let s := { timed with schedule := derivation }
    let t := { timed with schedule := derivation, acc := 5#7, nbits := 3#3, code := 9#32, done := true, digest := digest59 }
    s.phase = .idle ∧ t.phase = .idle ∧ s.keyLen ≤ s.params.keyMax ∧ t.keyLen ≤ t.params.keyMax ∧ requestKey s = requestKey t ∧
      s.digits = t.digits ∧ s.epoch = t.epoch ∧ s.interval = t.interval ∧ s.time = t.time ∧ s.tset = t.tset ∧ s.derr = t.derr ∧
      s.kovf = t.kovf ∧ s.schedule = .host (encode .compute) :: .keyedHash :: .sequencer :: [] ∧ s ≠ t := by decide

/-- The two ends of a window: 30 and 59. -/
theorem witness_SameWindowSameCode :
    let s := { timed with schedule := derivation }
    s.phase = .idle ∧ s.keyLen ≤ s.params.keyMax ∧ s.derr = false ∧ s.kovf = false ∧ s.tset = true ∧ s.interval.toNat ≠ 0 ∧
      s.epoch.toNat ≤ s.time.toNat ∧ s.epoch.toNat ≤ (30#64).toNat ∧
      (s.time.toNat - s.epoch.toNat) / s.interval.toNat = ((30#64).toNat - s.epoch.toNat) / s.interval.toNat ∧
      s.schedule = .host (encode .compute) :: .keyedHash :: .sequencer :: [] := by decide

theorem witness_KeyedHashStepAnswersTheRequest :
    (before inHash .keyedHash).schedule = .keyedHash :: [] ∧ inTrunc.phase ≠ .hash ∧ inHash.phase = .hash ∧
      inHash.keyLen ≤ inHash.params.keyMax := by decide

theorem witness_PaddingFillsWholeBlocks : rfcKey.length < 2 ^ 61 := by decide

theorem witness_HmacKeyPreparation : 64 < (List.replicate 65 0#8).length ∧ rfcKey.length + 44 ≤ 64 := by decide

theorem witness_NopAndAck : timed.phase = .idle ∧ inHash.phase ≠ .idle := by decide

theorem witness_ZeroizeErasesTheSecret : full.phase = .idle ∧ inTrunc.phase ≠ .idle := by decide

theorem beforeKeyedHash_inv : (before inHash .keyedHash).Inv := by constructor <;> decide

/-- A step with the invariants, clause (i) with the default digits, and the turn that starts a new count of digits. -/
theorem witness_EveryStepKeepsTheInvariants :
    (before inHash .keyedHash).Inv ∧ (∃ t, stepWith fixedHash (before inHash .keyedHash) = .next t) ∧
      (before inHash .keyedHash).codeWithin 6 ∧
      (Turn.host (encode .compute)).transaction timed.params = some .compute ∧ timed.codeWithin 3 :=
  ⟨beforeKeyedHash_inv, next_of_isSome (by decide), ⟨by decide, by decide⟩, by decide, ⟨by decide, by decide⟩⟩

theorem witness_EveryTransactionCompletes :
    inHash.Inv ∧ stepWith fixedHash (before inHash (.bus ⟨false, 0, 1, 0#32⟩)) = .refused .notAWordAccess := ⟨inHash_inv, rfl⟩

/-- One turn for each transition of R34. -/
theorem witness_PhaseTransitions :
    (∃ t, stepWith fixedHash (beforeHost timed .compute) = .next t) ∧ (∃ t, stepWith fixedHash (before inHash .keyedHash) = .next t) ∧
      (∃ t, stepWith fixedHash (before inTrunc .sequencer) = .next t) ∧ (∃ t, stepWith fixedHash (before inHash .reset) = .next t) :=
  ⟨next_of_isSome (by decide), next_of_isSome (by decide), next_of_isSome (by decide), next_of_isSome (by decide)⟩

theorem witness_OperandsChangeOnlyByTheirWrites :
    (beforeHost timed .zeroize).schedule = .host (encode .zeroize) :: [] ∧
      (∃ t, stepWith fixedHash (beforeHost timed .zeroize) = .next t) ∧
      (Turn.host (encode .zeroize)).transaction timed.params = some .zeroize ∧ timed.tset = true :=
  ⟨by decide, next_of_isSome (by decide), by decide, by decide⟩

theorem witness_ResultsChangeOnlyByTheEngine :
    (beforeHost timed .keyclr).schedule = .host (encode .keyclr) :: [] ∧ (∃ t, stepWith fixedHash (beforeHost timed .keyclr) = .next t) ∧
      (Turn.host (encode .keyclr)).transaction timed.params = some .keyclr :=
  ⟨by decide, next_of_isSome (by decide), by decide⟩

/-- A push that stores (the byte at `KEY_LEN` changes), and a turn that touches nothing hidden. -/
theorem witness_HiddenElementsChangeOnlyByTheirRules :
    Memory.wf small.key ∧
      (nextOf (stepWith fixedHash (beforeHost small (.rawpush 0x31#8)))).map (fun t => Memory.read t.key 0) = some 0x31#8 ∧
      Memory.read small.key 0 ≠ 0x31#8 ∧ (∃ t, stepWith fixedHash (beforeHost small .ack) = .next t) ∧
      (Turn.host (encode .ack)).transaction small.params = some .ack :=
  ⟨by decide, by decide, by decide, next_of_isSome (by decide), by decide⟩

/-- One transaction for each cause of R250, and an ACK that clears. -/
theorem witness_CmderrMarksDiscardedWrites :
    (nextOf (stepWith fixedHash (beforeHost inHash .nop))).map (·.cmderr) = some true ∧
      (nextOf (stepWith fixedHash (beforeHost timed (.wrStatus 0#32)))).map (·.cmderr) = some true ∧
      (nextOf (stepWith fixedHash (beforeHost timed (.wrW15 0#32)))).map (·.cmderr) = some true ∧
      (nextOf (stepWith fixedHash (beforeHost timed (.wrCmdIllegal 7#32)))).map (·.cmderr) = some true ∧
      (nextOf (stepWith fixedHash (beforeHost { timed with cmderr := true } .ack))).map (·.cmderr) = some false := by decide

/-- One COMPUTE for each error. -/
theorem witness_OnlyComputeRaisesErrors :
    [{ timed with derr := true }, { timed with interval := 0#64 }, State.reset, { timed with kovf := true },
      { timed with epoch := 60#64 }].map (fun s => (nextOf (stepWith fixedHash (beforeHost s .compute))).map (fun t => (t.err, t.errcode))) =
    [some (true, 1#4), some (true, 2#4), some (true, 3#4), some (true, 4#4), some (true, 5#4)] := by decide

/-- A read, a write, a `WAIT` that ends and one that holds. -/
theorem witness_ParametersAndRepliesStay :
    (∃ t, stepWith fixedHash (beforeHost timed .rdStatus) = .next t) ∧ (∃ t, stepWith fixedHash (beforeHost timed .nop) = .next t) ∧
      (∃ t, stepWith fixedHash (before timed .wait) = .next t) ∧ (∃ t, stepWith fixedHash (before inHash .wait) = .next t) :=
  ⟨next_of_isSome (by decide), next_of_isSome (by decide), next_of_isSome (by decide), next_of_isSome (by decide)⟩

/-- Two states with different secrets and the same public part, with a push and a read to come. -/
theorem witness_SecretsStayHidden :
    let s := { full with schedule := [.host (encode (.b32push 0x41#8)), .host (encode .rdStatus), .keyedHash] }
    let t := { s with key := [(0, 0x11#8)], acc := 6#7, digest := digest59 }
    s.publicPart = t.publicPart ∧ (∀ turn ∈ s.schedule, turn ≠ .sequencer) ∧ s ≠ t := by decide

theorem witness_TruncationRevealsTheCodeOnly :
    let s := before inTrunc .sequencer
    let t := { s with key := [(0, 0x11#8)], digest := Vector.replicate 20 0#8 }
    s.publicPart = t.publicPart ∧ s.schedule = .sequencer :: [] ∧ s ≠ t ∧ (nextOf (stepWith fixedHash s)).isSome = true ∧
      (nextOf (stepWith fixedHash t)).isSome = true := by decide

/-- A poll and a discarded write before the answer, a poll before the truncation. -/
theorem witness_HashAndTruncationLiftTheWait :
    let xs := [encode .rdStatus, encode (.wrDigits 6#32)]
    let ys := [encode .rdStatus]
    inHash.phase = .hash ∧ inHash.keyLen ≤ inHash.params.keyMax ∧
      ({ inHash with schedule := xs.map .host ++ .keyedHash :: ys.map .host ++ .sequencer :: [] } : State).schedule =
        xs.map .host ++ .keyedHash :: ys.map .host ++ .sequencer :: [] := by decide

theorem witness_DeadUnitHangsTheBlock :
    let s := { inHash with schedule := [.host (encode (.wrDigits 6#32)), .sequencer, .host (encode .rdStatus)] }
    s.phase = .hash ∧ (∀ turn ∈ s.schedule, turn ≠ .keyedHash ∧ turn ≠ .reset) ∧
      (nextOf (runWith fixedHash 3 s)).isSome = true := by decide

/-- A `WAIT` in `IDLE`; in `HASH` with a read and the unit behind it; in `TRUNC` with a read alone behind it. -/
theorem witness_WaitHoldsTheHost :
    let read := Turn.host (encode .rdCode)
    timed.phase = .idle ∧ (before timed .wait).schedule = .wait :: [] ∧
      inHash.phase ≠ .idle ∧ [read, .keyedHash] = [read] ++ .keyedHash :: [] ∧ (∀ x ∈ [read], x.isHost = true) ∧
      Turn.keyedHash.isHost = false ∧ inTrunc.phase ≠ .idle := by decide

/-- A read held before the unit's turn and a bus access before the sequencer's. -/
theorem witness_WaitEndsWithTheDerivation :
    let hs₁ := [Turn.host (encode .rdCode)]
    let hs₂ := [Turn.bus ⟨false, 0, 4, 0#32⟩]
    inHash.phase = .hash ∧ inHash.keyLen ≤ inHash.params.keyMax ∧ (∀ x ∈ hs₁, x.isHost = true) ∧ (∀ x ∈ hs₂, x.isHost = true) ∧
      ({ inHash with schedule := .wait :: hs₁ ++ .keyedHash :: hs₂ ++ .sequencer :: [] } : State).schedule =
        .wait :: hs₁ ++ .keyedHash :: hs₂ ++ .sequencer :: [] := by decide

/-- `TOTP` of a one-byte text that is a key, of one with an invalid character, and of one too long for `KEY_MAX = 4`. -/
theorem witness_TotpWithItsWaitComputesTheCode :
    let s := { small with schedule := totpTurns [0x4D#8, 0x5A#8] 6#32 0#64 30#64 59#64 ++ [Turn.keyedHash, Turn.sequencer] }
    s.phase = .idle ∧ Memory.wf s.key ∧ decodeText [0x4D#8, 0x5A#8] = some [0x66#8] ∧ 1 ≤ s.params.keyMax.toNat ∧
      (∃ c, totp fixedHash [0x66#8] 6 0 30 59 = .ok c) ∧ (∃ x, totp fixedHash [0x66#8] 6 0 0 59 = .error x) ∧
      textBits [] = some [] ∧ alphabetValue 0x21#8 = none ∧
      (textBits (List.replicate 8 0x41#8)).isSome = true ∧ s.params.keyMax.toNat < 5 * 8 / 8 :=
  ⟨by decide, by decide, by decide, by decide, ⟨_, rfl⟩, ⟨_, rfl⟩, by decide, by decide, by decide, by decide⟩

end Sys2Proof.Tests
end

section
/-! PROOF. The fields of the model's own (logs 1, 2, 3, 10, 15): what a host transaction, then a step, does to the parameters, the
turns to come and the replies. -/

namespace Sys2Proof.Machine

theorem busy_eq_false_of_idle {s : State} (h : s.phase = .idle) : busy s = false := by simp [busy, h]

theorem busy_eq_true_of_not_idle {s : State} (h : s.phase ≠ .idle) : busy s = true := by
  cases hp : s.phase with
  | idle => exact absurd hp h
  | hash | trunc => simp [busy, hp]

namespace PushEffect

variable {s t : State}

theorem params_eq (h : PushEffect s t) : t.params = s.params := by
  cases h <;> rfl

theorem schedule_eq (h : PushEffect s t) : t.schedule = s.schedule := by
  cases h <;> rfl

theorem replies_eq (h : PushEffect s t) : t.replies = s.replies := by
  cases h <;> rfl

end PushEffect

namespace Effect

variable {s t : State} {i : Instr}

theorem params_eq (h : Effect s i t) : t.params = s.params := by
  cases h
  case pushValid hpush => exact hpush.params_eq
  all_goals rfl

theorem schedule_eq (h : Effect s i t) : t.schedule = s.schedule := by
  cases h
  case pushValid hpush => exact hpush.schedule_eq
  all_goals rfl

/-- Only a read gives a reply, the value of its word (R120). -/
theorem replies_eq (h : Effect s i t) :
    t.replies = s.replies ∨ (i.isWrite = false ∧ t.replies = regRead i.idx s :: s.replies) := by
  cases h
  case read hread => exact .inr ⟨hread, rfl⟩
  case pushValid hpush => exact .inl hpush.replies_eq
  all_goals exact .inl rfl

end Effect

section Step

variable {kh : KeyedHash} {s t : State} {turn : Turn} {rest : List Turn}

theorem stepWith_params_eq (hs : s.schedule = turn :: rest) (h : stepWith kh s = .next t) : t.params = s.params := by
  rcases stepWith_next hs h with
    ⟨i, -, heff⟩ | ⟨-, -, -, rfl⟩ | ⟨-, -, rfl⟩ | ⟨-, -, rfl⟩ | ⟨-, -, rfl⟩ | ⟨-, rfl⟩
  · exact heff.params_eq
  all_goals rfl

/-- `scheduleAfter` says what is still to come, whoever moves. -/
theorem stepWith_schedule_eq (hs : s.schedule = turn :: rest) (h : stepWith kh s = .next t) :
    t.schedule = scheduleAfter s turn rest := by
  rcases stepWith_next hs h with
    ⟨i, -, heff⟩ | ⟨rfl, -, -, rfl⟩ | ⟨rfl, -, rfl⟩ | ⟨rfl, -, rfl⟩ | ⟨rfl, -, rfl⟩ | ⟨rfl, rfl⟩
  · exact heff.schedule_eq
  all_goals rfl

/-- Only a turn that carries a read gives a reply. -/
theorem stepWith_replies_eq (hs : s.schedule = turn :: rest) (h : stepWith kh s = .next t) :
    t.replies = s.replies ∨
      ∃ i, turn.transaction s.params = some i ∧ i.isWrite = false ∧ t.replies = regRead i.idx s :: s.replies := by
  rcases stepWith_next hs h with
    ⟨i, hi, heff⟩ | ⟨-, -, -, rfl⟩ | ⟨-, -, rfl⟩ | ⟨-, -, rfl⟩ | ⟨-, -, rfl⟩ | ⟨-, rfl⟩
  · exact heff.replies_eq.imp_right fun ⟨hread, hrep⟩ => ⟨i, hi, hread, hrep⟩
  all_goals exact .inl rfl

end Step

/-- In `IDLE` every turn is used up, a poll of `WAIT` too. -/
theorem scheduleAfter_eq_rest {s : State} {turn : Turn} (rest : List Turn) (h : turn ≠ .wait ∨ s.phase = .idle) :
    scheduleAfter s turn rest = rest := by
  by_cases hw : turn = .wait
  · subst hw
    have hidle : s.phase = .idle := h.resolve_left fun hne => hne rfl
    exact scheduleAfter_wait_idle rest (busy_eq_false_of_idle hidle)
  · exact scheduleAfter_of_ne_wait hw

/-- Settles O52, from what one step does to each of the model's own fields. -/
theorem parametersAndRepliesStay : Obligations.ParametersAndRepliesStay := by
  intro kh s t turn rest hs h
  have hsched := stepWith_schedule_eq hs h
  refine ⟨stepWith_params_eq hs h, fun hturn => ?_, fun hwait hbusy => ?_, stepWith_replies_eq hs h⟩
  · exact hsched.trans (scheduleAfter_eq_rest rest hturn)
  · subst hwait
    exact hsched.trans (scheduleAfter_wait_busy rest (busy_eq_true_of_not_idle hbusy))

end Sys2Proof.Machine
end

section
/-! PROOF. The turns of the block's own agents, enabled or not (R34, R180, R204; logs 5 and 6). -/

namespace Sys2Proof.Machine

theorem sequencerTurn_trunc {s : State} (h : s.phase = .trunc) : sequencerTurn s = .next (truncateDigest s) := by
  simp [sequencerTurn, h]

theorem sequencerTurn_passes {s : State} (h : s.phase ≠ .trunc) : sequencerTurn s = .next s := by
  unfold sequencerTurn
  split
  · contradiction
  all_goals rfl

theorem keyedHashTurn_passes {kh : KeyedHash} {s : State} (h : s.phase ≠ .hash) : keyedHashTurn kh s = .next s := by
  unfold keyedHashTurn
  split
  · contradiction
  all_goals rfl

theorem stepWith_of_ne_wait {kh : KeyedHash} {s : State} {turn : Turn} {rest : List Turn} (hs : s.schedule = turn :: rest)
    (hturn : turn ≠ .wait) : stepWith kh s = takeTurn kh turn { s with schedule := rest } := by
  simp [stepWith, hs, scheduleAfter_of_ne_wait hturn]

/-- Settles O8: an agent without a step lets its turn pass, and nothing moves without a turn. -/
theorem agentsWithoutAStepLetTheirTurnPass : Obligations.AgentsWithoutAStepLetTheirTurnPass := by
  refine fun kh s rest => ⟨stepWith_nil, fun hs hp => ?_, fun hs hp => ?_⟩
  · exact (stepWith_of_ne_wait hs Turn.noConfusion).trans (keyedHashTurn_passes hp)
  · exact (stepWith_of_ne_wait hs Turn.noConfusion).trans (sequencerTurn_passes hp)

end Sys2Proof.Machine
end

section
/-! PROOF. What R44 asks of a state is kept by every named update, then by every effect of a transaction, then by every step. -/

namespace Sys2Proof.Machine

/-! ### The arithmetic the key buffer and the code need -/

/-- The hardware's reduction is the remainder: from ten digits on `10^DIGITS` exceeds every value below `2^31` (R175 d, R183). -/
theorem reduceCode_toNat {p digits : Word} (hp : p.toNat < 2 ^ 31) :
    (reduceCode p digits).toNat = p.toNat % 10 ^ digits.toNat := by
  unfold reduceCode
  split
  · rename_i hten
    have hpow : 10 ^ 10 ≤ 10 ^ digits.toNat := Nat.pow_le_pow_right (by decide) hten
    exact (Nat.mod_eq_of_lt (by omega)).symm
  · have hle : p.toNat % 10 ^ digits.toNat ≤ p.toNat := Nat.mod_le _ _
    rw [BitVec.toNat_ofNat, Nat.mod_eq_of_lt (by omega)]

/-- Bits that complete no byte stay below the new bit count (R44 b). -/
theorem absorbBits_acc_lt {s : State} (v : BitVec 5) (hacc : s.acc.toNat < 2 ^ s.nbits.toNat) (hn : bitsAfterPush s < 8) :
    (absorbBits v s).acc.toNat < 2 ^ (absorbBits v s).nbits.toNat := by
  have hbits : (absorbBits v s).nbits.toNat = s.nbits.toNat + 5 := Nat.mod_eq_of_lt hn
  have hshift : shiftedAcc s v < 2 ^ (s.nbits.toNat + 5) := by
    have hv := v.isLt
    rw [shiftedAcc_eq, Nat.pow_add]
    omega
  rw [hbits, absorbBits_acc, BitVec.toNat_ofNat]
  exact lt_of_le_of_lt (Nat.mod_le _ _) hshift

/-- The bits a completed byte leaves over stay below the new bit count (R44 b). -/
theorem emitByte_acc_lt (s : State) (v : BitVec 5) : (emitByte v s).acc.toNat < 2 ^ (emitByte v s).nbits.toNat := by
  have hleft : bitsAfterPush s - 8 < 2 ^ 3 := by
    have := s.nbits.isLt
    unfold bitsAfterPush
    omega
  have hbits : (emitByte v s).nbits.toNat = bitsAfterPush s - 8 := Nat.mod_eq_of_lt hleft
  rw [hbits, emitByte_acc, BitVec.toNat_ofNat, Nat.one_shiftLeft, Nat.and_two_pow_sub_one_eq_mod]
  exact lt_of_le_of_lt (Nat.mod_le _ _) (Nat.mod_lt _ (Nat.two_pow_pos _))

/-- The codes of the errors are 1 to 5 (R240). -/
theorem errorCode_range (e : ComputeError) : 1 ≤ (errorCode e).toNat ∧ (errorCode e).toNat ≤ 5 := by
  cases e <;> decide

/-- What a COMPUTE without error has checked (R172). -/
theorem computeError_eq_none {s : State} (h : computeError s = none) :
    s.derr = false ∧ s.kovf = false ∧ s.tset = true ∧ 0 < s.interval.toNat ∧ s.epoch.toNat ≤ s.time.toNat := by
  simp only [computeError, ite_eq_iff, reduceCtorEq, and_false, false_or, and_true] at h
  obtain ⟨hderr, hkovf, htset, hinterval, htime⟩ := h
  refine ⟨by simpa using hderr, by simpa using hkovf, by simpa using htset, ?_, Nat.le_of_not_lt htime⟩
  exact Nat.pos_of_ne_zero fun h0 => hinterval (BitVec.eq_of_toNat_eq h0)

/-! ### Each named update keeps the invariants -/

namespace State.Inv

variable {s : State}

theorem schedule (h : s.Inv) (turns : List Turn) : State.Inv { s with schedule := turns } := { h with }

theorem reply (h : s.Inv) (v : Word) : (reply v s).Inv := { h with }

theorem cmderr (h : s.Inv) (b : Bool) : State.Inv { s with cmderr := b } := { h with }

theorem digits (h : s.Inv) (v : Word) : State.Inv { s with digits := v } := { h with }

/-- Outside a derivation the operands are free (R44 f). -/
theorem operands (h : s.Inv) (hp : s.phase = .idle) (epoch interval time : DWord) (tset : Bool) :
    State.Inv { s with epoch := epoch, interval := interval, time := time, tset := tset } :=
  { h with
    busy_flags := (absurd hp ·)
    busy_operands := (absurd hp ·)
    busy_counter := (absurd hp ·) }

theorem startSession (h : s.Inv) (hp : s.phase = .idle) : (startSession s).Inv :=
  { h with
    keyLen_le := Nat.zero_le s.params.keyMax.toNat
    acc_lt := Nat.one_pos
    derr_kovf := fun hdk => Bool.false_ne_true hdk.1
    busy_flags := (absurd hp ·) }

/-- A clean session may fail by one of its two errors (R44 e). -/
theorem sessionErrors (h : s.Inv) (hp : s.phase = .idle) (derr kovf : Bool) (hone : ¬(derr = true ∧ kovf = true)) :
    State.Inv { s with derr := derr, kovf := kovf } :=
  { h with
    derr_kovf := hone
    busy_flags := (absurd hp ·) }

theorem storeKeyByte (h : s.Inv) (b : Byte) (hroom : s.keyLen < s.params.keyMax) : (storeKeyByte b s).Inv :=
  { h with
    key_wf := Memory.wf_write h.key_wf _ _
    key_in_buffer := fun c hc => (Memory.mem_write hc).elim (fun hnew => hnew ▸ hroom) (h.key_in_buffer c)
    keyLen_le := (keyLen_succ_toNat hroom).trans_le hroom }

theorem absorbBits (h : s.Inv) (v : BitVec 5) (hn : bitsAfterPush s < 8) : (absorbBits v s).Inv :=
  { h with acc_lt := absorbBits_acc_lt v h.acc_lt hn }

theorem emitByte (h : s.Inv) (v : BitVec 5) (hroom : s.keyLen < s.params.keyMax) : (emitByte v s).Inv :=
  { h.storeKeyByte (BitVec.ofNat 8 ((shiftedAcc s v >>> (bitsAfterPush s - 8)) &&& 0xFF)) hroom with
    acc_lt := emitByte_acc_lt s v }

theorem clearResult (h : s.Inv) (hp : s.phase = .idle) : (clearResult s).Inv :=
  { h with
    done_err := fun hde => Bool.false_ne_true hde.1
    errcode_clear := fun _ => rfl
    errcode_range := fun he => absurd he Bool.false_ne_true
    busy_flags := (absurd hp ·)
    busy_counter := (absurd hp ·)
    busy_message := (absurd hp ·)
    code_done := fun _ => rfl
    code_lt := Nat.two_pow_pos 31 }

theorem raiseError (h : s.Inv) (hp : s.phase = .idle) (hdone : s.done = false) (e : ComputeError) :
    (raiseError e s).Inv :=
  { h with
    done_err := fun hde => Bool.false_ne_true (hdone.symm.trans hde.1)
    errcode_clear := fun he => absurd he.symm Bool.false_ne_true
    errcode_range := fun _ => errorCode_range e
    busy_flags := (absurd hp ·) }

/-- The checks of COMPUTE establish what R44 (f) asks of a derivation. -/
theorem startDerivation (h : s.Inv) (hdone : s.done = false) (herr : s.err = false) (hnone : computeError s = none) :
    (startDerivation s).Inv := by
  obtain ⟨hderr, hkovf, htset, hinterval, htime⟩ := computeError_eq_none hnone
  exact { h with
    busy_flags := fun _ => ⟨hdone, herr, h.code_done hdone, hderr, hkovf, htset⟩
    busy_operands := fun _ => ⟨hinterval, htime⟩
    busy_counter := fun _ => counterOf_toNat _ _ _
    busy_message := fun _ => rfl }

theorem answerRequest (h : s.Inv) (hp : s.phase = .hash) (kh : KeyedHash) : (answerRequest kh s).Inv :=
  have hbusy : s.phase ≠ .idle := by simp [hp]
  { h with
    busy_flags := fun _ => h.busy_flags hbusy
    busy_operands := fun _ => h.busy_operands hbusy
    busy_counter := fun _ => h.busy_counter hbusy
    busy_message := fun _ => h.busy_message hbusy }

theorem truncateDigest (h : s.Inv) (hp : s.phase = .trunc) : (truncateDigest s).Inv := by
  obtain ⟨-, herr, -⟩ := h.busy_flags (by simp [hp])
  have hcode : (reduceCode (truncatedValue s.digest) s.digits).toNat < 2 ^ 31 := by
    rw [reduceCode_toNat (truncatedValue_lt _)]
    exact lt_of_le_of_lt (Nat.mod_le _ _) (truncatedValue_lt _)
  exact { h with
    done_err := fun hde => Bool.false_ne_true (herr.symm.trans hde.2)
    busy_flags := (absurd rfl ·)
    busy_operands := (absurd rfl ·)
    busy_counter := (absurd rfl ·)
    busy_message := (absurd rfl ·)
    code_done := fun hd => absurd hd.symm Bool.false_ne_true
    code_lt := hcode }

theorem eraseSecret (h : s.Inv) (hp : s.phase = .idle) : (eraseSecret s).Inv :=
  { h.clearResult hp with
    key_wf := Memory.wf_nil
    key_in_buffer := fun _ hc => absurd hc List.not_mem_nil
    keyLen_le := Nat.zero_le s.params.keyMax.toNat
    acc_lt := Nat.one_pos
    derr_kovf := fun hdk => Bool.false_ne_true hdk.1
    busy_flags := (absurd hp ·)
    busy_message := (absurd hp ·) }

end State.Inv

/-- The reset values meet the invariants whatever the parameters, if they are in range (R45). -/
theorem reset_inv {p : Params} (hp : p.wf) (turns : List Turn) (replies : List Word) :
    State.Inv { State.reset with params := p, schedule := turns, replies := replies } where
  params_wf := hp
  key_wf := Memory.wf_nil
  key_in_buffer := fun _ hc => absurd hc List.not_mem_nil
  keyLen_le := Nat.zero_le p.keyMax.toNat
  acc_lt := Nat.one_pos
  done_err := fun hde => Bool.false_ne_true hde.1
  errcode_clear := fun _ => rfl
  errcode_range := fun he => absurd he Bool.false_ne_true
  derr_kovf := fun hdk => Bool.false_ne_true hdk.1
  busy_flags := (absurd rfl ·)
  busy_operands := (absurd rfl ·)
  busy_counter := (absurd rfl ·)
  busy_message := (absurd rfl ·)
  code_done := fun _ => rfl
  code_lt := Nat.two_pow_pos 31

/-! ### Every effect and every step keeps the invariants -/

theorem PushEffect.inv {s t : State} (hp : s.phase = .idle) (hd : s.derr = false) (h : PushEffect s t) (hinv : s.Inv) :
    t.Inv := by
  cases h with
  | full => exact hinv.sessionErrors hp _ _ (by simp [hd])
  | absorb v hn => exact hinv.absorbBits v hn
  | emit v _ hroom => exact hinv.emitByte v hroom

theorem Effect.inv {s t : State} {i : Instr} (h : Effect s i t) (hinv : s.Inv) : t.Inv := by
  cases h with
  | read => exact hinv.reply _
  | busy | illegalWrite | illegalCommand | ack => exact hinv.cmderr _
  | digits v => exact hinv.digits v
  | epochLo _ hp | epochHi _ hp | intervalLo _ hp | intervalHi _ hp | timeLo _ hp | timeHi _ hp =>
    exact hinv.operands hp _ _ _ _
  | nop | pushIgnored => exact hinv
  | keyclr hp => exact hinv.startSession hp
  | pushInvalid _ hp _ hk => exact hinv.sessionErrors hp _ _ (by simp [hk])
  | pushValid _ _ hp hd _ hpush => exact hpush.inv hp hd hinv
  | rawFull _ hp hd => exact hinv.sessionErrors hp _ _ (by simp [hd])
  | rawStore b _ _ _ hroom => exact hinv.storeKeyByte b hroom
  | computeError e hp => exact (hinv.clearResult hp).raiseError hp rfl e
  | computeStart hp hnone => exact (hinv.clearResult hp).startDerivation rfl rfl hnone
  | zeroize hp => exact hinv.eraseSecret hp

theorem stepWith_inv {kh : KeyedHash} {s t : State} (hinv : s.Inv) (h : stepWith kh s = .next t) : t.Inv := by
  cases hs : s.schedule with
  | nil =>
    rw [stepWith_nil hs] at h
    exact Host.Outcome.next.inj h ▸ hinv
  | cons turn rest =>
    rcases stepWith_next hs h with
      ⟨i, -, heff⟩ | ⟨-, hp, -, rfl⟩ | ⟨-, -, rfl⟩ | ⟨-, hp, rfl⟩ | ⟨-, -, rfl⟩ | ⟨-, rfl⟩
    · exact heff.inv (hinv.schedule _)
    · exact (hinv.schedule rest).answerRequest hp kh
    · exact hinv.schedule rest
    · exact (hinv.schedule rest).truncateDigest hp
    · exact hinv.schedule rest
    · exact reset_inv hinv.params_wf rest s.replies

/-- Only an accepted COMPUTE starts a new digit count (R44 i). -/
theorem Effect.codeWithin {s t : State} {i : Instr} {d : Nat} (h : Effect s i t) (hd : s.codeWithin d) :
    t.codeWithin d ∨ (i = .compute ∧ s.phase = .idle ∧ t.codeWithin s.digits.toNat) := by
  cases h with
  | digits _ hp => exact .inl ⟨(absurd hp ·), hd.2⟩
  | computeError _ hp | zeroize hp => exact .inl ⟨(absurd hp ·), (absurd · Bool.false_ne_true)⟩
  | computeStart hp => exact .inr ⟨rfl, hp, fun _ => rfl, (absurd · Bool.false_ne_true)⟩
  | pushValid _ _ _ _ _ hpush => cases hpush <;> exact .inl hd
  | _ => exact .inl hd

/-- Outside `IDLE` the code the truncation step writes is below `10^DIGITS` (R183, R184). -/
theorem truncateDigest_codeWithin {s : State} {d : Nat} (hp : s.phase = .trunc) (hd : s.codeWithin d) :
    (truncateDigest s).codeWithin d := by
  have hdigits : s.digits.toNat = d := hd.1 (by simp [hp])
  refine ⟨(absurd rfl ·), fun _ => ?_⟩
  rw [truncateDigest_code, reduceCode_toNat (truncatedValue_lt _), hdigits]
  exact Nat.mod_lt _ (Nat.pow_pos (by decide))

theorem reset_codeWithin (p : Params) (turns : List Turn) (replies : List Word) (d : Nat) :
    State.codeWithin { State.reset with params := p, schedule := turns, replies := replies } d :=
  ⟨(absurd rfl ·), (absurd · Bool.false_ne_true)⟩

/-- Settles O44: each named update keeps the invariants, and `stepWith_next` says which of them a step carries out. -/
theorem everyStepKeepsTheInvariants : Obligations.EveryStepKeepsTheInvariants := by
  intro kh s t hinv h
  refine ⟨stepWith_inv hinv h, fun d hd => ?_⟩
  cases hs : s.schedule with
  | nil =>
    rw [stepWith_nil hs] at h
    exact .inl (Host.Outcome.next.inj h ▸ hd)
  | cons turn rest =>
    rcases stepWith_next hs h with
      ⟨i, hi, heff⟩ | ⟨-, hp, -, rfl⟩ | ⟨-, -, rfl⟩ | ⟨-, hp, rfl⟩ | ⟨-, -, rfl⟩ | ⟨-, rfl⟩
    · refine (heff.codeWithin hd).imp_right fun ⟨hcompute, hidle, hcode⟩ => ?_
      exact ⟨⟨turn, rest, rfl, hcompute ▸ hi⟩, hidle, hcode⟩
    · exact .inl ⟨fun _ => hd.1 (by simp [hp]), hd.2⟩
    · exact .inl hd
    · exact .inl (truncateDigest_codeWithin (s := { s with schedule := rest }) hp hd)
    · exact .inl hd
    · exact .inl (reset_codeWithin _ _ _ d)

/-- Settles O43: the reset values with the default parameters. -/
theorem invariantsHoldAtReset : Obligations.InvariantsHoldAtReset :=
  ⟨reset_inv (p := Config.defaultParams) (by decide) [] [], reset_codeWithin _ _ _⟩

end Sys2Proof.Machine
end

section
/-! PROOF. What the host can learn of the secret: every effect but the truncation step gives the same outcome, up to the
secret-bearing elements, from a state and from its public part. -/

namespace Sys2Proof.Machine

/-- An outcome without the secret-bearing contents of its next state. -/
def publicOutcome : Result → Result
  | .next s => .next s.publicPart
  | .fault r => .fault r
  | .refused r => .refused r

@[simp] theorem publicOutcome_next (s : State) : publicOutcome (.next s) = .next s.publicPart := rfl
@[simp] theorem publicOutcome_fault (r : Fault) : publicOutcome (.fault r) = .fault r := rfl
@[simp] theorem publicOutcome_refused (r : Refusal) : publicOutcome (.refused r) = .refused r := rfl

/-- Two outcomes differ in secret-bearing contents only when they are the same without them. -/
theorem samePublicly_iff {q r : Result} : samePublicly q r ↔ publicOutcome q = publicOutcome r := by
  cases q <;> cases r <;> simp [samePublicly]

/-- An effect whose public outcome depends on the public part of the state alone (R47). -/
def HidesSecrets (effect : State → Result) : Prop :=
  ∀ s, publicOutcome (effect s) = publicOutcome (effect s.publicPart)

theorem HidesSecrets.eq_of_publicPart_eq {effect : State → Result} (h : HidesSecrets effect) {s t : State}
    (hst : s.publicPart = t.publicPart) : publicOutcome (effect s) = publicOutcome (effect t) := by
  rw [h s, h t, hst]

/-! ### The shared operations and the transactions -/

/-- An update of public elements from public elements. -/
theorem hidesSecrets_next {f : State → State} (h : ∀ s, (f s).publicPart = (f s.publicPart).publicPart) :
    HidesSecrets fun s => .next (f s) :=
  fun s => congrArg Host.Outcome.next (h s)

/-- A choice by a public condition. -/
theorem hidesSecrets_ite {c : State → Prop} [DecidablePred c] {effect other : State → Result}
    (hc : ∀ s, c s ↔ c s.publicPart) (heffect : HidesSecrets effect) (hother : HidesSecrets other) :
    HidesSecrets fun s => if c s then effect s else other s := by
  intro s
  by_cases hs : c s
  · simpa only [if_pos hs, if_pos ((hc s).mp hs)] using heffect s
  · simpa only [if_neg hs, if_neg (mt (hc s).mpr hs)] using hother s

theorem hidesSecrets_whenIdle {effect : State → Result} (h : HidesSecrets effect) : HidesSecrets (whenIdle effect) := by
  intro s
  by_cases hp : s.phase = .idle
  · rw [whenIdle_idle hp, whenIdle_idle (s := s.publicPart) hp]
    exact h s
  · rw [whenIdle_busy hp, whenIdle_busy (s := s.publicPart) hp]
    rfl

theorem hidesSecrets_whenSessionClean {effect : State → Result} (h : HidesSecrets effect) :
    HidesSecrets (whenSessionClean effect) :=
  hidesSecrets_ite (c := fun s => (s.derr || s.kovf) = true) (fun _ => Iff.rfl) (hidesSecrets_next fun _ => rfl) h

theorem hidesSecrets_whenKeyRoom {effect : State → Result} (h : HidesSecrets effect) : HidesSecrets (whenKeyRoom effect) :=
  hidesSecrets_ite (c := fun s => s.keyLen = s.params.keyMax) (fun _ => Iff.rfl) (hidesSecrets_next fun _ => rfl)
    (hidesSecrets_ite (c := fun s => s.params.keyMax < s.keyLen) (fun _ => Iff.rfl) (fun _ => rfl) h)

/-- How a valid character is taken depends on `NBITS`; the bits themselves go to hidden elements only. -/
theorem hidesSecrets_pushBits (v : BitVec 5) : HidesSecrets (pushBits v) :=
  hidesSecrets_ite (c := fun s => bitsAfterPush s < 8) (fun _ => Iff.rfl) (hidesSecrets_next fun _ => rfl)
    (hidesSecrets_whenKeyRoom (hidesSecrets_next fun _ => rfl))

theorem hidesSecrets_pushCharacter (ch : Byte) : HidesSecrets (pushCharacter ch) := by
  intro s
  unfold pushCharacter
  split
  · rfl
  · exact hidesSecrets_pushBits _ s

/-- The checks of COMPUTE and its request read public elements only. -/
theorem acceptCompute_publicPart (s : State) : (acceptCompute s).publicPart = (acceptCompute s.publicPart).publicPart := by
  unfold acceptCompute
  have herror : computeError s.publicPart = computeError s := rfl
  rw [herror]
  split <;> rfl

/-- No transaction reveals a hidden element (R47, R69). -/
theorem hidesSecrets_exec (i : Instr) : HidesSecrets (exec i) := by
  cases i
  case rdCmd | rdStatus | rdDigits | rdKeyLen | rdEpochLo | rdEpochHi | rdIntervalLo | rdIntervalHi | rdTimeLo | rdTimeHi
      | rdCounterLo | rdCounterHi | rdCode | rdConfig | rdW14 | rdW15 =>
    exact hidesSecrets_next fun _ => rfl
  case b32push ch => exact hidesSecrets_whenIdle (hidesSecrets_whenSessionClean (hidesSecrets_pushCharacter ch))
  case rawpush b =>
    exact hidesSecrets_whenIdle (hidesSecrets_whenSessionClean (hidesSecrets_whenKeyRoom (hidesSecrets_next fun _ => rfl)))
  case compute => exact hidesSecrets_whenIdle (hidesSecrets_next acceptCompute_publicPart)
  all_goals exact hidesSecrets_whenIdle (hidesSecrets_next fun _ => rfl)

/-! ### Turns, steps and runs -/

/-- The unit's answer goes to `DIGEST`, and whether it may answer is public. -/
theorem hidesSecrets_keyedHashTurn (kh : KeyedHash) : HidesSecrets (keyedHashTurn kh) := by
  have hanswer : HidesSecrets fun s =>
      if s.params.keyMax < s.keyLen then .fault .keyIndexAbsent else .next (answerRequest kh s) :=
    hidesSecrets_ite (c := fun s => s.params.keyMax < s.keyLen) (fun _ => Iff.rfl) (fun _ => rfl)
      (hidesSecrets_next fun _ => rfl)
  intro s
  unfold keyedHashTurn
  simp only [publicPart_phase]
  split
  · exact hanswer s
  all_goals rfl

theorem hidesSecrets_takeTurn (kh : KeyedHash) {turn : Turn} (hturn : turn ≠ .sequencer) :
    HidesSecrets (takeTurn kh turn) := by
  cases turn with
  | host tx => exact hidesSecrets_exec (decode tx)
  | bus a =>
    intro s
    simp only [takeTurn, publicPart_params]
    split
    · exact hidesSecrets_exec _ s
    · rfl
  | wait => exact hidesSecrets_exec .rdStatus
  | keyedHash => exact hidesSecrets_keyedHashTurn kh
  | sequencer => exact absurd rfl hturn
  | reset => exact hidesSecrets_next fun _ => rfl

/-- One step from a state and one from its public part, when the next turn is not the sequencer's. -/
theorem publicOutcome_stepWith (kh : KeyedHash) {s : State} (hseq : ∀ turn ∈ s.schedule, turn ≠ .sequencer) :
    publicOutcome (stepWith kh s) = publicOutcome (stepWith kh s.publicPart) := by
  cases hs : s.schedule with
  | nil =>
    have hs' : s.publicPart.schedule = [] := hs
    rw [stepWith_nil hs, stepWith_nil hs']
    rfl
  | cons turn rest =>
    have hturn : turn ≠ .sequencer := hseq turn (by simp [hs])
    simp only [stepWith, publicPart_schedule, hs]
    exact hidesSecrets_takeTurn kh hturn { s with schedule := scheduleAfter s turn rest }

/-- A step brings no turn of the sequencer into the schedule. -/
theorem stepWith_keeps_noSequencer {kh : KeyedHash} {s t : State} (hseq : ∀ turn ∈ s.schedule, turn ≠ .sequencer)
    (h : stepWith kh s = .next t) : ∀ turn ∈ t.schedule, turn ≠ .sequencer := by
  cases hs : s.schedule with
  | nil =>
    rw [stepWith_nil hs] at h
    exact Host.Outcome.next.inj h ▸ hseq
  | cons turn rest =>
    have hrest : ∀ x ∈ rest, x ≠ .sequencer := fun x hx => hseq x (by simp [hs, hx])
    rw [stepWith_schedule_eq hs h]
    by_cases hwait : turn = .wait ∧ s.phase ≠ .idle
    · obtain ⟨rfl, hbusy⟩ := hwait
      rw [scheduleAfter_wait_busy rest (busy_eq_true_of_not_idle hbusy)]
      intro x hx
      rcases mem_of_mem_holdHost hx with rfl | hx
      · exact Turn.noConfusion
      · exact hrest x hx
    · rw [scheduleAfter_eq_rest rest (by tauto)]
      exact hrest

theorem schedule_eq_of_publicPart_eq {s t : State} (h : s.publicPart = t.publicPart) : s.schedule = t.schedule := by
  simpa using congrArg State.schedule h

/-- Runs of the same turns, the sequencer's not among them, from states with the same public part. -/
theorem publicOutcome_runWith (kh : KeyedHash) (n : Nat) {s t : State} (hst : s.publicPart = t.publicPart)
    (hseq : ∀ turn ∈ s.schedule, turn ≠ .sequencer) :
    publicOutcome (runWith kh n s) = publicOutcome (runWith kh n t) := by
  induction n generalizing s t with
  | zero => exact congrArg Host.Outcome.next hst
  | succ n ih =>
    have hseq' : ∀ turn ∈ t.schedule, turn ≠ .sequencer := schedule_eq_of_publicPart_eq hst ▸ hseq
    have hstep : publicOutcome (stepWith kh s) = publicOutcome (stepWith kh t) := by
      rw [publicOutcome_stepWith kh hseq, publicOutcome_stepWith kh hseq', hst]
    cases hs : stepWith kh s <;> cases ht : stepWith kh t <;> rw [hs, ht] at hstep
    case next.next s' t' =>
      rw [runWith_succ hs, runWith_succ ht]
      exact ih (Host.Outcome.next.inj hstep) (stepWith_keeps_noSequencer hseq hs)
    -- Otherwise both runs stop here with the same stop, or `hstep` equates two different kinds of outcome.
    all_goals simp_all [runWith]

/-- Settles O53, by induction on the number of steps. -/
theorem secretsStayHidden : Obligations.SecretsStayHidden :=
  fun kh n _ _ hst hseq => samePublicly_iff.mpr (publicOutcome_runWith kh n hst hseq)

/-! ### The sequencer's turn -/

/-- The truncation step carries the public part over, but for the code. -/
theorem sequencerTurn_publicPart {s t s' t' : State} (hst : s.publicPart = t.publicPart)
    (hs : sequencerTurn s = .next s') (ht : sequencerTurn t = .next t') :
    { s' with code := t'.code }.publicPart = t'.publicPart := by
  have hphase : s.phase = t.phase := by simpa using congrArg State.phase hst
  by_cases hp : t.phase = .trunc
  · rw [sequencerTurn_trunc (hphase.trans hp), Host.Outcome.next.injEq] at hs
    rw [sequencerTurn_trunc hp, Host.Outcome.next.injEq] at ht
    subst hs ht
    exact congrArg (fun u : State => { u with code := (truncateDigest t).code, done := true, phase := .idle }) hst
  · rw [sequencerTurn_passes (fun h => hp (hphase ▸ h)), Host.Outcome.next.injEq] at hs
    rw [sequencerTurn_passes hp, Host.Outcome.next.injEq] at ht
    subst hs ht
    exact congrArg (fun u : State => { u with code := t.code }) hst

/-- Settles O54, from what the sequencer's turn does to two states with the same public part. -/
theorem truncationRevealsTheCodeOnly : Obligations.TruncationRevealsTheCodeOnly := by
  intro kh s t s' t' rest hst hsched hs ht
  have hsched' : t.schedule = .sequencer :: rest := (schedule_eq_of_publicPart_eq hst).symm.trans hsched
  rw [stepWith_of_ne_wait hsched Turn.noConfusion] at hs
  rw [stepWith_of_ne_wait hsched' Turn.noConfusion] at ht
  exact sequencerTurn_publicPart (congrArg (fun u : State => { u with schedule := rest }) hst) hs ht

end Sys2Proof.Machine
end

section
/-! PROOF. Who writes which element (R21 to R34, R38 to R41): first what the effect of a transaction leaves unchanged, then the
same of a step. -/

namespace Sys2Proof.Machine

/-- A push changes the key buffer and the decoder's elements only (R148). -/
theorem PushEffect.frame {s t : State} (h : PushEffect s t) :
    t = { s with key := t.key, keyLen := t.keyLen, acc := t.acc, nbits := t.nbits, kovf := t.kovf } := by
  cases h <;> rfl

theorem PushEffect.key_changes {s t : State} (h : PushEffect s t) (hwf : Memory.wf s.key) {a : Nat}
    (ha : Memory.read t.key a ≠ Memory.read s.key a) : a = s.keyLen.toNat := by
  cases h with
  | full | absorb => exact absurd rfl ha
  | emit v =>
    by_contra hne
    exact ha ((Memory.read_write hwf _ _ _).trans (if_neg hne))

namespace Effect

variable {s t : State} {i : Instr}

theorem phase_cases (h : Effect s i t) :
    t.phase = s.phase ∨ (i = .compute ∧ s.phase = .idle ∧ t.phase = .hash ∧ t.err = false) := by
  cases h
  case computeStart hp _ => exact .inr ⟨rfl, hp, rfl, rfl⟩
  case pushValid hpush => exact .inl (hpush.frame ▸ rfl)
  all_goals exact .inl rfl

theorem digits_eq (h : Effect s i t) (hwr : ∀ v, i ≠ .wrDigits v) : t.digits = s.digits := by
  cases h
  case digits v _ => exact absurd rfl (hwr v)
  case pushValid hpush => exact hpush.frame ▸ rfl
  all_goals rfl

theorem epoch_eq (h : Effect s i t) (hlo : ∀ v, i ≠ .wrEpochLo v) (hhi : ∀ v, i ≠ .wrEpochHi v) : t.epoch = s.epoch := by
  cases h
  case epochLo v _ => exact absurd rfl (hlo v)
  case epochHi v _ => exact absurd rfl (hhi v)
  case pushValid hpush => exact hpush.frame ▸ rfl
  all_goals rfl

theorem interval_eq (h : Effect s i t) (hlo : ∀ v, i ≠ .wrIntervalLo v) (hhi : ∀ v, i ≠ .wrIntervalHi v) :
    t.interval = s.interval := by
  cases h
  case intervalLo v _ => exact absurd rfl (hlo v)
  case intervalHi v _ => exact absurd rfl (hhi v)
  case pushValid hpush => exact hpush.frame ▸ rfl
  all_goals rfl

theorem time_tset_eq (h : Effect s i t) (hlo : ∀ v, i ≠ .wrTimeLo v) (hhi : ∀ v, i ≠ .wrTimeHi v) :
    t.time = s.time ∧ t.tset = s.tset := by
  cases h
  case timeLo v _ => exact absurd rfl (hlo v)
  case timeHi v _ => exact absurd rfl (hhi v)
  case pushValid hpush => exact hpush.frame ▸ ⟨rfl, rfl⟩
  all_goals exact ⟨rfl, rfl⟩

/-- No transaction clears `TSET` (R25). -/
theorem tset_stays (h : Effect s i t) (hset : s.tset = true) : t.tset = true := by
  cases h
  case timeLo | timeHi => rfl
  case pushValid hpush => exact hpush.frame ▸ hset
  all_goals exact hset

theorem results_eq (h : Effect s i t) (hcompute : i ≠ .compute) (hzeroize : i ≠ .zeroize) :
    t.counter = s.counter ∧ t.err = s.err ∧ t.errcode = s.errcode ∧ t.code = s.code ∧ t.done = s.done := by
  cases h
  case computeError | computeStart => exact absurd rfl hcompute
  case zeroize => exact absurd rfl hzeroize
  case pushValid hpush => exact hpush.frame ▸ ⟨rfl, rfl, rfl, rfl, rfl⟩
  all_goals exact ⟨rfl, rfl, rfl, rfl, rfl⟩

/-- A byte of `KEY` changes at `KEY_LEN` and by a push only (R28). -/
theorem key_changes (h : Effect s i t) (hwf : Memory.wf s.key) (hzeroize : i ≠ .zeroize) {a : Nat}
    (ha : Memory.read t.key a ≠ Memory.read s.key a) :
    a = s.keyLen.toNat ∧ ((∃ c, i = .b32push c) ∨ ∃ b, i = .rawpush b) := by
  cases h
  case zeroize => exact absurd rfl hzeroize
  case pushValid c _ _ _ hpush => exact ⟨hpush.key_changes hwf ha, .inl ⟨c, rfl⟩⟩
  case rawStore b _ _ _ _ =>
    refine ⟨?_, .inr ⟨b, rfl⟩⟩
    by_contra hne
    exact ha ((Memory.read_write hwf _ _ _).trans (if_neg hne))
  all_goals exact absurd rfl ha

/-- The pending bits and `DERR` belong to `B32PUSH` and `KEYCLR` (R30, R31, R40). -/
theorem pending_eq (h : Effect s i t) (hpush : ∀ c, i ≠ .b32push c) (hclr : i ≠ .keyclr) (hzeroize : i ≠ .zeroize) :
    t.acc = s.acc ∧ t.nbits = s.nbits ∧ t.derr = s.derr := by
  cases h
  case pushInvalid c _ _ _ _ | pushValid c _ _ _ _ => exact absurd rfl (hpush c)
  case keyclr => exact absurd rfl hclr
  case zeroize => exact absurd rfl hzeroize
  all_goals exact ⟨rfl, rfl, rfl⟩

/-- `KEY_LEN` and `KOVF` belong to the pushes and `KEYCLR` (R29, R41). -/
theorem keyLen_kovf_eq (h : Effect s i t) (hpush : ∀ c, i ≠ .b32push c) (hraw : ∀ b, i ≠ .rawpush b)
    (hclr : i ≠ .keyclr) (hzeroize : i ≠ .zeroize) : t.keyLen = s.keyLen ∧ t.kovf = s.kovf := by
  cases h
  case pushValid c _ _ _ _ => exact absurd rfl (hpush c)
  case rawFull b _ _ _ | rawStore b _ _ _ _ => exact absurd rfl (hraw b)
  case keyclr => exact absurd rfl hclr
  case zeroize => exact absurd rfl hzeroize
  all_goals exact ⟨rfl, rfl⟩

theorem msg_eq (h : Effect s i t) (hcompute : i ≠ .compute) (hzeroize : i ≠ .zeroize) : t.msg = s.msg := by
  cases h
  case computeStart => exact absurd rfl hcompute
  case zeroize => exact absurd rfl hzeroize
  case pushValid hpush => exact hpush.frame ▸ rfl
  all_goals rfl

theorem digest_eq (h : Effect s i t) (hzeroize : i ≠ .zeroize) : t.digest = s.digest := by
  cases h
  case zeroize => exact absurd rfl hzeroize
  case pushValid hpush => exact hpush.frame ▸ rfl
  all_goals rfl

end Effect

/-- Settles O46: the phase moves with an accepted COMPUTE, with the two agents and with reset. -/
theorem phaseTransitions : Obligations.PhaseTransitions := by
  intro kh s t turn rest hs h
  rcases stepWith_next hs h with
    ⟨i, hi, heff⟩ | ⟨hturn, hp, -, rfl⟩ | ⟨-, -, rfl⟩ | ⟨hturn, hp, rfl⟩ | ⟨-, -, rfl⟩ | ⟨hturn, rfl⟩
  · rcases heff.phase_cases with hsame | ⟨hcompute, hidle, hhash, herr⟩
    · exact .inl hsame
    · exact .inr (.inl ⟨hidle, hhash, hcompute ▸ hi, herr⟩)
  · exact .inr (.inr (.inl ⟨hp, rfl, hturn⟩))
  · exact .inl rfl
  · exact .inr (.inr (.inr (.inl ⟨hp, rfl, hturn⟩)))
  · exact .inl rfl
  · exact .inr (.inr (.inr (.inr ⟨rfl, hturn⟩)))

/-- Settles O47: the agents' turns leave the operands, and a transaction leaves those it does not write. -/
theorem operandsChangeOnlyByTheirWrites : Obligations.OperandsChangeOnlyByTheirWrites := by
  intro kh s t turn rest hs h hreset
  rcases stepWith_next hs h with
    ⟨i, hi, heff⟩ | ⟨-, -, -, rfl⟩ | ⟨-, -, rfl⟩ | ⟨-, -, rfl⟩ | ⟨-, -, rfl⟩ | ⟨hturn, -⟩
  · simp only [hi, ne_eq, Option.some.injEq]
    exact ⟨heff.digits_eq, heff.epoch_eq, heff.interval_eq, heff.time_tset_eq, heff.tset_stays⟩
  case inr.inr.inr.inr.inr => exact absurd hturn hreset
  all_goals exact ⟨fun _ => rfl, fun _ _ => rfl, fun _ _ => rfl, fun _ _ => ⟨rfl, rfl⟩, id⟩

/-- Settles O48: the truncation step writes `CODE` and `DONE`; no other agent's turn and no other transaction writes a result. -/
theorem resultsChangeOnlyByTheEngine : Obligations.ResultsChangeOnlyByTheEngine := by
  intro kh s t turn rest hs h hreset hcompute hzeroize
  rcases stepWith_next hs h with
    ⟨i, hi, heff⟩ | ⟨-, -, -, rfl⟩ | ⟨-, -, rfl⟩ | ⟨hturn, -, rfl⟩ | ⟨-, -, rfl⟩ | ⟨hturn, -⟩
  · simp only [hi, ne_eq, Option.some.injEq] at hcompute hzeroize
    obtain ⟨hcounter, herr, herrcode, hresult⟩ := heff.results_eq hcompute hzeroize
    exact ⟨hcounter, herr, herrcode, fun _ => hresult⟩
  case inr.inr.inr.inl => exact ⟨rfl, rfl, rfl, fun hseq => absurd hturn hseq⟩
  case inr.inr.inr.inr.inr => exact absurd hturn hreset
  all_goals exact ⟨rfl, rfl, rfl, fun _ => ⟨rfl, rfl⟩⟩

/-- Settles O49: the unit's answer writes `DIGEST`; the other hidden elements belong to transactions. -/
theorem hiddenElementsChangeOnlyByTheirRules : Obligations.HiddenElementsChangeOnlyByTheirRules := by
  intro kh s t turn rest hs h hwf hreset hzeroize
  rcases stepWith_next hs h with
    ⟨i, hi, heff⟩ | ⟨hturn, -, -, rfl⟩ | ⟨-, -, rfl⟩ | ⟨-, -, rfl⟩ | ⟨-, -, rfl⟩ | ⟨hturn, -⟩
  · simp only [hi, ne_eq, Option.some.injEq] at hzeroize ⊢
    exact ⟨fun a ha => heff.key_changes hwf hzeroize ha, fun hpush hclr => heff.pending_eq hpush hclr hzeroize,
      fun hpush hraw hclr => heff.keyLen_kovf_eq hpush hraw hclr hzeroize, fun hcompute => heff.msg_eq hcompute hzeroize,
      fun _ => heff.digest_eq hzeroize⟩
  case inr.inl =>
    exact ⟨fun _ ha => absurd rfl ha, fun _ _ => ⟨rfl, rfl, rfl⟩, fun _ _ _ => ⟨rfl, rfl⟩, fun _ => rfl,
      fun hunit => absurd hturn hunit⟩
  case inr.inr.inr.inr.inr => exact absurd hturn hreset
  all_goals
    exact ⟨fun _ ha => absurd rfl ha, fun _ _ => ⟨rfl, rfl, rfl⟩, fun _ _ _ => ⟨rfl, rfl⟩, fun _ => rfl, fun _ => rfl⟩

end Sys2Proof.Machine
end

section
/-! PROOF. `STATUS` bit by bit and the words after reset (R35, R43, R45, R111), and the pushes past the end of the buffer
(log 8). -/

namespace Sys2Proof.Machine

@[simp] theorem getLsbD_flagWord (b : Bool) (i : Nat) : (flagWord b).getLsbD i = (decide (i = 0) && b) := by
  cases i <;> simp [flagWord]

@[simp] theorem getElem_flagWord (b : Bool) (i : Nat) (hi : i < 32) : (flagWord b)[i] = (decide (i = 0) && b) := by
  rw [← BitVec.getLsbD_eq_getElem, getLsbD_flagWord]

/-- The one-bit fields of `STATUS` above `BUSY`, and its bit 3 (R35). -/
theorem statusWord_flags (s : State) :
    (statusWord s).getLsbD 1 = s.done ∧ (statusWord s).getLsbD 2 = s.err ∧ (statusWord s).getLsbD 3 = false ∧
      (statusWord s).getLsbD 8 = s.derr ∧ (statusWord s).getLsbD 9 = s.kovf ∧ (statusWord s).getLsbD 10 = s.cmderr ∧
      (statusWord s).getLsbD 11 = s.tset := by
  simp [statusWord]

theorem statusWord_errcode (s : State) : (statusWord s).extractLsb' 4 4 = s.errcode := by
  apply BitVec.eq_of_getLsbD_eq
  intro i hi
  interval_cases i <;> simp [statusWord]

/-- The fields of `STATUS` end at bit 11 (R35). -/
theorem statusWord_reserved (s : State) : (statusWord s).extractLsb' 12 20 = 0#20 := by
  apply BitVec.eq_of_getLsbD_eq
  intro i hi
  have herrcode : s.errcode.getLsbD (12 + i - 4) = false := BitVec.getLsbD_of_ge _ _ (by omega)
  simp [statusWord, herrcode]
  omega

theorem busy_eq_true_iff (s : State) : busy s = true ↔ s.phase = .hash ∨ s.phase = .trunc := by
  cases hp : s.phase <;> simp [busy, hp]

/-- R111: while busy the invariants leave only `CMDERR` open (R44 f). -/
theorem statusWord_of_busy {s : State} (hinv : s.Inv) (hp : s.phase ≠ .idle) :
    statusWord s = if s.cmderr then 0xC01#32 else 0x801#32 := by
  obtain ⟨hdone, herr, -, hderr, hkovf, htset⟩ := hinv.busy_flags hp
  rw [statusWord, busy_eq_true_of_not_idle hp, hdone, herr, hinv.errcode_clear herr, hderr, hkovf, htset]
  cases s.cmderr <;> rfl

/-- A write of a read-only or reserved word is discarded in every phase (R122, R124). -/
theorem illegalWrite_eq_discard (s : State) : illegalWrite s = .next (discard s) := by
  by_cases hp : s.phase = .idle
  · exact whenIdle_idle hp
  · exact whenIdle_busy hp

/-- Settles O16, field by field. -/
theorem statusReadAssemblesTheFlags : Obligations.StatusReadAssemblesTheFlags := by
  intro s
  obtain ⟨hdone, herr, hzero, hderr, hkovf, hcmderr, htset⟩ := statusWord_flags s
  have hbusy : (statusWord s).getLsbD 0 = true ↔ s.phase = .hash ∨ s.phase = .trunc :=
    statusWord_busy s ▸ busy_eq_true_iff s
  refine ⟨rfl, ⟨statusWord s, rfl, hbusy, hdone, herr, hzero, statusWord_errcode s, hderr, hkovf, hcmderr, htset,
    statusWord_reserved s⟩, fun _ => illegalWrite_eq_discard s, rfl, fun hinv hp => ?_⟩
  exact congrArg (fun v => Host.Outcome.next (reply v s)) (statusWord_of_busy hinv hp)

/-- Settles O11: the sixteen reads of one fixed state. -/
theorem resetWordsAsRead : Obligations.ResetWordsAsRead := by
  unfold Obligations.ResetWordsAsRead
  decide

/-- Settles O25: in a clean session a push that has a byte to store comes to `whenKeyRoom`, which stops. -/
theorem absentKeyBytesAreFaults : Obligations.AbsentKeyBytesAreFaults := by
  intro s ch v hp hderr hkovf habsent
  refine ⟨fun b => ?_, fun hv hbits => ?_⟩
  · calc exec (.rawpush b) s
        = whenSessionClean (whenKeyRoom fun s => .next (storeKeyByte b s)) s := whenIdle_idle hp
      _ = whenKeyRoom (fun s => .next (storeKeyByte b s)) s := whenSessionClean_clean hderr hkovf
      _ = .fault .keyIndexAbsent := whenKeyRoom_absent habsent
  · have hdue : ¬ bitsAfterPush s < 8 := by
      unfold bitsAfterPush
      omega
    calc exec (.b32push ch) s
        = whenSessionClean (pushCharacter ch) s := whenIdle_idle hp
      _ = pushCharacter ch s := whenSessionClean_clean hderr hkovf
      _ = pushBits v s := by simp only [pushCharacter, hv]
      _ = whenKeyRoom (fun s => .next (emitByte v s)) s := if_neg hdue
      _ = .fault .keyIndexAbsent := whenKeyRoom_absent habsent

end Sys2Proof.Machine
end

section
/-! PROOF. The host's two ways in: a transaction delivered at the port (R70, R101), and a bus access through the bridge (R63, R66). -/

namespace Sys2Proof.Machine

/-- Settles O7: `stepWith_host`, for every keyed-hash function and so for HMAC-SHA-1. -/
theorem stepRunsTheDecodedTransaction : Obligations.StepRunsTheDecodedTransaction := by
  rintro kh s tx rest _ hs rfl
  exact ⟨stepWith_host hs, stepWith_host hs⟩

/-! ### The bridge -/

theorem touchesWindow_iff {p : Params} {a : BusAccess} :
    touchesWindow p a = true ↔ a.addr < p.base + 64 ∧ p.base < a.addr + a.bytes :=
  decide_eq_true_iff

/-- `BASE` is a multiple of the word size (R63), so the window's words are the aligned four-byte accesses that touch it. -/
theorem isWindowWord_iff {p : Params} (hp : p.wf) {a : BusAccess} :
    isWindowWord p a = true ↔ touchesWindow p a = true ∧ a.bytes = 4 ∧ a.addr % 4 = 0 := by
  obtain ⟨hbase, -⟩ := hp
  rw [touchesWindow_iff, isWindowWord, windowBytes, decide_eq_true_iff]
  omega

/-- A four-byte access at `BASE + 4*idx` becomes the transaction of word `idx` (R63), whatever `BASE` is. -/
theorem bridge_word {p : Params} {a : BusAccess} {idx : BitVec 4} (haddr : a.addr = p.base + 4 * idx.toNat) (hbytes : a.bytes = 4) :
    bridge p a = .ok (txOf a.we idx (if a.we then a.data else 0#32)) := by
  have hword : isWindowWord p a = true := by
    rw [isWindowWord, windowBytes, decide_eq_true_iff]
    omega
  have hidx : (a.addr - p.base) / 4 = idx.toNat := by omega
  simp [bridge, hword, windowTransaction, hidx]

theorem bridge_notWord {p : Params} (hp : p.wf) {a : BusAccess} (htouch : touchesWindow p a = true)
    (hnot : a.bytes ≠ 4 ∨ a.addr % 4 ≠ 0) : bridge p a = .error .notAWordAccess := by
  have hword : ¬ isWindowWord p a = true := fun h => by
    obtain ⟨-, hbytes, haligned⟩ := (isWindowWord_iff hp).mp h
    exact hnot.elim (· hbytes) (· haligned)
  rw [bridge, if_neg hword, if_pos htouch]

theorem bridge_outside {p : Params} (hp : p.wf) {a : BusAccess} (hout : ¬ touchesWindow p a = true) :
    bridge p a = .error .outsideWindow := by
  have hword : ¬ isWindowWord p a = true := fun h => hout ((isWindowWord_iff hp).mp h).1
  rw [bridge, if_neg hword, if_neg hout]

/-! ### The step of a bus turn -/

section Bus

variable {kh : KeyedHash} {s : State} {a : BusAccess} {rest : List Turn}

theorem stepWith_bus_ok {tx : TxWord} (hs : s.schedule = .bus a :: rest) (hb : bridge s.params a = .ok tx) :
    stepWith kh s = exec (decode tx) { s with schedule := rest } := by
  have ht : (Turn.bus a).transaction s.params = some (decode tx) := by simp [Turn.transaction, hb]
  exact stepWith_transaction hs ht

theorem stepWith_bus_error {r : Refusal} (hs : s.schedule = .bus a :: rest) (hb : bridge s.params a = .error r) :
    stepWith kh s = .refused r := by
  rw [stepWith_of_ne_wait hs Turn.noConfusion]
  simp [takeTurn, hb]

end Bus

/-- Settles O9, from the bridge's three answers. -/
theorem onlyWholeWordAccessesBecomeTransactions : Obligations.OnlyWholeWordAccessesBecomeTransactions := by
  refine fun kh s a rest hp hs => ⟨fun idx haddr hbytes => ?word, fun hlt hgt hnot => ?notWord, fun hout => ?outside⟩
  case word =>
    have hstep := stepWith_bus_ok (kh := kh) hs (bridge_word haddr hbytes)
    exact ⟨fun hwe => by simpa [hwe] using hstep, fun hwe => by simpa [hwe] using hstep⟩
  case notWord => exact stepWith_bus_error hs (bridge_notWord hp (touchesWindow_iff.mpr ⟨hlt, hgt⟩) hnot)
  case outside =>
    have hmiss : ¬ touchesWindow s.params a = true := by
      rw [touchesWindow_iff]
      omega
    exact stepWith_bus_error hs (bridge_outside hp hmiss)

end Sys2Proof.Machine
end

section
/-! PROOF. Transactions and their words (R90 to R101): the decoder's three parts give back what they were given, a command word is one
of seven forms, and the rows of the opcode table are conditions on the three fields of a word. -/

namespace Sys2Proof

/-! ### The decoder's parts -/

theorem decode_read {w : TxWord} (h : txWe w = false) : decode w = decodeRead (txIdx w) := by simp [decode, h]

theorem decode_write {w : TxWord} (h : txWe w = true) : decode w = decodeWrite (txIdx w) (txData w) := by simp [decode, h]

@[simp] theorem decodeWrite_zero (d : Word) : decodeWrite 0#4 d = decodeCommand d := rfl

/-- A read is well formed, names its word and carries the data 0 (R90). -/
theorem decodeRead_encodes (idx : BitVec 4) :
    encodeData (decodeRead idx) = 0#32 ∧ (decodeRead idx).isWrite = false ∧ (decodeRead idx).idx = idx ∧
      (decodeRead idx).wellFormed = true := by
  revert idx
  decide

/-- A write is well formed, names its word and carries its data (R90). -/
theorem decodeWrite_encodes (idx : BitVec 4) (d : Word) :
    encodeData (decodeWrite idx d) = d ∧ (decodeWrite idx d).isWrite = true ∧ (decodeWrite idx d).idx = idx ∧
      (decodeWrite idx d).wellFormed = true := by
  obtain ⟨n⟩ := idx
  fin_cases n
  · exact decodeCommand_encodes d
  all_goals exact ⟨rfl, rfl, rfl, rfl⟩

/-! ### Command words -/

/-- The words of the seven rows of R95. -/
theorem isCommandWord_iff (d : Word) :
    isCommandWord d = true ↔ d = 0#32 ∨ d = 1#32 ∨ d &&& 0xFFFF00FF#32 = 2#32 ∨ d &&& 0xFFFF00FF#32 = 3#32 ∨
      d = 4#32 ∨ d = 5#32 ∨ d = 6#32 := by
  have hfull : d &&& 0xFFFFFFFF#32 = d := BitVec.and_allOnes
  simp [isCommandWord, commandRows, CommandRow.spelledBy, hfull]

theorem decodeCommand_of_not_commandWord {d : Word} (h : isCommandWord d = false) : decodeCommand d = .wrCmdIllegal d := by
  have hnot := mt (isCommandWord_iff d).mpr (by simp [h])
  have hcases := decodeCommand_cases d
  tauto

theorem decodeCommand_of_commandWord {d : Word} (h : isCommandWord d = true) :
    decodeCommand d ∈ [Instr.nop, .keyclr, .b32push (commandOperand d), .rawpush (commandOperand d), .compute, .zeroize, .ack] := by
  rcases decodeCommand_cases d with ⟨-, hi⟩ | ⟨-, hi⟩ | ⟨-, hi⟩ | ⟨-, hi⟩ | ⟨-, hi⟩ | ⟨-, hi⟩ | ⟨-, hi⟩ | ⟨hnot, -⟩
  case inr.inr.inr.inr.inr.inr.inr => exact absurd h (by simp [hnot])
  all_goals simp [hi]

theorem decodeCommand_eq_illegal_iff (d : Word) : decodeCommand d = .wrCmdIllegal d ↔ isCommandWord d = false := by
  refine ⟨fun hi => ?_, decodeCommand_of_not_commandWord⟩
  cases hd : isCommandWord d with
  | false => rfl
  | true => exact absurd (hi ▸ decodeCommand_of_commandWord hd) (by simp)

/-- Settles O1: the decoder takes the three fields the encoder put together, and the two operands of format C come back from their
command words. -/
theorem decodeOfEncodeIsIdentity : Obligations.DecodeOfEncodeIsIdentity := by
  intro i hwf
  rw [encode, decode_txOf]
  cases i
  case b32push ch => exact (decodeCommand_commandWordC ch).1
  case rawpush b => exact (decodeCommand_commandWordC b).2
  case wrCmdIllegal d => exact decodeCommand_of_not_commandWord ((Bool.not_eq_true' _).mp hwf)
  all_goals rfl

theorem decode_encode {i : Instr} (h : i.wellFormed = true) : decode (encode i) = i := decodeOfEncodeIsIdentity i h

/-- Settles O2: the fields of the decoded transaction are those of the word, but for the data of a read. -/
theorem encodeOfDecodeIsTheCanonicalWord : Obligations.EncodeOfDecodeIsTheCanonicalWord := by
  intro w
  cases hwe : txWe w with
  | false =>
    obtain ⟨hdata, hwrite, hidx, hwf⟩ := decodeRead_encodes (txIdx w)
    rw [decode_read hwe, encode, hdata, hwrite, hidx]
    exact ⟨hwf, rfl⟩
  | true =>
    obtain ⟨hdata, hwrite, hidx, hwf⟩ := decodeWrite_encodes (txIdx w) (txData w)
    have hfields : txOf true (txIdx w) (txData w) = w := hwe ▸ txOf_fields w
    rw [decode_write hwe, encode, hdata, hwrite, hidx, hfields]
    exact ⟨hwf, rfl⟩

/-- Settles O3, from the decoder's three parts. -/
theorem decoderFollowsWriteBitAndIndex : Obligations.DecoderFollowsWriteBitAndIndex := by
  refine fun w => ⟨fun hwe => ?read, fun hwe hidx => ⟨fun hd => ?command, fun hd => ?illegal⟩, fun hwe hidx => ?write⟩
  case read =>
    rw [decode_read hwe]
    generalize txIdx w = idx
    revert idx
    decide
  case command =>
    rw [decode_write hwe, hidx]
    exact ⟨decodeCommand_of_commandWord hd, (decodeCommand_encodes (txData w)).1⟩
  case illegal =>
    rw [decode_write hwe, hidx]
    exact decodeCommand_of_not_commandWord hd
  case write =>
    rw [decode_write hwe]
    generalize txIdx w = idx at hidx
    obtain ⟨n⟩ := idx
    fin_cases n
    · exact absurd rfl hidx
    all_goals rfl

/-- Settles O6: ten fixed words. -/
theorem sampleWordsDecode : Obligations.SampleWordsDecode := by
  unfold Obligations.SampleWordsDecode
  decide

/-! ### The rows of the opcode table -/

/-- A row's condition, field by field. -/
theorem matchedBy_iff (r : OpcodeRow) (w : TxWord) :
    r.matchedBy w = true ↔ (txWe w && txWe r.mask) = txWe r.pattern ∧ txIdx w &&& txIdx r.mask = txIdx r.pattern ∧
      txData w &&& txData r.mask = txData r.pattern := by
  have hwe : txWe (w &&& r.mask) = (txWe w && txWe r.mask) := BitVec.getLsbD_and
  have hidx : txIdx (w &&& r.mask) = txIdx w &&& txIdx r.mask := BitVec.extractLsb'_and
  have hdata : txData (w &&& r.mask) = txData w &&& txData r.mask := BitVec.extractLsb'_and
  rw [OpcodeRow.matchedBy, beq_iff_eq, ← hwe, ← hidx, ← hdata]
  exact ⟨fun h => h ▸ ⟨rfl, rfl, rfl⟩, fun ⟨h1, h2, h3⟩ => tx_ext h1 h2 h3⟩

/-- The rows of whole words, and the catch-all row, look at the write bit and the index. -/
theorem matchedBy_word_iff {r : OpcodeRow} (hr : r ∈ catchAllRow :: readRows ++ writeRows) (w : TxWord) :
    r.matchedBy w = true ↔ txWe w = txWe r.pattern ∧ txIdx w = txIdx r.pattern := by
  have hfields : ∀ r ∈ catchAllRow :: readRows ++ writeRows,
      txWe r.mask = true ∧ txIdx r.mask = 15#4 ∧ txData r.mask = 0#32 ∧ txData r.pattern = 0#32 := by decide
  obtain ⟨hwe, hidx, hmask, hpattern⟩ := hfields r hr
  have hall : txIdx w &&& 15#4 = txIdx w := BitVec.and_allOnes
  simp [matchedBy_iff, hwe, hidx, hmask, hpattern, hall]

/-- The command rows are writes of word 0 whose data spells the command by a row of R95. -/
theorem matchedBy_command_iff {r : OpcodeRow} (hr : r ∈ commandTableRows) (w : TxWord) :
    r.matchedBy w = true ↔
      txWe w = true ∧ txIdx w = 0#4 ∧ (CommandRow.mk (txData r.mask) (txData r.pattern)).spelledBy (txData w) = true := by
  have hfields : ∀ r ∈ commandTableRows,
      txWe r.mask = true ∧ txIdx r.mask = 15#4 ∧ txWe r.pattern = true ∧ txIdx r.pattern = 0#4 := by decide
  obtain ⟨hwe, hidx, hpwe, hpidx⟩ := hfields r hr
  have hall : txIdx w &&& 15#4 = txIdx w := BitVec.and_allOnes
  simp [matchedBy_iff, CommandRow.spelledBy, hwe, hidx, hpwe, hpidx, hall]

/-- A write of another word has the same name whatever its data is. -/
theorem mnemonic_decodeWrite {idx : BitVec 4} (h : idx ≠ 0#4) (d : Word) :
    (decodeWrite idx d).mnemonic = (decodeWrite idx 0#32).mnemonic := by
  obtain ⟨n⟩ := idx
  fin_cases n
  · exact absurd rfl h
  all_goals rfl

/-- A word that spells a row's command decodes to that command. -/
theorem mnemonic_decodeCommand {r : OpcodeRow} (hr : r ∈ commandTableRows) {d : Word}
    (hd : (CommandRow.mk (txData r.mask) (txData r.pattern)).spelledBy d = true) :
    (decodeCommand d).mnemonic = r.mnemonic := by
  have hall : d &&& 0xFFFFFFFF#32 = d := BitVec.and_allOnes
  simp only [CommandRow.spelledBy, beq_iff_eq] at hd
  simp only [commandTableRows, List.mem_cons, List.not_mem_nil, or_false] at hr
  rcases hr with rfl | rfl | rfl | rfl | rfl | rfl | rfl
  case inr.inr.inl =>
    rw [← commandWordC_of_mask (op := 2#8) hd, (decodeCommand_commandWordC _).1]
    rfl
  case inr.inr.inr.inl =>
    rw [← commandWordC_of_mask (op := 3#8) hd, (decodeCommand_commandWordC _).2]
    rfl
  all_goals
    obtain rfl := hall.symm.trans hd
    rfl

/-- A row's word decodes to an instruction of the row's name. -/
theorem mnemonic_of_matchedBy {r : OpcodeRow} (hr : r ∈ opcodeRows) {w : TxWord} (hw : r.matchedBy w = true) :
    (decode w).mnemonic = r.mnemonic := by
  rw [opcodeRows, List.mem_append, List.mem_append] at hr
  rcases hr with (hr | hr) | hr
  · have hrow : ∀ r ∈ readRows, txWe r.pattern = false ∧ (decodeRead (txIdx r.pattern)).mnemonic = r.mnemonic := by decide
    obtain ⟨hwe, hidx⟩ := (matchedBy_word_iff (by simp [hr]) w).mp hw
    rw [decode_read (hwe.trans (hrow r hr).1), hidx]
    exact (hrow r hr).2
  · have hrow : ∀ r ∈ writeRows, txWe r.pattern = true ∧ txIdx r.pattern ≠ 0#4 ∧
        (decodeWrite (txIdx r.pattern) 0#32).mnemonic = r.mnemonic := by decide
    obtain ⟨hpwe, hpidx, hname⟩ := hrow r hr
    obtain ⟨hwe, hidx⟩ := (matchedBy_word_iff (by simp [hr]) w).mp hw
    rw [decode_write (hwe.trans hpwe), hidx, mnemonic_decodeWrite hpidx, hname]
  · obtain ⟨hwe, hidx, hd⟩ := (matchedBy_command_iff hr w).mp hw
    rw [decode_write hwe, hidx]
    exact mnemonic_decodeCommand hr hd

/-- A word of none of the 38 rows is a write of word 0 that spells no command. -/
theorem illegalCommand_of_no_row {w : TxWord} (h : ∀ r ∈ opcodeRows, r.matchedBy w = false) :
    txWe w = true ∧ txIdx w = 0#4 ∧ isCommandWord (txData w) = false := by
  have hnone : ∀ r ∈ opcodeRows, ¬ r.matchedBy w = true := fun r hr => by simp [h r hr]
  have hwe : txWe w = true := by
    by_contra hread
    have hrow : ∀ idx : BitVec 4, ∃ r ∈ readRows, txWe r.pattern = false ∧ idx = txIdx r.pattern := by decide
    obtain ⟨r, hr, hpwe, hidx⟩ := hrow (txIdx w)
    exact hnone r (by simp [opcodeRows, hr]) ((matchedBy_word_iff (by simp [hr]) w).mpr ⟨by simp [hread, hpwe], hidx⟩)
  have hidx : txIdx w = 0#4 := by
    by_contra hidx
    have hrow : ∀ idx : BitVec 4, idx ≠ 0#4 → ∃ r ∈ writeRows, txWe r.pattern = true ∧ idx = txIdx r.pattern := by decide
    obtain ⟨r, hr, hpwe, hidx⟩ := hrow (txIdx w) hidx
    exact hnone r (by simp [opcodeRows, hr]) ((matchedBy_word_iff (by simp [hr]) w).mpr ⟨hwe.trans hpwe.symm, hidx⟩)
  refine ⟨hwe, hidx, ?_⟩
  by_contra hd
  have hrows : commandRows = commandTableRows.map fun r => ⟨txData r.mask, txData r.pattern⟩ := by decide
  rw [Bool.not_eq_false, isCommandWord, hrows, List.any_map, List.any_eq_true] at hd
  obtain ⟨r, hr, hspelled⟩ := hd
  exact hnone r (by simp [opcodeRows, hr]) ((matchedBy_command_iff hr w).mpr ⟨hwe, hidx, hspelled⟩)

/-- Settles O5: each row's condition fixes the branch of the decoder, and what no row takes is an illegal command word. -/
theorem decodeAgreesWithTheOpcodeTable : Obligations.DecodeAgreesWithTheOpcodeTable := by
  refine fun w => ⟨fun r hr => mnemonic_of_matchedBy hr, fun hnone => ?_⟩
  obtain ⟨hwe, hidx, hd⟩ := illegalCommand_of_no_row hnone
  refine ⟨(matchedBy_word_iff (by simp) w).mpr ⟨hwe, hidx⟩, ?_⟩
  rw [decode_write hwe, hidx, decodeWrite_zero, decodeCommand_of_not_commandWord hd]
  rfl

/-! ### Illegal transactions -/

theorem commandWordC_toNat (op ch : Byte) : (commandWordC op ch).toNat = ch.toNat * 256 + op.toNat := by
  show (0#16 ++ ch ++ op : BitVec (16 + 8 + 8)).toNat = _
  have hop := op.isLt
  have hhigh : (0#16 ++ ch : BitVec (16 + 8)).toNat = ch.toNat := by
    rw [BitVec.toNat_append]
    simp
  rw [BitVec.toNat_append, ← Nat.shiftLeft_add_eq_or_of_lt hop, Nat.shiftLeft_eq, hhigh]

/-- The words of format C with an operand are those with the opcode in bits 7:0 and 0 in bits 31:16 (R91). -/
theorem exists_commandWordC_iff (op : Byte) (d : Word) :
    (∃ ch, commandWordC op ch = d) ↔ d.toNat % 256 = op.toNat ∧ d.toNat / 65536 = 0 := by
  have hop := op.isLt
  constructor
  · rintro ⟨ch, rfl⟩
    have hch := ch.isLt
    rw [commandWordC_toNat]
    omega
  · rintro ⟨hlow, hhigh⟩
    refine ⟨BitVec.ofNat 8 (d.toNat / 256), BitVec.eq_of_toNat_eq ?_⟩
    rw [commandWordC_toNat, BitVec.toNat_ofNat]
    omega

/-- The masks of B32PUSH and RAWPUSH (R95), as arithmetic. -/
theorem maskedCommand_iff (d : Word) :
    (d &&& 0xFFFF00FF#32 = 2#32 ↔ d.toNat % 256 = 2 ∧ d.toNat / 65536 = 0) ∧
    (d &&& 0xFFFF00FF#32 = 3#32 ↔ d.toNat % 256 = 3 ∧ d.toNat / 65536 = 0) := by
  have hmask : ∀ ch, commandWordC 2#8 ch &&& 0xFFFF00FF#32 = 2#32 ∧ commandWordC 3#8 ch &&& 0xFFFF00FF#32 = 3#32 := by decide
  refine ⟨Iff.trans ⟨fun h => ⟨_, commandWordC_of_mask (op := 2#8) h⟩, ?_⟩ (exists_commandWordC_iff 2#8 d),
    Iff.trans ⟨fun h => ⟨_, commandWordC_of_mask (op := 3#8) h⟩, ?_⟩ (exists_commandWordC_iff 3#8 d)⟩
  · rintro ⟨ch, rfl⟩
    exact (hmask ch).1
  · rintro ⟨ch, rfl⟩
    exact (hmask ch).2

/-- R96's list of the illegal command words. -/
theorem not_commandWord_iff (d : Word) :
    isCommandWord d = false ↔
      (7 ≤ d.toNat % 256 ∨ (d.toNat % 256 ∈ [0, 1, 4, 5, 6] ∧ d.toNat / 256 ≠ 0) ∨
        (d.toNat % 256 ∈ [2, 3] ∧ d.toNat / 65536 ≠ 0)) := by
  rw [← Bool.not_eq_true, isCommandWord_iff, (maskedCommand_iff d).1, (maskedCommand_iff d).2]
  simp only [BitVec.toNat_eq, BitVec.toNat_ofNat, List.mem_cons, List.not_mem_nil, or_false]
  omega

end Sys2Proof

namespace Sys2Proof.Machine

/-- An illegal command word is discarded in every phase (R96, R122). -/
theorem execWrCmdIllegal_eq_discard (d : Word) (s : State) : execWrCmdIllegal d s = .next (discard s) :=
  illegalWrite_eq_discard s

/-- The writes of read-only and reserved words (R68, R124). -/
theorem exec_decodeWrite_readOnly {idx : BitVec 4} (h : idx.toNat ∈ [1, 3, 10, 11, 12, 13, 14, 15]) (d : Word) (s : State) :
    exec (decodeWrite idx d) s = illegalWrite s := by
  simp only [List.mem_cons, List.not_mem_nil, or_false] at h
  unfold decodeWrite
  rcases h with h | h | h | h | h | h | h | h <;> rw [h] <;> rfl

/-- Every read is answered (R96, R120). -/
theorem exec_read {i : Instr} (h : i.isWrite = false) (s : State) : exec i s = .next (reply (regRead i.idx s) s) := by
  cases i
  case rdCmd | rdStatus | rdDigits | rdKeyLen | rdEpochLo | rdEpochHi | rdIntervalLo | rdIntervalHi | rdTimeLo | rdTimeHi
      | rdCounterLo | rdCounterHi | rdCode | rdConfig | rdW14 | rdW15 => rfl
  all_goals exact absurd h.symm Bool.false_ne_true

/-- Settles O4: R96's list, and the discarded write. -/
theorem illegalCommandWordsAreDiscarded : Obligations.IllegalCommandWordsAreDiscarded := by
  refine fun d => ⟨?_, fun s => ⟨execWrCmdIllegal_eq_discard d s, fun idx hidx => ?_, fun idx => ?_⟩⟩
  · rw [decode_txOf, if_pos rfl, decodeWrite_zero, decodeCommand_eq_illegal_iff, not_commandWord_iff]
  · rw [decode_txOf, if_pos rfl, exec_decodeWrite_readOnly hidx, illegalWrite_eq_discard]
    rfl
  · obtain ⟨-, hread, -, -⟩ := decodeRead_encodes idx
    rw [decode_txOf, if_neg Bool.false_ne_true]
    exact ⟨_, exec_read hread s⟩

end Sys2Proof.Machine
end

section
/-! PROOF. Runs over a schedule whose first turns are known: the agents' turns as updates, transactions carried out one after the
other, and what a `WAIT` reads (R100, R180, R204, R292). -/

namespace Sys2Proof.Machine

/-! ### The agents' turns as updates -/

/-- `s` with other turns to come and other replies given. -/
def State.placed (s : State) (turns : List Turn) (replies : List Word) : State :=
  { s with schedule := turns, replies := replies }

theorem State.eq_placed {s : State} {turns : List Turn} (h : s.schedule = turns) : s = s.placed turns s.replies := by
  subst h
  rfl

/-- The unit's turn: its answer where it is enabled, and nothing elsewhere (R204; log 5). -/
def afterUnit (kh : KeyedHash) (s : State) : State := if s.phase = .hash then answerRequest kh s else s

/-- The sequencer's turn: the truncation step where it is enabled, and nothing elsewhere (R180; log 5). -/
def afterSequencer (s : State) : State := if s.phase = .trunc then truncateDigest s else s

/-- The unit's turn and then the sequencer's (R185). -/
def afterDerivation (kh : KeyedHash) (s : State) : State := afterSequencer (afterUnit kh s)

theorem keyedHashTurn_eq_afterUnit {kh : KeyedHash} {s : State} (h : s.keyLen ≤ s.params.keyMax) :
    keyedHashTurn kh s = .next (afterUnit kh s) := by
  by_cases hp : s.phase = .hash
  · simp [keyedHashTurn, afterUnit, hp, h]
  · rw [keyedHashTurn_passes hp, afterUnit, if_neg hp]

theorem sequencerTurn_eq_afterSequencer (s : State) : sequencerTurn s = .next (afterSequencer s) := by
  by_cases hp : s.phase = .trunc
  · rw [sequencerTurn_trunc hp, afterSequencer, if_pos hp]
  · rw [sequencerTurn_passes hp, afterSequencer, if_neg hp]

theorem afterUnit_placed (kh : KeyedHash) (s : State) (turns : List Turn) (replies : List Word) :
    afterUnit kh (s.placed turns replies) = (afterUnit kh s).placed turns replies :=
  (apply_ite (fun u : State => u.placed turns replies) (s.phase = .hash) (answerRequest kh s) s).symm

theorem afterSequencer_placed (s : State) (turns : List Turn) (replies : List Word) :
    afterSequencer (s.placed turns replies) = (afterSequencer s).placed turns replies :=
  (apply_ite (fun u : State => u.placed turns replies) (s.phase = .trunc) (truncateDigest s) s).symm

theorem afterDerivation_of_hash (kh : KeyedHash) {s : State} (h : s.phase = .hash) :
    afterDerivation kh s = truncateDigest (answerRequest kh s) := by
  simp [afterDerivation, afterSequencer, afterUnit, h]

theorem afterDerivation_of_idle (kh : KeyedHash) {s : State} (h : s.phase = .idle) : afterDerivation kh s = s := by
  simp [afterDerivation, afterSequencer, afterUnit, h]

/-- The truncation step writes R179's code. -/
theorem truncateDigest_code_toNat (s : State) : (truncateDigest s).code.toNat = codeOfDigest s.digest s.digits.toNat := by
  rw [truncateDigest_code, reduceCode_toNat (truncatedValue_lt _), truncatedValue_toNat]
  rfl

/-! ### One step -/

section Steps

variable {kh : KeyedHash} {s : State} {rest : List Turn} {replies : List Word}

theorem stepWith_unit (h : s.keyLen ≤ s.params.keyMax) :
    stepWith kh (s.placed (.keyedHash :: rest) replies) = .next ((afterUnit kh s).placed rest replies) := by
  rw [stepWith_of_ne_wait rfl Turn.noConfusion, ← afterUnit_placed]
  exact keyedHashTurn_eq_afterUnit (s := s.placed rest replies) h

theorem stepWith_sequencer (kh : KeyedHash) (s : State) (rest : List Turn) (replies : List Word) :
    stepWith kh (s.placed (.sequencer :: rest) replies) = .next ((afterSequencer s).placed rest replies) := by
  rw [stepWith_of_ne_wait rfl Turn.noConfusion, ← afterSequencer_placed]
  exact sequencerTurn_eq_afterSequencer (s.placed rest replies)

theorem stepWith_wait :
    stepWith kh (s.placed (.wait :: rest) replies) = .next (s.placed (scheduleAfter s .wait rest) (statusWord s :: replies)) :=
  rfl

theorem stepWith_wait_idle (h : s.phase = .idle) :
    stepWith kh (s.placed (.wait :: rest) replies) = .next (s.placed rest (statusWord s :: replies)) := by
  rw [stepWith_wait, scheduleAfter_eq_rest rest (.inr h)]

theorem stepWith_wait_busy (h : s.phase ≠ .idle) :
    stepWith kh (s.placed (.wait :: rest) replies) = .next (s.placed (holdHost rest) (statusWord s :: replies)) := by
  rw [stepWith_wait, scheduleAfter_wait_busy rest (busy_eq_true_of_not_idle h)]

end Steps

/-- Settles O57: what the poll reads is `BUSY`, and `holdHost` says which turn passes the held host. -/
theorem waitHoldsTheHost : Obligations.WaitHoldsTheHost := by
  intro kh s rest hs
  have hstep : stepWith kh s = stepWith kh (s.placed (.wait :: rest) s.replies) := by rw [← State.eq_placed hs]
  refine ⟨fun hp => ⟨?_, hstep.trans (stepWith_wait_idle hp)⟩,
    fun hp => ⟨?_, fun pre a post hrest hpre ha => ?_, fun hrest => ?_⟩⟩
  · exact (statusWord_busy s).trans (busy_eq_false_of_idle hp)
  · exact (statusWord_busy s).trans (busy_eq_true_of_not_idle hp)
  · rw [hstep, stepWith_wait_busy hp, hrest, holdHost_append hpre ha]
    rfl
  · rw [hstep, stepWith_wait_busy hp, holdHost_of_hostTurns hrest]
    rfl

/-- A `WAIT` in `HASH`: the poll, the unit's answer, the poll, the truncation step, the poll (R292; log 15). -/
theorem runWith_wait_of_hash {kh : KeyedHash} {s : State} {hs₁ hs₂ : List Turn} (rest : List Turn) (replies : List Word)
    (hp : s.phase = .hash) (hk : s.keyLen ≤ s.params.keyMax) (h₁ : ∀ x ∈ hs₁, x.isHost = true)
    (h₂ : ∀ x ∈ hs₂, x.isHost = true) :
    runWith kh 5 (s.placed (.wait :: (hs₁ ++ .keyedHash :: (hs₂ ++ .sequencer :: rest))) replies) =
      .next ((afterDerivation kh s).placed (hs₁ ++ hs₂ ++ rest)
        (statusWord (afterDerivation kh s) :: statusWord (answerRequest kh s) :: statusWord s :: replies)) := by
  have hunit : afterUnit kh s = answerRequest kh s := if_pos hp
  have hhold₁ : holdHost (hs₁ ++ .keyedHash :: (hs₂ ++ .sequencer :: rest)) =
      .keyedHash :: .wait :: (hs₁ ++ hs₂ ++ .sequencer :: rest) := by
    rw [holdHost_append h₁ rfl, List.append_assoc]
  have hhold₂ : holdHost (hs₁ ++ hs₂ ++ .sequencer :: rest) = .sequencer :: .wait :: (hs₁ ++ hs₂ ++ rest) :=
    holdHost_append (by simpa [or_imp, forall_and] using ⟨h₁, h₂⟩) rfl
  have hidle : (afterDerivation kh s).phase = .idle := by simp [afterDerivation_of_hash kh hp]
  have hbusy : s.phase ≠ .idle := by simp [hp]
  have htrunc : (answerRequest kh s).phase ≠ .idle := by simp
  rw [runWith_succ (stepWith_wait_busy hbusy), hhold₁, runWith_succ (stepWith_unit hk), hunit,
    runWith_succ (stepWith_wait_busy htrunc), hhold₂, runWith_succ (stepWith_sequencer _ _ _ _), ← hunit]
  exact runWith_succ (stepWith_wait_idle hidle)

/-- Settles O58: the three polls read `BUSY` in `HASH`, in `TRUNC` and in `IDLE`. -/
theorem waitEndsWithTheDerivation : Obligations.WaitEndsWithTheDerivation := by
  intro kh s hs₁ hs₂ rest hp hk h₁ h₂ hs
  have hs' : s.schedule = .wait :: (hs₁ ++ .keyedHash :: (hs₂ ++ .sequencer :: rest)) := by simpa using hs
  have hrun := runWith_wait_of_hash (kh := kh) rest s.replies hp hk h₁ h₂
  rw [← State.eq_placed hs'] at hrun
  have hd := afterDerivation_of_hash kh hp
  refine ⟨_, _, _, _, hrun, congrArg State.phase hd, congrArg State.done hd, rfl, rfl, ?_, ?_, ?_, ?_, ?_⟩
  · rw [statusWord_busy, busy_eq_true_iff]
    exact .inl hp
  · rw [statusWord_busy]
    rfl
  · rw [statusWord_busy, hd]
    rfl
  · rw [(statusWord_flags _).1, hd]
    rfl
  · exact (congrArg (fun u : State => u.code.toNat) hd).trans (truncateDigest_code_toNat _)

end Sys2Proof.Machine
end

section
/-! PROOF. Bit strings cut into bytes (R142, R148): the whole bytes, the bits that complete none, and what five more bits do. -/

namespace Sys2Proof.Machine

/-- The bits that complete no byte (R142, R148). -/
def pendingBits (bits : List Bool) : List Bool := bits.drop (8 * (bits.length / 8))

theorem pendingBits_length (bits : List Bool) : (pendingBits bits).length = bits.length % 8 := by
  rw [pendingBits, List.length_drop]
  omega

theorem pendingBits_of_lt {bits : List Bool} (h : bits.length < 8) : pendingBits bits = bits := by
  simp [pendingBits, Nat.div_eq_of_lt h]

theorem bytesOfBits_of_lt {bits : List Bool} (h : bits.length < 8) : bytesOfBits bits = [] := by
  unfold bytesOfBits
  split
  · simp only [List.length_cons] at h
    omega
  · rfl

theorem bytesOfBits_octet_append {octet : List Bool} (h : octet.length = 8) (bits : List Bool) :
    bytesOfBits (octet ++ bits) = BitVec.ofNat 8 (numberOfBits octet) :: bytesOfBits bits :=
  match octet, h with
  | [_, _, _, _, _, _, _, _], _ => rfl

theorem pendingBits_octet_append {octet : List Bool} (h : octet.length = 8) (bits : List Bool) :
    pendingBits (octet ++ bits) = pendingBits bits := by
  have hdiv : 8 * ((octet ++ bits).length / 8) = octet.length + 8 * (bits.length / 8) := by
    rw [List.length_append, h]
    omega
  rw [pendingBits, hdiv, List.drop_length_add_append, pendingBits]

/-- Induction on the whole bytes of a bit string. -/
theorem octets_induction {P : List Bool → Prop} (short : ∀ bits, bits.length < 8 → P bits)
    (octet : ∀ octet bits, octet.length = 8 → P bits → P (octet ++ bits)) (bits : List Bool) : P bits := by
  by_cases h : bits.length < 8
  · exact short bits h
  · rw [← List.take_append_drop 8 bits]
    exact octet _ _ (by rw [List.length_take]; omega) (octets_induction short octet (bits.drop 8))
termination_by bits.length
decreasing_by
  rw [List.length_drop]
  omega

theorem bytesOfBits_length (bits : List Bool) : (bytesOfBits bits).length = bits.length / 8 := by
  induction bits using octets_induction with
  | short bits h => simp [bytesOfBits_of_lt h, Nat.div_eq_of_lt h]
  | octet octet bits h ih =>
    rw [bytesOfBits_octet_append h, List.length_cons, ih, List.length_append, h]
    omega

/-- More bits go behind the pending ones. -/
theorem bytesOfBits_append (bits more : List Bool) :
    bytesOfBits (bits ++ more) = bytesOfBits bits ++ bytesOfBits (pendingBits bits ++ more) := by
  induction bits using octets_induction with
  | short bits h => rw [bytesOfBits_of_lt h, pendingBits_of_lt h, List.nil_append]
  | octet octet bits h ih =>
    rw [List.append_assoc, bytesOfBits_octet_append h, bytesOfBits_octet_append h, pendingBits_octet_append h, ih, List.cons_append]

theorem pendingBits_append (bits more : List Bool) : pendingBits (bits ++ more) = pendingBits (pendingBits bits ++ more) := by
  induction bits using octets_induction with
  | short bits h => rw [pendingBits_of_lt h]
  | octet octet bits h ih => rw [List.append_assoc, pendingBits_octet_append h, pendingBits_octet_append h, ih]

/-! ### Bit strings as numbers -/

theorem numberOfBits_concat (bits : List Bool) (b : Bool) : numberOfBits (bits ++ [b]) = 2 * numberOfBits bits + b.toNat := by
  simp [numberOfBits]

theorem numberOfBits_append (bits more : List Bool) :
    numberOfBits (bits ++ more) = numberOfBits bits * 2 ^ more.length + numberOfBits more := by
  induction more using List.reverseRecOn with
  | nil => simp [numberOfBits]
  | append_singleton more b ih =>
    rw [← List.append_assoc, numberOfBits_concat, ih, numberOfBits_concat, List.length_append, List.length_singleton, Nat.pow_succ]
    ring

theorem numberOfBits_lt (bits : List Bool) : numberOfBits bits < 2 ^ bits.length := by
  induction bits using List.reverseRecOn with
  | nil => simp [numberOfBits]
  | append_singleton bits b ih =>
    have hb := b.toNat_lt
    rw [numberOfBits_concat, List.length_append, List.length_singleton, Nat.pow_succ]
    omega

theorem numberOfBits_valueBits (v : BitVec 5) : numberOfBits (valueBits v) = v.toNat := by
  revert v
  decide

@[simp] theorem valueBits_length (v : BitVec 5) : (valueBits v).length = 5 := rfl

/-! ### Texts -/

theorem textBits_cons_eq_some {c : Byte} {text : Text} {bits : List Bool} (h : textBits (c :: text) = some bits) :
    ∃ v more, alphabetValue c = some v ∧ textBits text = some more ∧ bits = valueBits v ++ more := by
  unfold textBits at h
  split at h
  · rename_i v more hv hmore
    exact ⟨v, more, hv, hmore, (Option.some.inj h).symm⟩
  · simp at h

/-- Five bits a character (R142). -/
theorem textBits_length {text : Text} {bits : List Bool} (h : textBits text = some bits) : bits.length = 5 * text.length := by
  induction text generalizing bits with
  | nil => simp_all [textBits]
  | cons c text ih =>
    obtain ⟨v, more, -, hmore, rfl⟩ := textBits_cons_eq_some h
    rw [List.length_append, valueBits_length, ih hmore, List.length_cons]
    omega

theorem decodeText_eq_some {text : Text} {key : List Byte} (h : decodeText text = some key) :
    ∃ bits, textBits text = some bits ∧ bytesOfBits bits = key :=
  Option.map_eq_some_iff.mp h

end Sys2Proof.Machine
end

section
/-! PROOF. The Secret Decoder as a function (R147 to R149): a push as an update of an idle state, a text as the updates of its
characters, and what the state then holds of the text's bits. -/

namespace Sys2Proof.Machine

/-- The next state of a B32PUSH in an idle state with `KEY_LEN <= KEY_MAX` (R148). -/
def afterPush (ch : Byte) (s : State) : State :=
  if s.derr || s.kovf then s
  else match alphabetValue ch with
    | none => { s with derr := true }
    | some v =>
      if bitsAfterPush s < 8 then absorbBits v s
      else if s.keyLen = s.params.keyMax then { s with kovf := true }
      else emitByte v s

/-- The pushes of a text, in order. -/
def afterText (text : Text) (s : State) : State := text.foldl (fun t ch => afterPush ch t) s

@[simp] theorem afterText_cons (ch : Byte) (text : Text) (s : State) :
    afterText (ch :: text) s = afterText text (afterPush ch s) := rfl

theorem afterText_append (text more : Text) (s : State) : afterText (text ++ more) s = afterText more (afterText text s) :=
  List.foldl_append

section Push

variable {s : State} {ch : Byte}

theorem afterPush_failed (h : s.derr = true ∨ s.kovf = true) : afterPush ch s = s := if_pos (by simpa using h)

theorem afterPush_invalid (hd : s.derr = false) (hk : s.kovf = false) (hch : alphabetValue ch = none) :
    afterPush ch s = { s with derr := true } := by
  simp [afterPush, hd, hk, hch]

theorem afterPush_valid {v : BitVec 5} (hd : s.derr = false) (hk : s.kovf = false) (hch : alphabetValue ch = some v) :
    afterPush ch s = if bitsAfterPush s < 8 then absorbBits v s
      else if s.keyLen = s.params.keyMax then { s with kovf := true } else emitByte v s := by
  simp [afterPush, hd, hk, hch]

/-- `B32PUSH` is `afterPush`. -/
theorem exec_b32push (hp : s.phase = .idle) (hlen : s.keyLen ≤ s.params.keyMax) :
    exec (.b32push ch) s = .next (afterPush ch s) := by
  have hexec : exec (.b32push ch) s = whenSessionClean (pushCharacter ch) s := whenIdle_idle hp
  rw [hexec]
  by_cases hf : s.derr = true ∨ s.kovf = true
  · rw [whenSessionClean_failed hf, afterPush_failed hf]
  · obtain ⟨hd, hk⟩ : s.derr = false ∧ s.kovf = false := by simpa using hf
    rw [whenSessionClean_clean hd hk, pushCharacter]
    cases hch : alphabetValue ch with
    | none => rw [afterPush_invalid hd hk hch]
    | some v =>
      rw [afterPush_valid hd hk hch]
      simp only [pushBits]
      split
      · rfl
      · split
        · rename_i hfull
          exact whenKeyRoom_full hfull
        · rename_i hroom
          exact whenKeyRoom_room (BitVec.lt_of_le_ne hlen hroom)

/-- What a session does not touch: `s` with the elements of the decoder blanked (R28 to R31, R40, R41). -/
def State.outsideSession (s : State) : State :=
  { s with key := [], keyLen := 0#16, acc := 0#7, nbits := 0#3, derr := false, kovf := false }

/-- What a push can do. -/
theorem afterPush_cases (ch : Byte) (s : State) :
    afterPush ch s = s ∨ afterPush ch s = { s with derr := true } ∨ (∃ v, afterPush ch s = absorbBits v s) ∨
      afterPush ch s = { s with kovf := true } ∨ ∃ v, s.keyLen ≠ s.params.keyMax ∧ afterPush ch s = emitByte v s := by
  by_cases hf : s.derr = true ∨ s.kovf = true
  · exact .inl (afterPush_failed hf)
  · obtain ⟨hd, hk⟩ : s.derr = false ∧ s.kovf = false := by simpa using hf
    cases hch : alphabetValue ch with
    | none => exact .inr (.inl (afterPush_invalid hd hk hch))
    | some v =>
      rw [afterPush_valid hd hk hch]
      split
      · exact .inr (.inr (.inl ⟨v, rfl⟩))
      · split
        · exact .inr (.inr (.inr (.inl rfl)))
        · rename_i hroom
          exact .inr (.inr (.inr (.inr ⟨v, hroom, rfl⟩)))

theorem State.params_eq_of_outsideSession {s t : State} (h : s.outsideSession = t.outsideSession) : s.params = t.params :=
  (congrArg State.params h :)

theorem afterPush_outsideSession (ch : Byte) (s : State) : (afterPush ch s).outsideSession = s.outsideSession := by
  rcases afterPush_cases ch s with h | h | ⟨v, h⟩ | h | ⟨v, -, h⟩ <;> rw [h] <;> rfl

@[simp] theorem afterPush_params (ch : Byte) (s : State) : (afterPush ch s).params = s.params :=
  State.params_eq_of_outsideSession (afterPush_outsideSession ch s)

/-- A push keeps `KEY_LEN <= KEY_MAX` (R44 a). -/
theorem afterPush_keyLen_le (hlen : s.keyLen ≤ s.params.keyMax) : (afterPush ch s).keyLen ≤ s.params.keyMax := by
  rcases afterPush_cases ch s with h | h | ⟨v, h⟩ | h | ⟨v, hroom, h⟩ <;> rw [h]
  case inr.inr.inr.inr =>
    have hlt : s.keyLen < s.params.keyMax := BitVec.lt_of_le_ne hlen hroom
    exact (keyLen_succ_toNat hlt).trans_le hlt
  all_goals exact hlen

theorem afterText_outsideSession (text : Text) (s : State) : (afterText text s).outsideSession = s.outsideSession := by
  induction text generalizing s with
  | nil => rfl
  | cons ch text ih => exact (ih (afterPush ch s)).trans (afterPush_outsideSession ch s)

@[simp] theorem afterText_params (text : Text) (s : State) : (afterText text s).params = s.params :=
  State.params_eq_of_outsideSession (afterText_outsideSession text s)

theorem afterText_keyLen_le (text : Text) (hlen : s.keyLen ≤ s.params.keyMax) : (afterText text s).keyLen ≤ s.params.keyMax := by
  induction text generalizing s with
  | nil => exact hlen
  | cons ch text ih => simpa using ih (s := afterPush ch s) (by simpa using afterPush_keyLen_le hlen)

theorem afterText_failed (text : Text) (h : s.derr = true ∨ s.kovf = true) : afterText text s = s := by
  induction text with
  | nil => rfl
  | cons ch text ih => rw [afterText_cons, afterPush_failed h, ih]

end Push

/-! ### What the decoder holds of a bit string -/

/-- A byte stored at `KEY_LEN` is the next byte of the request's key. -/
theorem requestKey_storeKeyByte {s : State} (hwf : Memory.wf s.key) (hroom : s.keyLen < s.params.keyMax) (b : Byte) :
    requestKey (storeKeyByte b s) = requestKey s ++ [b] := by
  rw [requestKey, storeKeyByte_keyLen, keyLen_succ_toNat hroom]
  exact Memory.firstBytes_write hwf _ b

/-- The buffer holds the whole bytes of the bit string, `ACC` and `NBITS` the bits left over (R148, R149). -/
structure State.HoldsBits (s : State) (bits : List Bool) : Prop where
  key_wf : Memory.wf s.key
  requestKey_eq : requestKey s = bytesOfBits bits
  nbits_eq : s.nbits.toNat = (pendingBits bits).length
  acc_eq : s.acc.toNat = numberOfBits (pendingBits bits)

namespace State.HoldsBits

variable {s : State} {bits : List Bool}

theorem keyLen_eq (h : s.HoldsBits bits) : s.keyLen.toNat = bits.length / 8 := by
  rw [← requestKey_length, h.requestKey_eq, bytesOfBits_length]

theorem bitsAfterPush_eq (h : s.HoldsBits bits) (v : BitVec 5) : bitsAfterPush s = (pendingBits bits ++ valueBits v).length := by
  rw [bitsAfterPush, h.nbits_eq, List.length_append, valueBits_length]

theorem shiftedAcc_eq (h : s.HoldsBits bits) (v : BitVec 5) : shiftedAcc s v = numberOfBits (pendingBits bits ++ valueBits v) := by
  rw [Machine.shiftedAcc_eq, h.acc_eq, numberOfBits_append, numberOfBits_valueBits]
  rfl

/-- A character that completes no byte. -/
theorem absorb (h : s.HoldsBits bits) (v : BitVec 5) (hn : bitsAfterPush s < 8) :
    (absorbBits v s).HoldsBits (bits ++ valueBits v) := by
  have hlt : (pendingBits bits ++ valueBits v).length < 8 := h.bitsAfterPush_eq v ▸ hn
  have hpending : pendingBits (bits ++ valueBits v) = pendingBits bits ++ valueBits v := by
    rw [pendingBits_append, pendingBits_of_lt hlt]
  refine ⟨h.key_wf, ?key, ?nbits, ?acc⟩
  case key =>
    rw [bytesOfBits_append, bytesOfBits_of_lt hlt, List.append_nil]
    exact h.requestKey_eq
  case nbits =>
    rw [hpending, ← h.bitsAfterPush_eq v, absorbBits_nbits, BitVec.toNat_ofNat, Nat.mod_eq_of_lt hn]
  case acc =>
    have hacc : numberOfBits (pendingBits bits ++ valueBits v) < 2 ^ 7 :=
      lt_of_lt_of_le (numberOfBits_lt _) (Nat.pow_le_pow_right (by decide) (by omega))
    rw [hpending, absorbBits_acc, h.shiftedAcc_eq, BitVec.toNat_ofNat, Nat.mod_eq_of_lt hacc]

/-- A character that completes a byte, with room for it. -/
theorem emit (h : s.HoldsBits bits) (v : BitVec 5) (hn : 8 ≤ bitsAfterPush s) (hroom : s.keyLen < s.params.keyMax) :
    (emitByte v s).HoldsBits (bits ++ valueBits v) := by
  obtain ⟨octet, left, hsplit, hoctet⟩ : ∃ octet left, pendingBits bits ++ valueBits v = octet ++ left ∧ octet.length = 8 :=
    ⟨_, _, (List.take_append_drop 8 _).symm, by rw [List.length_take, ← h.bitsAfterPush_eq v]; omega⟩
  have hleft : bitsAfterPush s - 8 = left.length := by
    rw [h.bitsAfterPush_eq v, hsplit, List.length_append]
    omega
  have hleft_lt : left.length < 8 := by
    have := s.nbits.isLt
    unfold bitsAfterPush at hleft
    omega
  have hpending : pendingBits (bits ++ valueBits v) = left := by
    rw [pendingBits_append, hsplit, pendingBits_octet_append hoctet, pendingBits_of_lt hleft_lt]
  have hnumber : shiftedAcc s v = numberOfBits octet * 2 ^ left.length + numberOfBits left := by
    rw [h.shiftedAcc_eq, hsplit, numberOfBits_append]
  have hbits := numberOfBits_lt left
  refine ⟨Memory.wf_write h.key_wf _ _, ?key, ?nbits, ?acc⟩
  case key =>
    have hbyte : BitVec.ofNat 8 ((shiftedAcc s v >>> (bitsAfterPush s - 8)) &&& 0xFF) = BitVec.ofNat 8 (numberOfBits octet) := by
      have hhigh : shiftedAcc s v >>> left.length = numberOfBits octet := by
        rw [hnumber, Nat.shiftRight_eq_div_pow, Nat.mul_comm, Nat.mul_add_div (Nat.two_pow_pos _), Nat.div_eq_of_lt hbits,
          Nat.add_zero]
      apply BitVec.eq_of_toNat_eq
      rw [hleft, hhigh, Nat.and_two_pow_sub_one_eq_mod _ 8, BitVec.toNat_ofNat, BitVec.toNat_ofNat, Nat.mod_mod]
    have hstore : requestKey (emitByte v s) = requestKey s ++ [BitVec.ofNat 8 (numberOfBits octet)] :=
      hbyte ▸ requestKey_storeKeyByte h.key_wf hroom _
    rw [hstore, h.requestKey_eq, bytesOfBits_append, hsplit, bytesOfBits_octet_append hoctet, bytesOfBits_of_lt hleft_lt]
  case nbits =>
    rw [hpending, emitByte_nbits, BitVec.toNat_ofNat, hleft, Nat.mod_eq_of_lt hleft_lt]
  case acc =>
    have hacc : numberOfBits left < 2 ^ 7 := lt_of_lt_of_le hbits (Nat.pow_le_pow_right (by decide) (by omega))
    rw [hpending, emitByte_acc, hleft, hnumber, Nat.one_shiftLeft, Nat.and_two_pow_sub_one_eq_mod, Nat.mul_add_mod_self_right,
      Nat.mod_eq_of_lt hbits, BitVec.toNat_ofNat, Nat.mod_eq_of_lt hacc]

end State.HoldsBits

/-- A session that has not failed and holds the bit string. -/
structure State.Decoded (s : State) (bits : List Bool) : Prop extends s.HoldsBits bits where
  derr_clear : s.derr = false
  kovf_clear : s.kovf = false

/-- KEYCLR begins with no bit (R147). -/
theorem startSession_decoded {s : State} (h : Memory.wf s.key) : (startSession s).Decoded [] :=
  ⟨⟨h, rfl, rfl, rfl⟩, rfl, rfl⟩

namespace State.Decoded

variable {s : State} {bits : List Bool} {ch : Byte}

/-- Whether the next character completes a byte. -/
theorem bitsAfterPush_lt_iff (h : s.Decoded bits) : bitsAfterPush s < 8 ↔ (bits.length + 5) / 8 = bits.length / 8 := by
  rw [bitsAfterPush, h.nbits_eq, pendingBits_length]
  omega

/-- A valid character whose bits fit. -/
theorem push (h : s.Decoded bits) {v : BitVec 5} (hch : alphabetValue ch = some v)
    (hfit : (bits.length + 5) / 8 ≤ s.params.keyMax.toNat) : (afterPush ch s).Decoded (bits ++ valueBits v) := by
  rw [afterPush_valid h.derr_clear h.kovf_clear hch]
  split
  · rename_i hn
    exact ⟨h.absorb v hn, h.derr_clear, h.kovf_clear⟩
  · rename_i hn
    have hlt : s.keyLen < s.params.keyMax := by
      rw [h.bitsAfterPush_lt_iff] at hn
      rw [BitVec.lt_def, h.keyLen_eq]
      omega
    rw [if_neg (BitVec.ne_of_lt hlt)]
    exact ⟨h.emit v (Nat.le_of_not_lt hn) hlt, h.derr_clear, h.kovf_clear⟩

/-- A valid character whose byte does not fit. -/
theorem push_overflow (h : s.Decoded bits) (hch : (alphabetValue ch).isSome = true) (hroom : bits.length / 8 ≤ s.params.keyMax.toNat)
    (hover : s.params.keyMax.toNat < (bits.length + 5) / 8) : afterPush ch s = { s with kovf := true } := by
  obtain ⟨v, hv⟩ := Option.isSome_iff_exists.mp hch
  have hdue : ¬ bitsAfterPush s < 8 := by
    rw [h.bitsAfterPush_lt_iff]
    omega
  have hfull : s.keyLen = s.params.keyMax := by
    apply BitVec.eq_of_toNat_eq
    rw [h.keyLen_eq]
    omega
  rw [afterPush_valid h.derr_clear h.kovf_clear hv, if_neg hdue, if_pos hfull]

/-- A valid text whose bytes fit. -/
theorem text (h : s.Decoded bits) (hlen : s.keyLen ≤ s.params.keyMax) {text : Text} {more : List Bool}
    (hmore : textBits text = some more) (hfit : (bits ++ more).length / 8 ≤ s.params.keyMax.toNat) :
    (afterText text s).Decoded (bits ++ more) := by
  induction text generalizing s bits more with
  | nil =>
    obtain rfl : [] = more := Option.some.inj hmore
    rwa [List.append_nil]
  | cons ch text ih =>
    obtain ⟨v, tail, hv, htail, rfl⟩ := textBits_cons_eq_some hmore
    rw [← List.append_assoc] at hfit ⊢
    have hpush : (afterPush ch s).Decoded (bits ++ valueBits v) := by
      refine h.push hv (le_trans (Nat.div_le_div_right ?_) hfit)
      simp
    exact ih hpush (by simpa using afterPush_keyLen_le hlen) htail (by simpa using hfit)

/-- A valid text whose bytes do not fit. -/
theorem text_overflow (h : s.Decoded bits) (hlen : s.keyLen ≤ s.params.keyMax) {text : Text} {more : List Bool}
    (hmore : textBits text = some more) (hover : s.params.keyMax.toNat < (bits ++ more).length / 8) :
    (afterText text s).derr = false ∧ (afterText text s).kovf = true := by
  have hroom : bits.length / 8 ≤ s.params.keyMax.toNat := h.keyLen_eq ▸ hlen
  induction text generalizing s bits more with
  | nil =>
    obtain rfl : [] = more := Option.some.inj hmore
    rw [List.append_nil] at hover
    omega
  | cons ch text ih =>
    obtain ⟨v, tail, hv, htail, rfl⟩ := textBits_cons_eq_some hmore
    by_cases hfit : (bits.length + 5) / 8 ≤ s.params.keyMax.toNat
    · rw [← List.append_assoc] at hover
      exact ih (h.push hv hfit) (by simpa using afterPush_keyLen_le hlen) htail (by simpa using hover) (by simpa using hfit)
    · rw [afterText_cons, h.push_overflow (by simp [hv]) hroom (Nat.lt_of_not_le hfit), afterText_failed _ (.inr rfl)]
      exact ⟨h.derr_clear, rfl⟩

/-- A text with an invalid character after a valid part that fits. -/
theorem text_invalid (h : s.Decoded bits) (hlen : s.keyLen ≤ s.params.keyMax) {pre post : Text} {more : List Bool}
    (hmore : textBits pre = some more) (hch : alphabetValue ch = none) (hfit : (bits ++ more).length / 8 ≤ s.params.keyMax.toNat) :
    afterText (pre ++ ch :: post) s = { afterText pre s with derr := true } := by
  have hpre := h.text hlen hmore hfit
  rw [afterText_append, afterText_cons, afterPush_invalid hpre.derr_clear hpre.kovf_clear hch, afterText_failed _ (.inl rfl)]

end State.Decoded

end Sys2Proof.Machine
end

section
/-! PROOF. Transactions carried out one after the other (R70, R99, R100): lists of them as updates of the state, and the list of
`TOTP` up to its COMPUTE. -/

namespace Sys2Proof.Machine

theorem runWith_trans {kh : KeyedHash} {m n : Nat} {s t u : State} (h : runWith kh m s = .next t) (h' : runWith kh n t = .next u) :
    runWith kh (m + n) s = .next u :=
  (runWith_add h).trans h'

theorem runWith_one {kh : KeyedHash} {s t : State} (h : stepWith kh s = .next t) : runWith kh 1 s = .next t := runWith_succ h

/-- The transactions take `s` to `t` and read `out`, newest first, whatever turns come behind them and whatever was read before. -/
def CarriesOut (is : List Instr) (s t : State) (out : List Word) : Prop :=
  ∀ (kh : KeyedHash) (rest : List Turn) (replies : List Word),
    runWith kh is.length (s.placed (hostTurns is ++ rest) replies) = .next (t.placed rest (out ++ replies))

namespace CarriesOut

variable {is js : List Instr} {s t u : State} {out more : List Word}

theorem nil (s : State) : CarriesOut [] s s [] := fun _ _ _ => rfl

theorem single {i : Instr} (hwf : i.wellFormed = true)
    (h : ∀ rest replies, exec i (s.placed rest replies) = .next (t.placed rest (out ++ replies))) : CarriesOut [i] s t out := by
  intro kh rest replies
  have hstep : stepWith kh (s.placed (.host (encode i) :: rest) replies) = exec (decode (encode i)) (s.placed rest replies) :=
    stepWith_host rfl
  rw [decode_encode hwf, h] at hstep
  exact runWith_one hstep

theorem append (h : CarriesOut is s t out) (h' : CarriesOut js t u more) : CarriesOut (is ++ js) s u (more ++ out) := by
  intro kh rest replies
  have hturns : hostTurns (is ++ js) ++ rest = hostTurns is ++ (hostTurns js ++ rest) := by
    simp [hostTurns, List.append_assoc]
  rw [hturns, List.length_append, List.append_assoc]
  exact runWith_trans (h kh _ replies) (h' kh rest _)

/-- A write in `IDLE`. -/
theorem write {i : Instr} (f : State → State) (hwf : i.wellFormed = true)
    (hexec : ∀ u, exec i u = whenIdle (fun u => .next (f u)) u)
    (hplaced : ∀ turns replies, f (s.placed turns replies) = (f s).placed turns replies) (hp : s.phase = .idle) :
    CarriesOut [i] s (f s) [] := by
  refine single hwf fun rest replies => ?_
  rw [hexec, whenIdle_idle (s := s.placed rest replies) hp, hplaced]
  rfl

/-- A 64-bit register, written by its two halves (R100, R123). -/
theorem set64 {lo hi : Word → Instr} {reg : DWord} {put : DWord → State}
    (hlo : ∀ v, CarriesOut [lo v] s (put (withLoWord reg v)) [])
    (hhi : ∀ w v, CarriesOut [hi v] (put w) (put (withHiWord w v)) []) (v : DWord) :
    CarriesOut [lo (loWord v), hi (hiWord v)] s (put v) [] := by
  have hboth := (hlo (loWord v)).append (hhi _ (hiWord v))
  rwa [withHiWord_eq_append, withLoWord_eq_append, loWord_append, hiWord_append_loWord] at hboth

end CarriesOut

section Lists

variable {s : State}

theorem carriesOut_rdStatus (s : State) : CarriesOut [.rdStatus] s s [statusWord s] := .single rfl fun _ _ => rfl

theorem carriesOut_rdCode (s : State) : CarriesOut [.rdCode] s s [s.code] := .single rfl fun _ _ => rfl

theorem carriesOut_totpCollect (s : State) : CarriesOut totpCollect s s [s.code, statusWord s] :=
  (carriesOut_rdStatus s).append (carriesOut_rdCode s)

theorem carriesOut_waitPolls (n : Nat) (s : State) : CarriesOut (waitPolls n) s s (List.replicate n (statusWord s)) := by
  induction n with
  | zero => exact .nil s
  | succ n ih => exact List.replicate_succ' ▸ (carriesOut_rdStatus s).append ih

theorem carriesOut_wrDigits (hp : s.phase = .idle) (d : Word) : CarriesOut [.wrDigits d] s { s with digits := d } [] :=
  .write (fun u => { u with digits := d }) rfl (fun _ => rfl) (fun _ _ => rfl) hp

theorem carriesOut_set64Epoch (hp : s.phase = .idle) (v : DWord) : CarriesOut (set64Epoch v) s { s with epoch := v } [] :=
  .set64 (put := fun w => { s with epoch := w })
    (fun v => .write (fun u => { u with epoch := withLoWord u.epoch v }) rfl (fun _ => rfl) (fun _ _ => rfl) hp)
    (fun _ v => .write (fun u => { u with epoch := withHiWord u.epoch v }) rfl (fun _ => rfl) (fun _ _ => rfl) hp) v

theorem carriesOut_set64Interval (hp : s.phase = .idle) (v : DWord) :
    CarriesOut (set64Interval v) s { s with interval := v } [] :=
  .set64 (put := fun w => { s with interval := w })
    (fun v => .write (fun u => { u with interval := withLoWord u.interval v }) rfl (fun _ => rfl) (fun _ _ => rfl) hp)
    (fun _ v => .write (fun u => { u with interval := withHiWord u.interval v }) rfl (fun _ => rfl) (fun _ _ => rfl) hp) v

theorem carriesOut_set64Time (hp : s.phase = .idle) (v : DWord) :
    CarriesOut (set64Time v) s { s with time := v, tset := true } [] :=
  .set64 (put := fun w => { s with time := w, tset := true })
    (fun v => .write (fun u => { u with time := withLoWord u.time v, tset := true }) rfl (fun _ => rfl) (fun _ _ => rfl) hp)
    (fun _ v => .write (fun u => { u with time := withHiWord u.time v, tset := true }) rfl (fun _ => rfl) (fun _ _ => rfl) hp) v

theorem carriesOut_keyclr (hp : s.phase = .idle) : CarriesOut [.keyclr] s (startSession s) [] :=
  .write startSession rfl (fun _ => rfl) (fun _ _ => rfl) hp

theorem afterPush_placed (ch : Byte) (s : State) (turns : List Turn) (replies : List Word) :
    afterPush ch (s.placed turns replies) = (afterPush ch s).placed turns replies := by
  by_cases hf : s.derr = true ∨ s.kovf = true
  · rw [afterPush_failed hf, afterPush_failed (s := s.placed turns replies) hf]
  · obtain ⟨hd, hk⟩ : s.derr = false ∧ s.kovf = false := by simpa using hf
    cases hch : alphabetValue ch with
    | none =>
      rw [afterPush_invalid hd hk hch, afterPush_invalid (s := s.placed turns replies) hd hk hch]
      rfl
    | some v =>
      rw [afterPush_valid hd hk hch, afterPush_valid (s := s.placed turns replies) hd hk hch,
        apply_ite (fun u : State => u.placed turns replies), apply_ite (fun u : State => u.placed turns replies)]
      rfl

theorem State.phase_eq_of_outsideSession {s t : State} (h : s.outsideSession = t.outsideSession) : s.phase = t.phase :=
  (congrArg State.phase h :)

@[simp] theorem afterPush_phase (ch : Byte) (s : State) : (afterPush ch s).phase = s.phase :=
  State.phase_eq_of_outsideSession (afterPush_outsideSession ch s)

@[simp] theorem afterText_phase (text : Text) (s : State) : (afterText text s).phase = s.phase :=
  State.phase_eq_of_outsideSession (afterText_outsideSession text s)

theorem carriesOut_b32push (hp : s.phase = .idle) (hlen : s.keyLen ≤ s.params.keyMax) (ch : Byte) :
    CarriesOut [.b32push ch] s (afterPush ch s) [] := by
  refine .single rfl fun rest replies => ?_
  rw [exec_b32push (s := s.placed rest replies) hp hlen, afterPush_placed]
  rfl

theorem carriesOut_b32str (hp : s.phase = .idle) (hlen : s.keyLen ≤ s.params.keyMax) (text : Text) :
    CarriesOut (b32str text) s (afterText text s) [] := by
  induction text generalizing s with
  | nil => exact .nil s
  | cons ch text ih =>
    exact (carriesOut_b32push hp hlen ch).append (ih (by simpa using hp) (by simpa using afterPush_keyLen_le hlen))

theorem carriesOut_secret (hp : s.phase = .idle) (text : Text) :
    CarriesOut (secret text) s (afterText text (startSession s)) [] :=
  (carriesOut_keyclr hp).append (carriesOut_b32str (s := startSession s) hp (Nat.zero_le s.params.keyMax.toNat) text)

theorem acceptCompute_of_error {e : ComputeError} (h : computeError s = some e) : acceptCompute s = raiseError e (clearResult s) := by
  simp [acceptCompute, h]

theorem acceptCompute_of_none (h : computeError s = none) : acceptCompute s = startDerivation (clearResult s) := by
  simp [acceptCompute, h]

theorem acceptCompute_placed (s : State) (turns : List Turn) (replies : List Word) :
    acceptCompute (s.placed turns replies) = (acceptCompute s).placed turns replies := by
  cases h : computeError s with
  | none =>
    rw [acceptCompute_of_none h, acceptCompute_of_none (s := s.placed turns replies) h]
    rfl
  | some e =>
    rw [acceptCompute_of_error h, acceptCompute_of_error (s := s.placed turns replies) h]
    rfl

theorem carriesOut_compute (hp : s.phase = .idle) : CarriesOut [.compute] s (acceptCompute s) [] :=
  .write acceptCompute rfl (fun _ => rfl) (acceptCompute_placed s) hp

/-- The state in which `TOTP` issues its COMPUTE (R100). -/
def beforeCompute (text : Text) (d : Word) (e i t : DWord) (s : State) : State :=
  { afterText text (startSession s) with digits := d, epoch := e, interval := i, time := t, tset := true }

theorem carriesOut_totpIssue (hp : s.phase = .idle) (text : Text) (d : Word) (e i t : DWord) :
    CarriesOut (totpIssue text d e i t) s (acceptCompute (beforeCompute text d e i t s)) [] := by
  let u := afterText text (startSession s)
  have hu : u.phase = .idle := (afterText_phase text _).trans hp
  exact (carriesOut_secret hp text).append (carriesOut_wrDigits hu d)
    |>.append (carriesOut_set64Epoch (s := { u with digits := d }) hu e)
    |>.append (carriesOut_set64Interval (s := { u with digits := d, epoch := e }) hu i)
    |>.append (carriesOut_set64Time (s := { u with digits := d, epoch := e, interval := i }) hu t)
    |>.append (carriesOut_compute (s := beforeCompute text d e i t s) hu)

end Lists

theorem totpIssue_length (text : Text) (d : Word) (e i t : DWord) : (totpIssue text d e i t).length = text.length + 9 := by
  simp [totpIssue, secret, b32str, set64Epoch, set64Interval, set64Time]

end Sys2Proof.Machine
end

section
/-! PROOF. What `TOTP` reads at its end (R100, R149, R185): the answer of the derivation from the state its COMPUTE finds, then the two
runs to it, with polls as single reads and with `WAIT`. -/

namespace Sys2Proof.Machine

/-- Bits 3:0 of `STATUS` (R35). -/
theorem statusWord_low (s : State) :
    (statusWord s).extractLsb' 0 4 = 0#1 ++ BitVec.ofBool s.err ++ BitVec.ofBool s.done ++ BitVec.ofBool (busy s) := by
  obtain ⟨hdone, herr, hzero, -⟩ := statusWord_flags s
  have hbits : ∀ e d b : Bool, ∀ i : Fin 4,
      (0#1 ++ BitVec.ofBool e ++ BitVec.ofBool d ++ BitVec.ofBool b).getLsbD i = [b, d, e, false][i] := by decide
  apply BitVec.eq_of_getLsbD_eq
  intro i hi
  rw [hbits s.err s.done (busy s) ⟨i, hi⟩, BitVec.getLsbD_extractLsb', decide_eq_true hi, Bool.true_and, Nat.zero_add]
  interval_cases i
  · exact statusWord_busy s
  · exact hdone
  · exact herr
  · exact hzero

/-! ### The answer of a derivation -/

/-- The two reads report the error (R240). -/
def ReportsError (status code : Word) (x : ComputeError) : Prop :=
  code = 0#32 ∧ status.extractLsb' 0 4 = 0b0100#4 ∧ status.extractLsb' 4 4 = errorCode x

/-- The two reads report the code. -/
def ReportsCode (status code : Word) (c : Nat) : Prop :=
  code.toNat = c ∧ status.extractLsb' 0 4 = 0b0010#4 ∧ status.extractLsb' 4 4 = 0#4

section Derivation

variable {kh : KeyedHash} {s : State}

/-- An accepted COMPUTE leads to `IDLE` or, without error, to `HASH` (R34, R172). -/
theorem acceptCompute_phase (hp : s.phase = .idle) : (acceptCompute s).phase = .idle ∨ (acceptCompute s).phase = .hash := by
  cases h : computeError s with
  | none => exact .inr (by rw [acceptCompute_of_none h]; rfl)
  | some e => exact .inl (by rw [acceptCompute_of_error h]; exact hp)

theorem acceptCompute_keyLen_le (hlen : s.keyLen ≤ s.params.keyMax) :
    (acceptCompute s).keyLen ≤ (acceptCompute s).params.keyMax := by
  cases h : computeError s with
  | none => rw [acceptCompute_of_none h]; exact hlen
  | some e => rw [acceptCompute_of_error h]; exact hlen

theorem afterDerivation_idle (h : s.phase = .idle ∨ s.phase = .hash) : (afterDerivation kh s).phase = .idle := by
  rcases h with h | h
  · rwa [afterDerivation_of_idle kh h]
  · rw [afterDerivation_of_hash kh h]
    rfl

/-- An error of COMPUTE is what the host reads after the agents' turns (R240, R246). -/
theorem reportsError_of_computeError {x : ComputeError} (hp : s.phase = .idle) (h : computeError s = some x) :
    ReportsError (statusWord (afterDerivation kh (acceptCompute s))) (afterDerivation kh (acceptCompute s)).code x := by
  have hidle : (raiseError x (clearResult s)).phase = .idle := hp
  rw [acceptCompute_of_error h, afterDerivation_of_idle kh hidle]
  refine ⟨rfl, ?_, statusWord_errcode _⟩
  rw [statusWord_low, busy_eq_false_of_idle hidle, raiseError_err, raiseError_done, clearResult_done]
  decide

/-- Without error the host reads the code of the key in the buffer and of the counter (R174 to R183). -/
theorem reportsCode_of_no_error (h : computeError s = none) :
    ReportsCode (statusWord (afterDerivation kh (acceptCompute s))) (afterDerivation kh (acceptCompute s)).code
      (hotp kh (requestKey s) ((s.time.toNat - s.epoch.toNat) / s.interval.toNat) s.digits.toNat) := by
  rw [acceptCompute_of_none h, afterDerivation_of_hash kh rfl]
  refine ⟨truncateDigest_code_toNat _, ?_, statusWord_errcode _⟩
  have herr : (truncateDigest (answerRequest kh (startDerivation (clearResult s)))).err = false := rfl
  rw [statusWord_low, busy_eq_false_of_idle rfl, truncateDigest_done, herr]
  decide

/-- In a clean session with a timestamp COMPUTE makes the checks of `totp`, in its order (R172, R179). -/
theorem computeError_of_clean (hd : s.derr = false) (hk : s.kovf = false) (hset : s.tset = true) :
    computeError s = if s.interval.toNat = 0 then some .invalidInterval
      else if s.time.toNat < s.epoch.toNat then some .timeBeforeEpoch else none := by
  simp [computeError, hd, hk, hset, BitVec.toNat_eq, BitVec.lt_def]

/-- R185: the machine answers what `totp` answers. -/
theorem reports_totp {key : List Byte} (hp : s.phase = .idle) (hd : s.derr = false) (hk : s.kovf = false) (hset : s.tset = true)
    (hkey : requestKey s = key) :
    (∀ c, totp kh key s.digits.toNat s.epoch.toNat s.interval.toNat s.time.toNat = .ok c →
      ReportsCode (statusWord (afterDerivation kh (acceptCompute s))) (afterDerivation kh (acceptCompute s)).code c) ∧
    (∀ x, totp kh key s.digits.toNat s.epoch.toNat s.interval.toNat s.time.toNat = .error x →
      ReportsError (statusWord (afterDerivation kh (acceptCompute s))) (afterDerivation kh (acceptCompute s)).code x) := by
  have hchecks := computeError_of_clean hd hk hset
  unfold totp
  split
  · rename_i h0
    rw [if_pos h0] at hchecks
    refine ⟨nofun, fun x hx => ?_⟩
    exact Except.error.inj hx ▸ reportsError_of_computeError hp hchecks
  · rename_i h0
    rw [if_neg h0] at hchecks
    split
    · rename_i hlt
      rw [if_pos hlt] at hchecks
      refine ⟨nofun, fun x hx => ?_⟩
      exact Except.error.inj hx ▸ reportsError_of_computeError hp hchecks
    · rename_i hlt
      rw [if_neg hlt] at hchecks
      refine ⟨fun c hc => ?_, nofun⟩
      exact Except.ok.inj hc ▸ hkey ▸ reportsCode_of_no_error hchecks

end Derivation

/-! ### The answer of `TOTP` -/

/-- What the last two reads of `TOTP` show, for a text that is a key, for one with an invalid character, for one that is too long. -/
def TotpAnswer (kh : KeyedHash) (keyMax : Nat) (text : Text) (d : Word) (e i t : DWord) (status code : Word) : Prop :=
  (∀ key, decodeText text = some key → key.length ≤ keyMax →
    (∀ c, totp kh key d.toNat e.toNat i.toNat t.toNat = .ok c → ReportsCode status code c) ∧
    (∀ x, totp kh key d.toNat e.toNat i.toNat t.toNat = .error x → ReportsError status code x)) ∧
  (∀ pre c post bits, text = pre ++ c :: post → textBits pre = some bits → alphabetValue c = none →
    5 * pre.length / 8 ≤ keyMax → ReportsError status code .invalidBase32) ∧
  (∀ pre post bits, text = pre ++ post → textBits pre = some bits → keyMax < 5 * pre.length / 8 →
    ReportsError status code .keyOverflow)

theorem totpAnswer_afterDerivation (kh : KeyedHash) {s : State} (hp : s.phase = .idle) (hwf : Memory.wf s.key) (text : Text)
    (d : Word) (e i t : DWord) :
    TotpAnswer kh s.params.keyMax.toNat text d e i t
      (statusWord (afterDerivation kh (acceptCompute (beforeCompute text d e i t s))))
      (afterDerivation kh (acceptCompute (beforeCompute text d e i t s))).code := by
  have hstart := startSession_decoded hwf
  have hlen : (startSession s).keyLen ≤ (startSession s).params.keyMax := Nat.zero_le s.params.keyMax.toNat
  have hidle : (beforeCompute text d e i t s).phase = .idle := (afterText_phase text _).trans hp
  refine ⟨fun key hkey hfit => ?valid, fun pre c post bits htext hbits hc hfit => ?invalid,
    fun pre post bits htext hbits hover => ?overflow⟩
  case valid =>
    obtain ⟨bits, hbits, rfl⟩ := decodeText_eq_some hkey
    have hdec := hstart.text hlen hbits (by rwa [List.nil_append, ← bytesOfBits_length])
    exact reports_totp (s := beforeCompute text d e i t s) hidle hdec.derr_clear hdec.kovf_clear rfl hdec.requestKey_eq
  case invalid =>
    have hpre := hstart.text_invalid hlen (post := post) hbits hc (by rwa [List.nil_append, textBits_length hbits])
    have hderr : (beforeCompute text d e i t s).derr = true := by
      rw [beforeCompute, htext, hpre]
    exact reportsError_of_computeError hidle (by simp [computeError, hderr])
  case overflow =>
    obtain ⟨hd, hk⟩ := hstart.text_overflow hlen hbits (by rwa [List.nil_append, textBits_length hbits])
    have hall : afterText text (startSession s) = afterText pre (startSession s) := by
      rw [htext, afterText_append, afterText_failed post (.inr hk)]
    have hderr : (beforeCompute text d e i t s).derr = false := by
      rw [beforeCompute, hall, hd]
    have hkovf : (beforeCompute text d e i t s).kovf = true := by
      rw [beforeCompute, hall, hk]
    exact reportsError_of_computeError hidle (by simp [computeError, hderr, hkovf])

theorem beforeCompute_keyLen_le (text : Text) (d : Word) (e i t : DWord) (s : State) :
    (beforeCompute text d e i t s).keyLen ≤ (beforeCompute text d e i t s).params.keyMax := by
  have hlen := afterText_keyLen_le (s := startSession s) text (Nat.zero_le s.params.keyMax.toNat)
  rwa [← afterText_params text (startSession s)] at hlen

/-- Settles O35: issue and polls, the unit, polls, the sequencer, polls and the two reads. -/
theorem totpStatementComputesTheCode : Obligations.TotpStatementComputesTheCode := by
  intro kh s text d e i t p q r rest hp hwf hs
  have hidle : (beforeCompute text d e i t s).phase = .idle := (afterText_phase text _).trans hp
  have hunit := acceptCompute_keyLen_le (beforeCompute_keyLen_le text d e i t s)
  have hanswer := totpAnswer_afterDerivation kh hp hwf text d e i t
  have hphase := afterDerivation_idle (kh := kh) (acceptCompute_phase hidle)
  have hissue := carriesOut_totpIssue hp text d e i t
  generalize acceptCompute (beforeCompute text d e i t s) = c at *
  have hturns : s.schedule = hostTurns (totpIssue text d e i t ++ waitPolls p) ++ (.keyedHash :: (hostTurns (waitPolls q) ++
      (.sequencer :: (hostTurns (waitPolls r ++ totpCollect) ++ rest)))) := by
    rw [hs]
    simp only [List.append_assoc, List.cons_append]
  have hrun := runWith_trans (runWith_trans (runWith_trans (runWith_trans
    (hissue.append (carriesOut_waitPolls p c) kh _ s.replies)
    (runWith_one (stepWith_unit hunit)))
    (carriesOut_waitPolls q (afterUnit kh c) kh _ _))
    (runWith_one (stepWith_sequencer kh (afterUnit kh c) _ _)))
    ((carriesOut_waitPolls r (afterDerivation kh c)).append (carriesOut_totpCollect _) kh rest _)
  rw [← State.eq_placed hturns] at hrun
  have hsteps : (totpIssue text d e i t ++ waitPolls p).length + 1 + (waitPolls q).length + 1 + (waitPolls r ++ totpCollect).length =
      text.length + 13 + p + q + r := by
    simp only [List.length_append, totpIssue_length, waitPolls, totpCollect, List.length_replicate, List.length_cons, List.length_nil]
    omega
  rw [hsteps] at hrun
  refine ⟨_, statusWord (afterDerivation kh c), (afterDerivation kh c).code,
    List.replicate r (statusWord (afterDerivation kh c)) ++ (List.replicate q (statusWord (afterUnit kh c)) ++
      List.replicate p (statusWord c)), hrun, rfl, hphase, fun hrest => ⟨hrest, hphase⟩, ?_, ?_, hanswer⟩
  · simp [State.placed]
  · simp only [List.length_append, List.length_replicate]
    omega

/-- The end of `TOTP` when COMPUTE has reported an error: the `WAIT` is over at once and the agents' turns pass (R100; log 5). -/
theorem runWith_wait_collect_of_idle (kh : KeyedHash) {s : State} (hp : s.phase = .idle) (hk : s.keyLen ≤ s.params.keyMax)
    (rest : List Turn) (replies : List Word) :
    runWith kh 5 (s.placed (.wait :: (hostTurns totpCollect ++ .keyedHash :: .sequencer :: rest)) replies) =
      .next ((afterDerivation kh s).placed rest (s.code :: statusWord s :: statusWord s :: replies)) :=
  runWith_trans (runWith_trans (runWith_trans (runWith_one (stepWith_wait_idle hp)) (carriesOut_totpCollect s kh _ _))
    (runWith_one (stepWith_unit hk))) (runWith_one (stepWith_sequencer kh _ _ _))

/-- The end of `TOTP` when COMPUTE has placed a request: the `WAIT` lasts until the agents have moved (R100, R292). -/
theorem runWith_wait_collect_of_hash (kh : KeyedHash) {s : State} (hp : s.phase = .hash) (hk : s.keyLen ≤ s.params.keyMax)
    (rest : List Turn) (replies : List Word) :
    runWith kh 7 (s.placed (.wait :: (hostTurns totpCollect ++ .keyedHash :: .sequencer :: rest)) replies) =
      .next ((afterDerivation kh s).placed rest ((afterDerivation kh s).code :: statusWord (afterDerivation kh s) ::
        statusWord (afterDerivation kh s) :: statusWord (answerRequest kh s) :: statusWord s :: replies)) := by
  have hhost : ∀ x ∈ hostTurns totpCollect, x.isHost = true := by decide
  have hwait := runWith_wait_of_hash (kh := kh) (hs₂ := []) rest replies hp hk hhost (by simp)
  rw [List.append_nil] at hwait
  exact runWith_trans hwait (carriesOut_totpCollect (afterDerivation kh s) kh rest _)

/-- Settles O59: after the COMPUTE the `WAIT` is over at once in `IDLE` and waits for both agents in `HASH`. -/
theorem totpWithItsWaitComputesTheCode : Obligations.TotpWithItsWaitComputesTheCode := by
  intro kh s text d e i t rest hp hwf hs
  have hidle : (beforeCompute text d e i t s).phase = .idle := (afterText_phase text _).trans hp
  have hunit := acceptCompute_keyLen_le (beforeCompute_keyLen_le text d e i t s)
  have hanswer := totpAnswer_afterDerivation kh hp hwf text d e i t
  have hend := acceptCompute_phase hidle
  have hphase := afterDerivation_idle (kh := kh) hend
  have hissue := carriesOut_totpIssue hp text d e i t
  generalize acceptCompute (beforeCompute text d e i t s) = c at *
  have hturns : s.schedule = hostTurns (totpIssue text d e i t) ++
      .wait :: (hostTurns totpCollect ++ .keyedHash :: .sequencer :: rest) := by
    rw [hs, totpTurns, List.append_assoc, List.cons_append]
  have hrun := hissue kh (.wait :: (hostTurns totpCollect ++ .keyedHash :: .sequencer :: rest)) s.replies
  rw [← State.eq_placed hturns, totpIssue_length] at hrun
  rcases hend with hc | hc
  · have hsame := afterDerivation_of_idle kh hc
    refine ⟨_, _, statusWord (afterDerivation kh c), (afterDerivation kh c).code, statusWord c, [], ?_,
      runWith_trans hrun (runWith_wait_collect_of_idle kh hc hunit rest _), rfl, hphase, fun hrest => ⟨hrest, hphase⟩, ?_,
      ?_, by simp, hanswer⟩
    · omega
    · rw [hsame]
      rfl
    · rw [statusWord_busy, busy_eq_false_of_idle hc]
  · refine ⟨_, _, statusWord (afterDerivation kh c), (afterDerivation kh c).code, statusWord (afterDerivation kh c),
      [statusWord (answerRequest kh c), statusWord c], ?_, runWith_trans hrun (runWith_wait_collect_of_hash kh hc hunit rest _), rfl,
      hphase, fun hrest => ⟨hrest, hphase⟩, rfl, ?_, ?_, hanswer⟩
    · omega
    · rw [statusWord_busy, busy_eq_false_of_idle hphase]
    · simp only [List.mem_cons, List.not_mem_nil, or_false]
      rintro _ (rfl | rfl) <;> rw [statusWord_busy, busy_eq_true_iff]
      · exact .inr rfl
      · exact .inl hc

end Sys2Proof.Machine
end

section
/-! PROOF. The host's accesses (R120 to R137): what a read returns, which writes are discarded, what a write of an operand register
stores, and that every access is answered. -/

namespace Sys2Proof.Machine

/-! ### Reads -/

/-- Settles O13: the decoded read names the word of the transaction. -/
theorem readsReturnTheWordAndChangeNothing : Obligations.ReadsReturnTheWordAndChangeNothing := by
  intro s idx d
  obtain ⟨-, hread, hidx, -⟩ := decodeRead_encodes idx
  rw [decode_txOf, if_neg Bool.false_ne_true, exec_read hread, hidx]
  rfl

/-- `CONFIG` is its three fields (R36, R135). -/
theorem configWord_eq_ofNat (p : Params) :
    configWord p = BitVec.ofNat 32 (1 * 2 ^ 24 + 20 * 2 ^ 16 + p.keyMax.toNat) := by
  have hmax := p.keyMax.isLt
  have happend : (configWord p).toNat = (Config.version ++ Config.hlen).toNat <<< 16 ||| p.keyMax.toNat := BitVec.toNat_append _ _
  have hhigh : (Config.version ++ Config.hlen).toNat = 1 * 2 ^ 8 + 20 := rfl
  apply BitVec.eq_of_toNat_eq
  rw [happend, hhigh, ← Nat.shiftLeft_add_eq_or_of_lt hmax, Nat.shiftLeft_eq, BitVec.toNat_ofNat]
  omega

/-- Settles O14: the values modulo and divided by `2^32` are the two halves of a register. -/
theorem operandReadsReturnTheOperands : Obligations.OperandReadsReturnTheOperands := by
  intro s
  simp only [← loWord_toNat, ← hiWord_toNat, BitVec.ofNat_toNat, BitVec.setWidth_eq]
  exact ⟨⟨rfl, rfl⟩, ⟨rfl, rfl⟩, ⟨rfl, rfl⟩, ⟨rfl, rfl⟩, ⟨rfl, rfl⟩, ⟨rfl, rfl⟩, ⟨rfl, rfl⟩⟩

/-- Settles O15: the counter is read by its halves, `KEY_LEN` zero-extended, `CONFIG` as its three fields. -/
theorem resultReadsReturnTheResults : Obligations.ResultReadsReturnTheResults := by
  intro s
  simp only [← loWord_toNat, ← hiWord_toNat, BitVec.ofNat_toNat, BitVec.setWidth_eq, ← configWord_eq_ofNat]
  exact ⟨⟨rfl, rfl⟩, ⟨rfl, rfl⟩, ⟨rfl, rfl⟩, ⟨rfl, rfl⟩, ⟨rfl, rfl⟩, ⟨rfl, rfl⟩, ⟨rfl, rfl⟩, ⟨rfl, rfl⟩⟩

/-! ### Discarded writes -/

/-- While busy every write is discarded (R121, R122). -/
theorem exec_write_busy {i : Instr} (hwrite : i.isWrite = true) {s : State} (hp : s.phase ≠ .idle) :
    exec i s = .next (discard s) := by
  obtain ⟨effect, hguard⟩ := exec_write hwrite
  rw [hguard, whenIdle_busy hp]

/-- Settles O17: every word with the write bit decodes to a write, and every write meets the busy check first. -/
theorem writesWhileBusyAreDiscarded : Obligations.WritesWhileBusyAreDiscarded := by
  intro s hbusy
  have hp : s.phase ≠ .idle := by rcases hbusy with hp | hp <;> simp [hp]
  refine ⟨fun idx d => ?_, fun i hwrite => exec_write_busy hwrite hp⟩
  obtain ⟨-, hwrite, -, -⟩ := decodeWrite_encodes idx d
  rw [decode_txOf, if_pos rfl]
  exact exec_write_busy hwrite hp

/-- Settles O18: the eight words share one meaning, the discarded write. -/
theorem readOnlyAndReservedWordsKeepTheirValue : Obligations.ReadOnlyAndReservedWordsKeepTheirValue := by
  refine fun s v _ => ⟨fun idx hidx => ?_, fun i hi => ?_⟩
  · rw [decode_txOf, if_pos rfl, exec_decodeWrite_readOnly hidx]
    exact illegalWrite_eq_discard s
  · simp only [List.mem_cons, List.not_mem_nil, or_false] at hi
    rcases hi with rfl | rfl | rfl | rfl | rfl | rfl | rfl | rfl <;> exact illegalWrite_eq_discard s

/-! ### Writes of the operand registers -/

/-- The data field of a word is its low 32 bits (R90). -/
theorem txOf_eq_or (we : Bool) (idx : BitVec 4) (d : Word) : txOf we idx d = txOf we idx 0#32 ||| d.setWidth 37 := by
  apply BitVec.eq_of_getLsbD_eq
  intro i hi
  rw [BitVec.getLsbD_or, getLsbD_txOf, getLsbD_txOf, BitVec.getLsbD_setWidth]
  by_cases hlow : i < 32
  · simp [hlow, hi]
  · simp [hlow, BitVec.getLsbD_of_ge d i (Nat.le_of_not_lt hlow)]

theorem decode_writeWord (idx : BitVec 4) (d : Word) : decode (txOf true idx 0#32 ||| d.setWidth 37) = decodeWrite idx d := by
  rw [← txOf_eq_or, decode_txOf, if_pos rfl]

/-- Settles O19: behind the busy check each write replaces its register, or joins its data to the register's other half. -/
theorem operandWritesStoreTheirData : Obligations.OperandWritesStoreTheirData := by
  refine fun s v => ⟨fun hp i hi => ?busy, fun hp => ?idle⟩
  case busy =>
    have hwrites := List.all_eq_true.mp (rfl : List.all [Instr.wrDigits v, .wrEpochLo v, .wrEpochHi v, .wrIntervalLo v,
      .wrIntervalHi v, .wrTimeLo v, .wrTimeHi v] Instr.isWrite = true)
    exact exec_write_busy (hwrites i hi) hp
  case idle =>
    simp only [← withLoWord_toNat, ← withHiWord_toNat, BitVec.ofNat_toNat, BitVec.setWidth_eq, exec, execWrDigits, execWrEpochLo,
      execWrEpochHi, execWrIntervalLo, execWrIntervalHi, execWrTimeLo, execWrTimeHi, whenIdle_idle hp, and_true]
    exact ⟨decode_writeWord 2#4 v, decode_writeWord 4#4 v, decode_writeWord 5#4 v, decode_writeWord 6#4 v,
      decode_writeWord 7#4 v, decode_writeWord 8#4 v, decode_writeWord 9#4 v⟩

namespace CarriesOut

variable {s t : State}

/-- A 64-bit register, written by its high half first (R123). -/
theorem set64_reverse {lo hi : Word → Instr} {reg : DWord} {put : DWord → State}
    (hhi : ∀ v, CarriesOut [hi v] s (put (withHiWord reg v)) [])
    (hlo : ∀ w v, CarriesOut [lo v] (put w) (put (withLoWord w v)) []) (v : DWord) :
    CarriesOut [hi (hiWord v), lo (loWord v)] s (put v) [] := by
  have hboth := (hhi (hiWord v)).append (hlo _ (loWord v))
  rwa [withLoWord_eq_append, withHiWord_eq_append, hiWord_append, hiWord_append_loWord] at hboth

/-- Writes placed in front of the turns to come leave no reply. -/
theorem runWith_eq {is : List Instr} {rest : List Turn} (h : CarriesOut is s t []) (hs : s.schedule = hostTurns is ++ rest)
    (kh : KeyedHash) : runWith kh is.length s = .next (t.placed rest s.replies) := by
  have hrun := h kh rest s.replies
  rwa [← State.eq_placed hs] at hrun

end CarriesOut

section Reversed

variable {s : State}

theorem carriesOut_set64Epoch_reverse (hp : s.phase = .idle) (v : DWord) :
    CarriesOut (set64Epoch v).reverse s { s with epoch := v } [] :=
  .set64_reverse (put := fun w => { s with epoch := w })
    (fun v => .write (fun u => { u with epoch := withHiWord u.epoch v }) rfl (fun _ => rfl) (fun _ _ => rfl) hp)
    (fun _ v => .write (fun u => { u with epoch := withLoWord u.epoch v }) rfl (fun _ => rfl) (fun _ _ => rfl) hp) v

theorem carriesOut_set64Interval_reverse (hp : s.phase = .idle) (v : DWord) :
    CarriesOut (set64Interval v).reverse s { s with interval := v } [] :=
  .set64_reverse (put := fun w => { s with interval := w })
    (fun v => .write (fun u => { u with interval := withHiWord u.interval v }) rfl (fun _ => rfl) (fun _ _ => rfl) hp)
    (fun _ v => .write (fun u => { u with interval := withLoWord u.interval v }) rfl (fun _ => rfl) (fun _ _ => rfl) hp) v

theorem carriesOut_set64Time_reverse (hp : s.phase = .idle) (v : DWord) :
    CarriesOut (set64Time v).reverse s { s with time := v, tset := true } [] :=
  .set64_reverse (put := fun w => { s with time := w, tset := true })
    (fun v => .write (fun u => { u with time := withHiWord u.time v, tset := true }) rfl (fun _ => rfl) (fun _ _ => rfl) hp)
    (fun _ v => .write (fun u => { u with time := withLoWord u.time v, tset := true }) rfl (fun _ => rfl) (fun _ _ => rfl) hp) v

end Reversed

/-- Settles O20: in both orders the second write keeps the half the first one has written. -/
theorem halvesAreWrittenInEitherOrder : Obligations.HalvesAreWrittenInEitherOrder := by
  refine fun kh s v rest hp => ⟨?epoch, ?interval, ?time⟩
  case epoch =>
    rintro (hs | hs)
    · exact (carriesOut_set64Epoch hp v).runWith_eq hs kh
    · exact (carriesOut_set64Epoch_reverse hp v).runWith_eq hs kh
  case interval =>
    rintro (hs | hs)
    · exact (carriesOut_set64Interval hp v).runWith_eq hs kh
    · exact (carriesOut_set64Interval_reverse hp v).runWith_eq hs kh
  case time =>
    rintro (hs | hs)
    · exact (carriesOut_set64Time hp v).runWith_eq hs kh
    · exact (carriesOut_set64Time_reverse hp v).runWith_eq hs kh

/-! ### Every access is answered -/

section Answers

variable {effect : State → Result} {s : State}

/-- The busy check answers by itself (R121). -/
theorem whenIdle_answers (h : s.phase = .idle → ∃ t, effect s = .next t) : ∃ t, whenIdle effect s = .next t := by
  by_cases hp : s.phase = .idle
  · rw [whenIdle_idle hp]
    exact h hp
  · exact ⟨_, whenIdle_busy hp⟩

theorem whenSessionClean_answers (h : ∃ t, effect s = .next t) : ∃ t, whenSessionClean effect s = .next t := by
  by_cases hf : s.derr = true ∨ s.kovf = true
  · exact ⟨s, whenSessionClean_failed hf⟩
  · obtain ⟨hd, hk⟩ : s.derr = false ∧ s.kovf = false := by simpa using hf
    rwa [whenSessionClean_clean hd hk]

/-- With `KEY_LEN` in range a push finds room or the full buffer (R44 a). -/
theorem whenKeyRoom_answers (hlen : s.keyLen ≤ s.params.keyMax) (h : ∃ t, effect s = .next t) :
    ∃ t, whenKeyRoom effect s = .next t := by
  by_cases hfull : s.keyLen = s.params.keyMax
  · exact ⟨_, whenKeyRoom_full hfull⟩
  · rwa [whenKeyRoom_room (BitVec.lt_of_le_ne hlen hfull)]

/-- Every host transaction has a next state (R61, R120, R121). -/
theorem exec_answers (i : Instr) (hlen : s.keyLen ≤ s.params.keyMax) : ∃ t, exec i s = .next t := by
  cases i
  case rdCmd | rdStatus | rdDigits | rdKeyLen | rdEpochLo | rdEpochHi | rdIntervalLo | rdIntervalHi | rdTimeLo | rdTimeHi
      | rdCounterLo | rdCounterHi | rdCode | rdConfig | rdW14 | rdW15 => exact ⟨_, exec_read rfl s⟩
  case b32push ch => exact whenIdle_answers fun hp => ⟨_, (whenIdle_idle hp).symm.trans (exec_b32push hp hlen)⟩
  case rawpush b => exact whenIdle_answers fun _ => whenSessionClean_answers (whenKeyRoom_answers hlen ⟨_, rfl⟩)
  all_goals
    apply whenIdle_answers
    exact fun _ => ⟨_, rfl⟩

end Answers

/-- A step has a next state, or its turn is a bus access the bridge refuses (R63, R66, R280). -/
theorem stepWith_answers (kh : KeyedHash) {s : State} (hlen : s.keyLen ≤ s.params.keyMax) :
    (∃ t, stepWith kh s = .next t) ∨
      ∃ a rest r, s.schedule = .bus a :: rest ∧ bridge s.params a = .error r ∧ stepWith kh s = .refused r := by
  cases hs : s.schedule with
  | nil => exact .inl ⟨s, stepWith_nil hs⟩
  | cons turn rest =>
    cases turn with
    | host tx =>
      rw [stepWith_host hs]
      exact .inl (exec_answers _ hlen)
    | bus a =>
      cases hb : bridge s.params a with
      | ok tx =>
        rw [stepWith_bus_ok hs hb]
        exact .inl (exec_answers _ hlen)
      | error r => exact .inr ⟨a, rest, r, rfl, hb, stepWith_bus_error hs hb⟩
    | wait =>
      rw [stepWith_transaction hs rfl]
      exact .inl (exec_answers _ hlen)
    | keyedHash =>
      rw [stepWith_of_ne_wait hs Turn.noConfusion]
      exact .inl ⟨_, keyedHashTurn_eq_afterUnit hlen⟩
    | sequencer =>
      rw [stepWith_of_ne_wait hs Turn.noConfusion]
      exact .inl ⟨_, sequencerTurn_eq_afterSequencer _⟩
    | reset =>
      rw [stepWith_of_ne_wait hs Turn.noConfusion]
      exact .inl ⟨_, rfl⟩

/-- Settles O45: of the invariants the range of `KEY_LEN` suffices, and the bridge refuses no word of the window. -/
theorem everyTransactionCompletes : Obligations.EveryTransactionCompletes := by
  intro kh s hinv
  have hlen := hinv.keyLen_le
  refine ⟨fun i => exec_answers i hlen, ?_⟩
  rcases stepWith_answers kh hlen with ⟨t, hnext⟩ | ⟨a, rest, q, hs, hb, hstep⟩
  · simp [hnext]
  · refine ⟨by simp [hstep], fun _ _ => ⟨a, rest, hs, fun ⟨hbytes, idx, haddr⟩ => ?_⟩⟩
    simp [bridge_word haddr hbytes] at hb

end Sys2Proof.Machine
end

section
/-! PROOF. The alphabet and the function `decode` (R141 to R145): the lookup range by range, when a text has a value, how long the
value is, and that the case of its letters does not matter. -/

namespace Sys2Proof.Machine

/-! ### The alphabet -/

/-- Of a difference of codes that does not wrap the low five bits are kept. -/
theorem setWidth_sub_of_le {c base : Byte} (h : base.toNat ≤ c.toNat) :
    (c - base).setWidth 5 = BitVec.ofNat 5 (c.toNat - base.toNat) := by
  rw [← BitVec.ofNat_toNat, BitVec.toNat_sub_of_le h]

section Alphabet

variable {c : Byte}

theorem alphabetValue_upper (hlo : 0x41 ≤ c.toNat) (hhi : c.toNat ≤ 0x5A) :
    alphabetValue c = some (BitVec.ofNat 5 (c.toNat - 0x41)) :=
  (if_pos ⟨hlo, hhi⟩).trans (congrArg some (setWidth_sub_of_le (base := 0x41#8) hlo))

theorem alphabetValue_lower (hlo : 0x61 ≤ c.toNat) (hhi : c.toNat ≤ 0x7A) :
    alphabetValue c = some (BitVec.ofNat 5 (c.toNat - 0x61)) := by
  have hupper : ¬ (0x41#8 ≤ c ∧ c ≤ 0x5A#8) := by
    simp only [BitVec.le_def, BitVec.toNat_ofNat]
    omega
  rw [alphabetValue, if_neg hupper]
  exact (if_pos ⟨hlo, hhi⟩).trans (congrArg some (setWidth_sub_of_le (base := 0x61#8) hlo))

theorem alphabetValue_digit (hlo : 0x32 ≤ c.toNat) (hhi : c.toNat ≤ 0x37) :
    alphabetValue c = some (BitVec.ofNat 5 (c.toNat - 0x32 + 26)) := by
  have hupper : ¬ (0x41#8 ≤ c ∧ c ≤ 0x5A#8) := by
    simp only [BitVec.le_def, BitVec.toNat_ofNat]
    omega
  have hlower : ¬ (0x61#8 ≤ c ∧ c ≤ 0x7A#8) := by
    simp only [BitVec.le_def, BitVec.toNat_ofNat]
    omega
  rw [alphabetValue, if_neg hupper, if_neg hlower]
  refine (if_pos ⟨hlo, hhi⟩).trans (congrArg some (BitVec.eq_of_toNat_eq ?_))
  rw [BitVec.toNat_setWidth, BitVec.toNat_add, BitVec.toNat_sub_of_le (y := 0x32#8) hlo]
  simp only [BitVec.toNat_ofNat]
  omega

theorem alphabetValue_invalid (hupper : ¬ (0x41 ≤ c.toNat ∧ c.toNat ≤ 0x5A)) (hlower : ¬ (0x61 ≤ c.toNat ∧ c.toNat ≤ 0x7A))
    (hdigit : ¬ (0x32 ≤ c.toNat ∧ c.toNat ≤ 0x37)) : alphabetValue c = none :=
  (if_neg hupper).trans ((if_neg hlower).trans (if_neg hdigit))

/-- A letter has the value of its other case (R145). -/
theorem alphabetValue_upperCode (c : Byte) : alphabetValue (upperCode c) = alphabetValue c := by
  unfold upperCode
  split
  · rename_i hletter
    obtain ⟨hlo, hhi⟩ : 0x61 ≤ c.toNat ∧ c.toNat ≤ 0x7A := hletter
    have hfold : (c - 0x20#8).toNat = c.toNat - 0x20 := BitVec.toNat_sub_of_le (y := 0x20#8) (le_trans (by decide) hlo)
    rw [alphabetValue_lower hlo hhi, alphabetValue_upper (by omega) (by omega), hfold, Nat.sub_sub]
  · rfl

end Alphabet

/-- Settles O21: one lemma per range, and a count over the 256 codes. -/
theorem alphabetTable : Obligations.AlphabetTable :=
  ⟨fun _ => ⟨alphabetValue_upper, alphabetValue_lower, alphabetValue_digit, alphabetValue_invalid⟩, by decide⟩

/-! ### `decode` of a text -/

theorem textBits_eq_none_iff (text : Text) : textBits text = none ↔ ∃ c ∈ text, alphabetValue c = none := by
  induction text with
  | nil => simp [textBits]
  | cons c text ih =>
    rw [List.exists_mem_cons_iff, ← ih]
    cases hc : alphabetValue c with
    | none => simp [textBits, hc]
    | some v => cases ht : textBits text <;> simp [textBits, hc, ht]

theorem decodeText_eq_none_iff (text : Text) : decodeText text = none ↔ ∃ c ∈ text, alphabetValue c = none :=
  Option.map_eq_none_iff.trans (textBits_eq_none_iff text)

/-- Settles O27: five bits a character, cut into whole bytes; `textBits` fails at an invalid character only. -/
theorem decodedLengthLaw : Obligations.DecodedLengthLaw := by
  refine fun text => ⟨fun out hout => ?_, decodeText_eq_none_iff text⟩
  obtain ⟨bits, hbits, rfl⟩ := decodeText_eq_some hout
  rw [bytesOfBits_length, textBits_length hbits]

theorem textBits_map_upperCode (text : Text) : textBits (text.map upperCode) = textBits text := by
  induction text with
  | nil => rfl
  | cons c text ih => simp only [List.map_cons, textBits, alphabetValue_upperCode, ih]

/-- Settles O28: the two texts have the same bits. -/
theorem decodingIsCaseInsensitive : Obligations.DecodingIsCaseInsensitive :=
  fun text => congrArg (Option.map bytesOfBits) (textBits_map_upperCode text)

end Sys2Proof.Machine
end

section
/-! PROOF. The Secret Decoder's commands (R147 to R152): each with its command word, its branches with the numbers of the rule, and a
whole session as the function `decode`. -/

namespace Sys2Proof.Machine

/-- Settles O22: in `IDLE` the command is `startSession`. -/
theorem keyclrBeginsASession : Obligations.KeyclrBeginsASession :=
  fun _ hp => ⟨decode_encode (i := .keyclr) rfl, whenIdle_idle (effect := fun s => .next (startSession s)) hp⟩

/-! ### A byte stored at `KEY_LEN` -/

/-- `storeKeyByte` with `KEY_LEN + 1` as a number. -/
theorem storeKeyByte_eq (b : Byte) (s : State) :
    storeKeyByte b s =
      { s with key := Memory.write s.key s.keyLen.toNat b, keyLen := BitVec.ofNat 16 (s.keyLen.toNat + 1) } := by
  have hlen : BitVec.ofNat 16 (s.keyLen.toNat + 1) = s.keyLen + 1#16 := by
    rw [BitVec.ofNat_add, BitVec.ofNat_toNat, BitVec.setWidth_eq]
  rw [hlen]
  rfl

theorem read_write_keyLen {s : State} (hwf : Memory.wf s.key) (b : Byte) :
    Memory.read (Memory.write s.key s.keyLen.toNat b) s.keyLen.toNat = b ∧
      ∀ a, a ≠ s.keyLen.toNat → Memory.read (Memory.write s.key s.keyLen.toNat b) a = Memory.read s.key a :=
  ⟨by rw [Memory.read_write hwf, if_pos rfl], fun a ha => by rw [Memory.read_write hwf, if_neg ha]⟩

/-! ### `RAWPUSH` -/

/-- The word of `RAWPUSH` (R92, R99). -/
theorem encode_rawpush (b : Byte) : encode (.rawpush b) = 0x1000000003#37 ||| (b.setWidth 37 <<< 8) := by
  revert b
  decide

/-- Settles O24: behind the session check the push stores its byte, or finds the buffer full. -/
theorem rawPushAppendsOneByte : Obligations.RawPushAppendsOneByte := by
  intro s b hp hlen hwf
  have hexec : exec (.rawpush b) s = whenSessionClean (whenKeyRoom fun s => .next (storeKeyByte b s)) s := whenIdle_idle hp
  rw [← encode_rawpush, hexec]
  refine ⟨decode_encode rfl, whenSessionClean_failed, fun hd hk hfull => ?full, fun hd hk hroom => ?store⟩
  case full => rw [whenSessionClean_clean hd hk, whenKeyRoom_full hfull]
  case store =>
    rw [whenSessionClean_clean hd hk, whenKeyRoom_room (BitVec.lt_of_le_ne hlen hroom), storeKeyByte_eq]
    exact ⟨_, rfl, read_write_keyLen hwf b⟩

/-! ### `B32PUSH` -/

/-- The word of `B32PUSH` (R92, R99). -/
theorem encode_b32push (ch : Byte) : encode (.b32push ch) = 0x1000000002#37 ||| (ch.setWidth 37 <<< 8) := by
  revert ch
  decide

/-- `absorbBits` with the numbers of R148. -/
theorem absorbBits_eq (v : BitVec 5) (s : State) :
    absorbBits v s =
      { s with acc := BitVec.ofNat 7 (s.acc.toNat * 32 + v.toNat), nbits := BitVec.ofNat 3 (s.nbits.toNat + 5) } := by
  rw [absorbBits, shiftedAcc_eq, bitsAfterPush]

/-- `emitByte` with the numbers of R148. -/
theorem emitByte_eq (v : BitVec 5) (s : State) :
    emitByte v s = { s with
      key := Memory.write s.key s.keyLen.toNat
        (BitVec.ofNat 8 ((s.acc.toNat * 32 + v.toNat) / 2 ^ (s.nbits.toNat + 5 - 8)))
      keyLen := BitVec.ofNat 16 (s.keyLen.toNat + 1)
      nbits := BitVec.ofNat 3 (s.nbits.toNat + 5 - 8)
      acc := BitVec.ofNat 7 ((s.acc.toNat * 32 + v.toNat) % 2 ^ (s.nbits.toNat + 5 - 8)) } := by
  have hbyte : ∀ n : Nat, BitVec.ofNat 8 (n &&& 0xFF) = BitVec.ofNat 8 n := by
    intro n
    apply BitVec.eq_of_toNat_eq
    rw [Nat.and_two_pow_sub_one_eq_mod n 8, BitVec.toNat_ofNat, BitVec.toNat_ofNat, Nat.mod_mod]
  rw [emitByte, hbyte, shiftedAcc_eq, bitsAfterPush, Nat.shiftRight_eq_div_pow, Nat.one_shiftLeft, Nat.and_two_pow_sub_one_eq_mod,
    storeKeyByte_eq]

/-- The bits in front of the `NBITS - 3` left over are a byte (R44 b, R148). -/
theorem emittedByte_lt {s : State} (v : BitVec 5) (hacc : s.acc.toNat < 2 ^ s.nbits.toNat) (hdue : 8 ≤ s.nbits.toNat + 5) :
    (s.acc.toNat * 32 + v.toNat) / 2 ^ (s.nbits.toNat + 5 - 8) < 256 := by
  have hsplit : 2 ^ s.nbits.toNat * 32 = 2 ^ (s.nbits.toNat + 5 - 8) * 256 := by
    rw [← Nat.pow_add _ _ 5, ← Nat.pow_add _ _ 8, Nat.sub_add_cancel hdue]
  have hv := v.isLt
  apply Nat.div_lt_of_lt_mul
  omega

/-- Settles O23: the branches of `afterPush`, with their numbers. -/
theorem b32PushDecodesOneCharacter : Obligations.B32PushDecodesOneCharacter := by
  intro s ch hp hacc hlen hwf
  rw [← encode_b32push, exec_b32push hp hlen]
  refine ⟨decode_encode rfl, fun hf => congrArg _ (afterPush_failed hf), fun hd hk => ⟨fun hch => ?_, fun v hv => ?valid⟩⟩
  · rw [afterPush_invalid hd hk hch]
  case valid =>
    have hpush := afterPush_valid hd hk hv
    rw [bitsAfterPush] at hpush
    rw [hpush]
    refine ⟨fun hn => ?absorb, fun hdue hfull => ?full, fun hdue hroom => ?emit⟩
    case absorb => rw [if_pos hn, absorbBits_eq]
    case full => rw [if_neg (Nat.not_lt.mpr hdue), if_pos hfull]
    case emit =>
      rw [if_neg (Nat.not_lt.mpr hdue), if_neg hroom, emitByte_eq]
      obtain ⟨hstored, hothers⟩ := read_write_keyLen hwf
        (BitVec.ofNat 8 ((s.acc.toNat * 32 + v.toNat) / 2 ^ (s.nbits.toNat + 5 - 8)))
      exact ⟨_, rfl, hstored, emittedByte_lt v hacc hdue, hothers⟩

end Sys2Proof.Machine
end

section
/-! PROOF. A session (R147, R149): `SECRET "s"` as the function `decode`. -/

namespace Sys2Proof.Machine

/-- A character whose byte does not fit, after a valid part that does; what follows is not looked at (R149 c). -/
theorem State.Decoded.text_overflows_at {s : State} {bits : List Bool} (h : s.Decoded bits) (hlen : s.keyLen ≤ s.params.keyMax)
    {pre post : Text} {more : List Bool} {ch : Byte} (hmore : textBits pre = some more) (hch : (alphabetValue ch).isSome = true)
    (hfit : (bits ++ more).length / 8 ≤ s.params.keyMax.toNat)
    (hover : s.params.keyMax.toNat < ((bits ++ more).length + 5) / 8) :
    afterText (pre ++ ch :: post) s = { afterText pre s with kovf := true } := by
  have hpre := h.text hlen hmore hfit
  rw [afterText_append, afterText_cons,
    hpre.push_overflow hch (by rwa [afterText_params]) (by rwa [afterText_params]), afterText_failed _ (.inr rfl)]

/-- What the decoder holds of the bits of a text, counted in characters (R149). -/
theorem State.HoldsBits.of_text {s : State} {text : Text} {bits : List Bool} (h : s.HoldsBits bits)
    (hbits : textBits text = some bits) :
    requestKey s = bytesOfBits bits ∧ s.nbits.toNat = (5 * text.length) % 8 ∧
      s.acc.toNat = numberOfBits (bits.drop (8 * (5 * text.length / 8))) := by
  rw [← textBits_length hbits, ← pendingBits_length]
  exact ⟨h.requestKey_eq, h.nbits_eq, h.acc_eq⟩

/-- Two states that differ in the decoder's elements only are the same but for these. -/
theorem State.eq_of_outsideSession {s t : State} (h : t.outsideSession = s.outsideSession) :
    { t with key := s.key, keyLen := s.keyLen, acc := s.acc, nbits := s.nbits, derr := s.derr, kovf := s.kovf } = s := by
  calc { t with key := s.key, keyLen := s.keyLen, acc := s.acc, nbits := s.nbits, derr := s.derr, kovf := s.kovf }
      = { t.outsideSession with
          key := s.key, keyLen := s.keyLen, acc := s.acc, nbits := s.nbits, derr := s.derr, kovf := s.kovf } := rfl
    _ = s := by rw [h]; rfl

/-- Settles O26: the session's run is `carriesOut_secret`; each case is what the text's pushes leave of a session just begun. -/
theorem sessionCarriesOutDecode : Obligations.SessionCarriesOutDecode := by
  intro kh s text rest hp hwf hs
  have hstart := startSession_decoded hwf
  have hlen : (startSession s).keyLen ≤ (startSession s).params.keyMax := Nat.zero_le s.params.keyMax.toNat
  have hrun := (carriesOut_secret hp text).runWith_eq hs kh
  have hsteps : (secret text).length = text.length + 1 := by simp [secret, b32str]
  have hframe : ((afterText text (startSession s)).placed s.schedule s.replies).outsideSession = s.outsideSession :=
    congrArg (fun u : State => u.placed s.schedule s.replies) (afterText_outsideSession text (startSession s))
  rw [hsteps] at hrun
  refine ⟨_, hrun, rfl, (afterText_phase text _).trans hp, State.eq_of_outsideSession hframe, fun bits hbits hfit => ?valid,
    fun pre c post bits htext hbits hc hfit => ?invalid, fun pre c post bits htext hbits hc hfit hover => ?overflow⟩
  case valid =>
    have hdec := hstart.text hlen hbits (by rwa [List.nil_append, ← bytesOfBits_length])
    obtain ⟨hkey, hnbits, hacc⟩ := hdec.of_text hbits
    exact ⟨hdec.derr_clear, hdec.kovf_clear, hdec.keyLen_eq.trans (bytesOfBits_length bits).symm, hkey, hnbits, hacc⟩
  case invalid =>
    rw [← textBits_length hbits] at hfit
    have hdec := hstart.text hlen hbits hfit
    rw [htext, hstart.text_invalid hlen (post := post) hbits hc hfit]
    exact ⟨rfl, hdec.kovf_clear, hdec.of_text hbits⟩
  case overflow =>
    rw [Nat.mul_succ, ← textBits_length hbits] at hover
    rw [← textBits_length hbits] at hfit
    have hdec := hstart.text hlen hbits hfit
    have hfull : (afterText pre (startSession s)).keyLen = s.params.keyMax := by
      apply BitVec.eq_of_toNat_eq
      rw [hdec.keyLen_eq, List.nil_append]
      omega
    rw [htext, hstart.text_overflows_at hlen (post := post) hbits hc hfit hover]
    exact ⟨rfl, hdec.derr_clear, hfull, hdec.of_text hbits⟩

end Sys2Proof.Machine
end

section
/-! PROOF. The TOTP Engine (R170 to R188): COMPUTE with and without an error, the truncation step, and the derivation from COMPUTE to
the code as one update of the state. -/

namespace Sys2Proof.Machine

/-! ### COMPUTE -/

section Compute

variable {s : State}

theorem exec_compute_of_error {e : ComputeError} (hp : s.phase = .idle) (h : computeError s = some e) :
    exec .compute s = .next (raiseError e (clearResult s)) := by
  rw [← acceptCompute_of_error h]
  exact whenIdle_idle (effect := fun s => .next (acceptCompute s)) hp

theorem exec_compute_of_no_error (hp : s.phase = .idle) (h : computeError s = none) :
    exec .compute s = .next (startDerivation (clearResult s)) := by
  rw [← acceptCompute_of_none h]
  exact whenIdle_idle (effect := fun s => .next (acceptCompute s)) hp

theorem computeError_of_no_cause (hd : s.derr = false) (hk : s.kovf = false) (hset : s.tset = true) (hi : s.interval.toNat ≠ 0)
    (ht : s.epoch.toNat ≤ s.time.toNat) : computeError s = none := by
  rw [computeError_of_clean hd hk hset, if_neg hi, if_neg (Nat.not_lt.mpr ht)]

end Compute

/-- Settles O29: the ladder of `computeError`, one rung at a time. -/
theorem computeReportsTheFirstError : Obligations.ComputeReportsTheFirstError := by
  refine fun s hp => ⟨fun hd => ?base32, fun hd hk => ?overflow, fun hd hk hset => ?clock, fun hd hk hset hi => ?interval,
    fun hd hk hset hi ht => ?epoch⟩
  case base32 => exact exec_compute_of_error hp (e := .invalidBase32) (by simp [computeError, hd])
  case overflow => exact exec_compute_of_error hp (e := .keyOverflow) (by simp [computeError, hd, hk])
  case clock => exact exec_compute_of_error hp (e := .clockError) (by simp [computeError, hd, hk, hset])
  case interval =>
    exact exec_compute_of_error hp (e := .invalidInterval) (by rw [computeError_of_clean hd hk hset, if_pos hi])
  case epoch =>
    exact exec_compute_of_error hp (e := .timeBeforeEpoch) (by rw [computeError_of_clean hd hk hset, if_neg hi, if_pos ht])

/-- Settles O30: the counter is exact, and each byte of the message is its own eight bits of the counter. -/
theorem computePlacesTheRequest : Obligations.ComputePlacesTheRequest := by
  intro s hp hd hk hset hi ht
  refine ⟨decode_encode (i := .compute) rfl, _, _, exec_compute_of_no_error hp (computeError_of_no_cause hd hk hset hi ht),
    counterOf_toNat _ _ _, fun i => ?_⟩
  rw [be64_getElem, be64Byte_toNat]

/-! ### The truncation step -/

theorem codeOfDigest_lt_pow (d : Vector Byte 20) (digits : Nat) : codeOfDigest d digits < 10 ^ digits :=
  Nat.mod_lt _ (Nat.pow_pos (by decide))

theorem codeOfDigest_lt (d : Vector Byte 20) (digits : Nat) : codeOfDigest d digits < 2 ^ 31 :=
  lt_of_le_of_lt (Nat.mod_le _ _) (windowNumber_lt _ _ _)

/-- The truncation step with R179's code. -/
theorem truncateDigest_eq (s : State) :
    truncateDigest s =
      { s with code := BitVec.ofNat 32 (codeOfDigest s.digest s.digits.toNat), done := true, phase := .idle } := by
  rw [← truncateDigest_code_toNat, BitVec.ofNat_toNat, BitVec.setWidth_eq]
  rfl

theorem stepWith_sequencer_of_trunc {kh : KeyedHash} {s : State} {rest : List Turn} (hs : s.schedule = .sequencer :: rest)
    (hp : s.phase = .trunc) : stepWith kh s = .next (truncateDigest { s with schedule := rest }) :=
  (stepWith_of_ne_wait hs Turn.noConfusion).trans (sequencerTurn_trunc hp)

/-- Settles O31: the sequencer's turn is the truncation step in `TRUNC` and passes elsewhere. -/
theorem truncationStepWritesTheCode : Obligations.TruncationStepWritesTheCode := by
  refine fun kh s rest hs => ⟨fun hp => ?_, fun hp => ?_⟩
  · rw [stepWith_sequencer_of_trunc hs hp, truncateDigest_eq]
  · exact (stepWith_of_ne_wait hs Turn.noConfusion).trans (sequencerTurn_passes hp)

/-- Settles O32: up to nine digits the model computes the remainder itself, and from ten on it is the value. -/
theorem codeIsTheMathematicalRemainder : Obligations.CodeIsTheMathematicalRemainder := fun _ _ => reduceCode_toNat

/-- Settles O33: a remainder modulo `10^DIGITS` of a 31-bit window. -/
theorem codeIsInRange : Obligations.CodeIsInRange := by
  intro kh s rest hp hs
  have hcode := truncateDigest_code_toNat { s with schedule := rest }
  have hlt : (truncateDigest { s with schedule := rest }).code.toNat < 2 ^ 31 := hcode ▸ codeOfDigest_lt _ _
  exact ⟨_, stepWith_sequencer_of_trunc hs hp, hcode ▸ codeOfDigest_lt_pow _ _, hlt, Nat.testBit_lt_two_pow hlt⟩

/-! ### The derivation -/

section Derivation

variable {kh : KeyedHash} {s : State} {rest : List Turn}

/-- COMPUTE, the unit's turn and the sequencer's, as one update (R185). -/
theorem runWith_derivation (kh : KeyedHash) (hp : s.phase = .idle) (hlen : s.keyLen ≤ s.params.keyMax)
    (hs : s.schedule = .host (encode .compute) :: .keyedHash :: .sequencer :: rest) :
    runWith kh 3 s = .next ((afterDerivation kh (acceptCompute s)).placed rest s.replies) := by
  have hrun := runWith_trans (runWith_trans
    (carriesOut_compute hp kh (.keyedHash :: .sequencer :: rest) s.replies)
    (runWith_one (stepWith_unit (acceptCompute_keyLen_le hlen))))
    (runWith_one (stepWith_sequencer kh _ rest _))
  exact (congrArg (runWith kh 3) (State.eq_placed hs)).trans hrun

theorem afterDerivation_compute_of_error {e : ComputeError} (hp : s.phase = .idle) (h : computeError s = some e) :
    afterDerivation kh (acceptCompute s) = raiseError e (clearResult s) := by
  rw [acceptCompute_of_error h, afterDerivation_of_idle kh (s := raiseError e (clearResult s)) hp]

theorem afterDerivation_compute_of_no_error (h : computeError s = none) :
    afterDerivation kh (acceptCompute s) = truncateDigest (answerRequest kh (startDerivation (clearResult s))) := by
  rw [acceptCompute_of_none h, afterDerivation_of_hash kh rfl]

/-- The code of a derivation without error (R179 to R183). -/
theorem derivation_code_toNat (h : computeError s = none) :
    (afterDerivation kh (acceptCompute s)).code.toNat =
      hotp kh (requestKey s) ((s.time.toNat - s.epoch.toNat) / s.interval.toNat) s.digits.toNat := by
  rw [afterDerivation_compute_of_no_error h]
  exact truncateDigest_code_toNat _

/-- The error COMPUTE finds in a clean session with a timestamp is that of `totp` (R172, R179). -/
theorem totp_of_computeError {key : List Byte} {digits : Nat} {e : ComputeError} (hd : s.derr = false) (hk : s.kovf = false)
    (hset : s.tset = true) (h : computeError s = some e) :
    totp kh key digits s.epoch.toNat s.interval.toNat s.time.toNat = .error e := by
  rw [computeError_of_clean hd hk hset] at h
  unfold totp
  split at h
  · rw [if_pos ‹_›, Option.some.inj h]
  · split at h
    · rw [if_neg ‹_›, if_pos ‹_›, Option.some.inj h]
    · contradiction

/-- Where COMPUTE finds no error `totp` is `hotp` of the counter (R179). -/
theorem totp_of_no_computeError {key : List Byte} {digits : Nat} (h : computeError s = none) :
    totp kh key digits s.epoch.toNat s.interval.toNat s.time.toNat =
      .ok (hotp kh key ((s.time.toNat - s.epoch.toNat) / s.interval.toNat) digits) := by
  obtain ⟨-, -, -, hi, ht⟩ := computeError_eq_none h
  rw [totp, if_neg hi.ne', if_neg (Nat.not_lt.mpr ht)]

end Derivation

/-- Settles O34: COMPUTE finds the error of `totp` and reports it, or none, and the two agents compute `hotp` of the counter. -/
theorem derivationComputesTotp : Obligations.DerivationComputesTotp := by
  intro kh s rest hp hd hk hset hlen hs
  refine ⟨_, runWith_derivation kh hp hlen hs, afterDerivation_idle (acceptCompute_phase hp), rfl, ?_⟩
  cases h : computeError s with
  | none =>
    rw [totp_of_no_computeError h]
    refine ⟨fun c hc => ?_, nofun⟩
    cases hc
    have hcode := derivation_code_toNat (kh := kh) h
    rw [afterDerivation_compute_of_no_error h] at hcode ⊢
    exact ⟨rfl, rfl, rfl, hcode, counterOf_toNat _ _ _⟩
  | some e =>
    rw [afterDerivation_compute_of_error hp h, totp_of_computeError hd hk hset h]
    refine ⟨nofun, fun x hx => ?_⟩
    cases hx
    exact ⟨rfl, rfl, rfl, rfl, rfl⟩

/-- Settles O36: the error, and without one the counter and the code, are functions of the inputs. -/
theorem derivationIsDeterministic : Obligations.DerivationIsDeterministic := by
  intro kh s t r q hps hpt hlens hlent hkey hdigits hepoch hinterval htime htset hderr hkovf hs ht
  have herror : computeError t = computeError s := by
    rw [computeError, computeError, hepoch, hinterval, htime, htset, hderr, hkovf]
  have hcounter : counterOf s.epoch s.interval s.time = counterOf t.epoch t.interval t.time := by
    rw [hepoch, hinterval, htime]
  refine ⟨_, _, runWith_derivation kh hps hlens hs, runWith_derivation kh hpt hlent ht, ?_⟩
  cases h : computeError s with
  | none =>
    have hnone := herror.trans h
    have hcode : (afterDerivation kh (acceptCompute s)).code = (afterDerivation kh (acceptCompute t)).code := by
      apply BitVec.eq_of_toNat_eq
      rw [derivation_code_toNat h, derivation_code_toNat hnone, hkey, hdigits, hepoch, hinterval, htime]
    refine ⟨hcode, ?_⟩
    rw [afterDerivation_compute_of_no_error h, afterDerivation_compute_of_no_error hnone]
    exact ⟨hcounter, rfl, rfl, rfl⟩
  | some e =>
    rw [afterDerivation_compute_of_error hps h, afterDerivation_compute_of_error hpt (herror.trans h)]
    exact ⟨rfl, rfl, rfl, rfl, rfl⟩

/-- Settles O37: the two timestamps have the same counter, and the derivation reads `TIME` for its counter only. -/
theorem sameWindowSameCode : Obligations.SameWindowSameCode := by
  intro kh s t₂ rest hp hlen hd hk hset hi ht ht₂ hwindow hs
  have hnone := computeError_of_no_cause hd hk hset hi ht
  have hnone₂ := computeError_of_no_cause (s := { s with time := t₂ }) hd hk hset hi ht₂
  have hrun := runWith_derivation kh hp hlen hs
  have hrun₂ := runWith_derivation kh (s := { s with time := t₂ }) hp hlen hs
  have hcounter : counterOf s.epoch s.interval t₂ = counterOf s.epoch s.interval s.time :=
    congrArg (BitVec.ofNat 64) hwindow.symm
  have hstart : startDerivation (clearResult { s with time := t₂ }) = { startDerivation (clearResult s) with time := t₂ } := by
    simp only [startDerivation, clearResult, hcounter]
  rw [afterDerivation_compute_of_no_error hnone] at hrun
  rw [afterDerivation_compute_of_no_error hnone₂, hstart] at hrun₂
  exact ⟨_, hrun, hrun₂, rfl⟩

end Sys2Proof.Machine
end

section
/-! PROOF. The keyed-hash unit (R200 to R214): its turn as an answer to the request, the length of the padded message, and the prepared
key of HMAC. -/

namespace Sys2Proof.Machine

/-! ### The unit's turn -/

theorem keyedHashTurn_hash {kh : KeyedHash} {s : State} (hp : s.phase = .hash) (hlen : s.keyLen ≤ s.params.keyMax) :
    keyedHashTurn kh s = .next (answerRequest kh s) := by
  rw [keyedHashTurn_eq_afterUnit hlen, afterUnit, if_pos hp]

theorem stepWith_keyedHash_of_hash {kh : KeyedHash} {s : State} {rest : List Turn} (hs : s.schedule = .keyedHash :: rest)
    (hp : s.phase = .hash) (hlen : s.keyLen ≤ s.params.keyMax) :
    stepWith kh s = .next (answerRequest kh { s with schedule := rest }) :=
  (stepWith_of_ne_wait hs Turn.noConfusion).trans (keyedHashTurn_hash hp hlen)

/-- Settles O38: in `HASH` the unit answers for the request's key, byte by byte the key buffer; elsewhere its turn passes. -/
theorem keyedHashStepAnswersTheRequest : Obligations.KeyedHashStepAnswersTheRequest := by
  refine fun kh s rest hs => ⟨fun hp => ?_, fun hp hlen => ?_⟩
  · exact (stepWith_of_ne_wait hs Turn.noConfusion).trans (keyedHashTurn_passes hp)
  · exact ⟨requestKey s, requestKey_length s, Memory.getElem_firstBytes s.key s.keyLen.toNat,
      stepWith_keyedHash_of_hash hs hp hlen, stepWith_keyedHash_of_hash hs hp hlen⟩

/-! ### SHA-1's padding -/

theorem padZeros_lt (len : Nat) : padZeros len < 64 := Nat.mod_lt _ (by decide)

theorem padZeros_fills (len : Nat) : (len + 1 + padZeros len) % 64 = 56 := by
  unfold padZeros
  omega

theorem sha1Pad_length (m : List Byte) : (sha1Pad m).length = m.length + 1 + padZeros m.length + 8 := by
  simp only [sha1Pad, List.length_append, List.length_cons, List.length_replicate, Vector.length_toList]
  omega

/-- Settles O39: the zeros are `padZeros` many, and the eight bytes of the bit length complete the last block. -/
theorem paddingFillsWholeBlocks : Obligations.PaddingFillsWholeBlocks := by
  intro m _
  have hfill := padZeros_fills m.length
  refine ⟨padZeros m.length, padZeros_lt _, hfill, by simp [sha1Pad], ?_⟩
  rw [sha1Pad_length, Nat.add_mod, hfill]

/-! ### HMAC's key -/

theorem hmacKey_of_le {key : List Byte} (h : key.length ≤ 64) :
    hmacKey key = key ++ List.replicate (64 - key.length) 0#8 := by
  simp [hmacKey, hmacBlock, Nat.not_lt.mpr h]

theorem hmacKey_of_lt {key : List Byte} (h : 64 < key.length) : hmacKey key = hmacKey (sha1 key).toList := by
  rw [hmacKey_of_le (key := (sha1 key).toList) (by simp), hmacKey, hmacBlock, if_pos h]

theorem hmacKey_append_zeros {key : List Byte} {n : Nat} (h : key.length + n ≤ 64) :
    hmacKey (key ++ List.replicate n 0#8) = hmacKey key := by
  have hlen : (key ++ List.replicate n 0#8).length = key.length + n := by simp
  have hzeros : n + (64 - (key.length + n)) = 64 - key.length := by omega
  rw [hmacKey_of_le (hlen ▸ h), hmacKey_of_le (by omega), hlen, List.append_assoc, List.replicate_append_replicate, hzeros]

/-- HMAC reads its key through the prepared key only (R210). -/
theorem hmacSha1_eq_of_hmacKey_eq {key key' : List Byte} (h : hmacKey key = hmacKey key') (msg : List Byte) :
    hmacSha1 key msg = hmacSha1 key' msg := by
  rw [hmacSha1, hmacSha1, h]

/-- Settles O40: the two keys of each clause prepare to the same block. -/
theorem hmacKeyPreparation : Obligations.HmacKeyPreparation :=
  fun _ msg => ⟨fun h => hmacSha1_eq_of_hmacKey_eq (hmacKey_of_lt h) msg,
    fun _ h => hmacSha1_eq_of_hmacKey_eq (hmacKey_append_zeros h) msg⟩

end Sys2Proof.Machine
end

section
/-! PROOF. The control commands `NOP`, `ZEROIZE` and `ACK` (R230, R232, R234): what each does in `IDLE`. While busy each is a discarded
write like any other. -/

namespace Sys2Proof.Machine

section Idle

variable {s : State}

theorem exec_nop (hp : s.phase = .idle) : exec .nop s = .next s := whenIdle_idle (effect := fun s => .next s) hp

theorem exec_ack (hp : s.phase = .idle) : exec .ack s = .next { s with cmderr := false } :=
  whenIdle_idle (effect := fun s => .next { s with cmderr := false }) hp

theorem exec_zeroize (hp : s.phase = .idle) : exec .zeroize s = .next (eraseSecret s) :=
  whenIdle_idle (effect := fun s => .next (eraseSecret s)) hp

end Idle

/-- Settles O41: in `IDLE` each command has its own effect, and while busy both are discarded writes. -/
theorem nopAndAck : Obligations.NopAndAck := by
  refine fun s => ⟨decode_encode (i := .nop) rfl, decode_encode (i := .ack) rfl, fun hp => ?_, fun hp => ?_⟩
  · exact ⟨exec_nop hp, exec_ack hp⟩
  · exact ⟨exec_write_busy rfl hp, exec_write_busy rfl hp⟩

/-- Settles O42: in `IDLE` the command is `eraseSecret`, whose key buffer lists no byte and whose two vectors are all zero; while busy
it is a discarded write. -/
theorem zeroizeErasesTheSecret : Obligations.ZeroizeErasesTheSecret := by
  refine fun s => ⟨decode_encode (i := .zeroize) rfl, fun hp => exec_write_busy rfl hp, fun hp => ?_⟩
  exact ⟨[], Vector.replicate 8 0#8, Vector.replicate 20 0#8, exec_zeroize hp, Memory.read_nil,
    fun _ => Vector.getElem_replicate _, fun _ => Vector.getElem_replicate _⟩

end Sys2Proof.Machine
end

section
/-! PROOF. Discarded writes and compute errors (R240, R250): who raises the two reports, and the one hang (R256). -/

namespace Sys2Proof.Machine

/-! ### Discarded writes -/

/-- The transaction is a write with one of R250's four causes. -/
def State.Discards (s : State) (i : Instr) : Prop :=
  i.isWrite = true ∧
    (s.phase ≠ .idle ∨ i.idx.toNat ∈ [1, 3, 10, 11, 12, 13] ∨ i.idx.toNat ∈ [14, 15] ∨ ∃ d, i = .wrCmdIllegal d)

theorem decodeWrite_encodeData {i : Instr} (hwf : i.wellFormed = true) (hwrite : i.isWrite = true) :
    decodeWrite i.idx (encodeData i) = i := by
  have h := decode_encode hwf
  rwa [encode, decode_txOf, if_pos hwrite] at h

/-- Only an illegal command word can be ill-formed, and it names word 0. -/
theorem wellFormed_of_idx_ne_zero {i : Instr} (h : i.idx ≠ 0#4) : i.wellFormed = true := by
  cases i
  case wrCmdIllegal => exact absurd rfl h
  all_goals rfl

/-- A write of a read-only or reserved word, given as a transaction (R68, R124). -/
theorem exec_write_readOnly {i : Instr} (hwrite : i.isWrite = true) (hidx : i.idx.toNat ∈ [1, 3, 10, 11, 12, 13, 14, 15])
    (s : State) : exec i s = .next (discard s) := by
  have hne : i.idx ≠ 0#4 := fun h0 => absurd (h0 ▸ hidx) (by decide)
  have hread := exec_decodeWrite_readOnly hidx (encodeData i) s
  rw [decodeWrite_encodeData (wellFormed_of_idx_ne_zero hne) hwrite] at hread
  exact hread.trans (illegalWrite_eq_discard s)

theorem State.Discards.exec_eq {s : State} {i : Instr} (h : s.Discards i) : exec i s = .next (discard s) := by
  obtain ⟨hwrite, hbusy | hidx | hidx | ⟨d, rfl⟩⟩ := h
  · exact exec_write_busy hwrite hbusy
  · exact exec_write_readOnly hwrite (List.mem_append_left [14, 15] hidx) s
  · exact exec_write_readOnly hwrite (List.mem_append_right [1, 3, 10, 11, 12, 13] hidx) s
  · exact execWrCmdIllegal_eq_discard d s

/-- A discarded write sets `CMDERR`, an accepted `ACK` clears it, and every other transaction leaves it (R42). -/
theorem Effect.cmderr_cases {s t : State} {i : Instr} (h : Effect s i t) :
    t.cmderr = s.cmderr ∨ (t.cmderr = true ∧ s.Discards i) ∨ (t.cmderr = false ∧ i = .ack ∧ s.phase = .idle) := by
  cases h
  case busy hbusy hwrite => exact .inr (.inl ⟨rfl, hwrite, .inl hbusy⟩)
  case illegalWrite _ hwrite hidx =>
    have hsplit := List.mem_append (s := [1, 3, 10, 11, 12, 13]) (t := [14, 15]).mp hidx
    exact .inr (.inl ⟨rfl, hwrite, .inr (hsplit.imp_right .inl)⟩)
  case illegalCommand d _ => exact .inr (.inl ⟨rfl, rfl, .inr (.inr (.inr ⟨d, rfl⟩))⟩)
  case ack hp => exact .inr (.inr ⟨rfl, rfl, hp⟩)
  case pushValid hpush => exact .inl (hpush.frame ▸ rfl)
  all_goals exact .inl rfl

section Step

variable {kh : KeyedHash} {s t : State} {turn : Turn} {rest : List Turn} {i : Instr}

theorem Turn.ne_wait_of_write {p : Params} (ht : turn.transaction p = some i) (hwrite : i.isWrite = true) : turn ≠ .wait := by
  rintro rfl
  obtain rfl := Option.some.inj ht
  exact Bool.false_ne_true hwrite

/-- A turn that carries a discarded write sets `CMDERR` and is used up, and that is all. -/
theorem State.Discards.stepWith_eq (h : s.Discards i) (hs : s.schedule = turn :: rest)
    (ht : turn.transaction s.params = some i) : stepWith kh s = .next { s with cmderr := true, schedule := rest } := by
  have hi : State.Discards { s with schedule := rest } i := h
  obtain ⟨hwrite, -⟩ := h
  rw [stepWith_transaction hs ht, scheduleAfter_of_ne_wait (Turn.ne_wait_of_write ht hwrite), hi.exec_eq]
  rfl

theorem stepWith_cmderr_cases (hs : s.schedule = turn :: rest) (h : stepWith kh s = .next t) :
    t.cmderr = s.cmderr ∨ (t.cmderr = true ∧ ∃ i, turn.transaction s.params = some i ∧ s.Discards i) ∨
      (t.cmderr = false ∧ (turn = .reset ∨ (turn.transaction s.params = some .ack ∧ s.phase = .idle))) := by
  rcases stepWith_next hs h with
    ⟨i, hi, heff⟩ | ⟨-, -, -, rfl⟩ | ⟨-, -, rfl⟩ | ⟨-, -, rfl⟩ | ⟨-, -, rfl⟩ | ⟨hturn, rfl⟩
  · rcases heff.cmderr_cases with hsame | ⟨hset, hdiscards⟩ | ⟨hclear, hack, hp⟩
    · exact .inl hsame
    · exact .inr (.inl ⟨hset, i, hi, hdiscards⟩)
    · exact .inr (.inr ⟨hclear, .inr ⟨hack ▸ hi, hp⟩⟩)
  case inr.inr.inr.inr.inr => exact .inr (.inr ⟨rfl, .inl hturn⟩)
  all_goals exact .inl rfl

end Step

/-- Settles O50: the step of a discarded write, and the three things a step can do to `CMDERR`. -/
theorem cmderrMarksDiscardedWrites : Obligations.CmderrMarksDiscardedWrites := by
  intro kh s t turn rest hs h
  refine ⟨fun i hi hdiscards => ?_, fun hclear hset => ?_, fun hset hclear => ?_⟩
  · exact Host.Outcome.next.inj (h.symm.trans (State.Discards.stepWith_eq hdiscards hs hi))
  · rcases stepWith_cmderr_cases hs h with hsame | ⟨-, hcause⟩ | ⟨hfalse, -⟩
    · simp [hsame, hclear] at hset
    · exact hcause
    · simp [hfalse] at hset
  · rcases stepWith_cmderr_cases hs h with hsame | ⟨htrue, -⟩ | ⟨-, hcause⟩
    · simp [hsame, hset] at hclear
    · simp [htrue] at hclear
    · exact hcause

/-! ### Compute errors -/

/-- Each error comes with its code and its condition (R240 to R245). -/
theorem computeError_cause {s : State} {e : ComputeError} (h : computeError s = some e) :
    (errorCode e = 1#4 ∧ s.derr = true) ∨ (errorCode e = 2#4 ∧ s.interval = 0#64) ∨ (errorCode e = 3#4 ∧ s.tset = false) ∨
      (errorCode e = 4#4 ∧ s.kovf = true) ∨ (errorCode e = 5#4 ∧ s.time.toNat < s.epoch.toNat) := by
  unfold computeError at h
  split_ifs at h with hderr hkovf htset hinterval htime <;> obtain rfl := Option.some.inj h
  · exact .inl ⟨rfl, hderr⟩
  · exact .inr (.inr (.inr (.inl ⟨rfl, hkovf⟩)))
  · exact .inr (.inr (.inl ⟨rfl, by simpa using htset⟩))
  · exact .inr (.inl ⟨rfl, hinterval⟩)
  · exact .inr (.inr (.inr (.inr ⟨rfl, htime⟩)))

/-- An error that was not there before is a COMPUTE's. -/
theorem Effect.raised {s t : State} {i : Instr} (h : Effect s i t) (herr : t.err = true)
    (hnew : ¬(t.err = s.err ∧ t.errcode = s.errcode)) :
    ∃ e, i = .compute ∧ Machine.computeError s = some e ∧ t = raiseError e (clearResult s) := by
  cases h
  case computeError e _ he => exact ⟨e, rfl, he, rfl⟩
  case computeStart | zeroize => exact absurd herr Bool.false_ne_true
  case pushValid hpush => exact absurd (hpush.frame ▸ ⟨rfl, rfl⟩) hnew
  all_goals exact absurd ⟨rfl, rfl⟩ hnew

/-- Settles O51: the agents leave the report, reset ends it, and of the transactions only a COMPUTE begins one. -/
theorem onlyComputeRaisesErrors : Obligations.OnlyComputeRaisesErrors := by
  intro kh s t turn rest hs h herr hchanged
  have hnew : ¬(t.err = s.err ∧ t.errcode = s.errcode) := by
    rintro ⟨hsame, hcode⟩
    rcases hchanged with hclear | hne
    · simp [hsame, hclear] at herr
    · exact hne hcode
  rcases stepWith_next hs h with
    ⟨i, hi, heff⟩ | ⟨-, -, -, rfl⟩ | ⟨-, -, rfl⟩ | ⟨-, -, rfl⟩ | ⟨-, -, rfl⟩ | ⟨-, rfl⟩
  · obtain ⟨e, rfl, he, rfl⟩ := heff.raised herr hnew
    rw [scheduleAfter_of_ne_wait (Turn.ne_wait_of_write hi rfl)]
    exact ⟨hi, rfl, computeError_cause he⟩
  case inr.inr.inr.inr.inr => exact absurd herr Bool.false_ne_true
  all_goals exact absurd ⟨rfl, rfl⟩ hnew

/-! ### The one hang -/

/-- While busy a transaction is a read or a discarded write (R120, R122). -/
theorem Effect.of_busy {s t : State} {i : Instr} (h : Effect s i t) (hp : s.phase ≠ .idle) :
    t = reply (regRead i.idx s) s ∨ t = discard s := by
  cases h
  case read => exact .inl rfl
  case busy => exact .inr rfl
  all_goals contradiction

/-- A step brings no turn into the schedule but the poll of a `WAIT`. -/
theorem mem_scheduleAfter {s : State} {turn x : Turn} {rest : List Turn} (h : x ∈ scheduleAfter s turn rest) :
    x = .wait ∨ x ∈ rest := by
  by_cases hturn : turn ≠ .wait ∨ s.phase = .idle
  · exact .inr (scheduleAfter_eq_rest rest hturn ▸ h)
  · obtain ⟨rfl, hbusy⟩ : turn = .wait ∧ s.phase ≠ .idle := by tauto
    exact mem_of_mem_holdHost (scheduleAfter_wait_busy rest (busy_eq_true_of_not_idle hbusy) ▸ h)

/-- A property every step keeps holds at the end of a run. -/
theorem runWith_keeps {kh : KeyedHash} {P : State → Prop} (hstep : ∀ u v, P u → stepWith kh u = .next v → P v) {n : Nat}
    {s t : State} (hs : P s) (h : runWith kh n s = .next t) : P t := by
  induction n generalizing s with
  | zero => exact Host.Outcome.next.inj h ▸ hs
  | succ n ih =>
    cases hu : stepWith kh s with
    | next u => exact ih (hstep s u hs hu) (runWith_succ hu ▸ h)
    | fault r | refused r => simp [runWith, hu] at h

/-- `t` is `s` but for `CMDERR`, the reply log and the schedule, and what is still to come can lift no hang (R256). -/
structure State.HangsAs (s t : State) : Prop where
  frame : { t with schedule := s.schedule, replies := s.replies, cmderr := s.cmderr } = s
  dead : ∀ turn ∈ t.schedule, turn ≠ .keyedHash ∧ turn ≠ .reset

namespace State.HangsAs

variable {kh : KeyedHash} {s t u : State}

theorem phase_eq (h : s.HangsAs t) : t.phase = s.phase := (congrArg State.phase h.frame :)

theorem trans (h : s.HangsAs t) (h' : t.HangsAs u) : s.HangsAs u where
  frame := (congrArg (fun v : State => { v with schedule := s.schedule, replies := s.replies, cmderr := s.cmderr }) h'.frame).trans
    h.frame
  dead := h'.dead

/-- Without the unit's turn and without reset a step from `HASH` is a read, a discarded write or a turn that passes. -/
theorem of_stepWith (hp : s.phase = .hash) (hdead : ∀ turn ∈ s.schedule, turn ≠ .keyedHash ∧ turn ≠ .reset)
    (h : stepWith kh s = .next t) : s.HangsAs t := by
  cases hs : s.schedule with
  | nil =>
    rw [stepWith_nil hs] at h
    exact Host.Outcome.next.inj h ▸ ⟨rfl, hdead⟩
  | cons turn rest =>
    obtain ⟨⟨hunit, hreset⟩, hrest⟩ := List.forall_mem_cons.mp (hs ▸ hdead)
    refine ⟨?frame, fun x hx => ?dead⟩
    case frame =>
      rcases stepWith_next hs h with
        ⟨i, -, heff⟩ | ⟨hturn, -⟩ | ⟨hturn, -⟩ | ⟨-, htrunc, -⟩ | ⟨-, -, rfl⟩ | ⟨hturn, -⟩
      · rcases heff.of_busy (by simp [hp]) with rfl | rfl <;> rfl
      · exact absurd hturn hunit
      · exact absurd hturn hunit
      · simp [hp] at htrunc
      · rfl
      · exact absurd hturn hreset
    case dead =>
      rcases mem_scheduleAfter (stepWith_schedule_eq hs h ▸ hx) with rfl | hx
      · exact ⟨Turn.noConfusion, Turn.noConfusion⟩
      · exact hrest x hx

end State.HangsAs

/-- Settles O56: a hanging state is left to hang by every step, so by every run. -/
theorem deadUnitHangsTheBlock : Obligations.DeadUnitHangsTheBlock := by
  intro kh n s t hp hdead h
  have hstep : ∀ u v, s.HangsAs u → stepWith kh u = .next v → s.HangsAs v := fun u v hu huv =>
    hu.trans (.of_stepWith (hu.phase_eq.trans hp) hu.dead huv)
  have hend : s.HangsAs t := runWith_keeps hstep ⟨rfl, hdead⟩ h
  exact ⟨hend.phase_eq.trans hp, hend.frame⟩

end Sys2Proof.Machine
end

section
/-! PROOF. Reset (R280, R281), and the derivation that goes on whatever the host does meanwhile (R292). -/

namespace Sys2Proof.Machine

/-! ### Reset -/

section Reset

variable {kh : KeyedHash} {s : State} {rest : List Turn}

/-- Reset is a turn like any other: it asks for no phase (R280; log 10). -/
theorem stepWith_reset (hs : s.schedule = .reset :: rest) :
    stepWith kh s = .next { State.reset with params := s.params, schedule := rest, replies := s.replies } :=
  stepWith_of_ne_wait hs Turn.noConfusion

/-- The unit's late answer and the sequencer's turn pass in `IDLE` (R281; log 5). -/
theorem runWith_agents_of_idle (hp : s.phase = .idle) (hs : s.schedule = .keyedHash :: .sequencer :: rest) :
    runWith kh 2 s = .next { s with schedule := rest } := by
  obtain ⟨-, hunit, -⟩ := agentsWithoutAStepLetTheirTurnPass kh s (.sequencer :: rest)
  obtain ⟨-, -, hseq⟩ := agentsWithoutAStepLetTheirTurnPass kh { s with schedule := .sequencer :: rest } rest
  exact runWith_trans (runWith_one (hunit hs (by simp [hp]))) (runWith_one (hseq rfl (by simp [hp])))

end Reset

/-- Settles O10: the step answers the reset state with the model's own fields kept, and its byte vectors are all zero. -/
theorem resetLeavesTheResetValues : Obligations.ResetLeavesTheResetValues := by
  intro kh s rest hs
  exact ⟨_, stepWith_reset hs, rfl, rfl, rfl, rfl, rfl, rfl, rfl, Memory.read_nil, rfl, rfl, rfl,
    fun _ => Vector.getElem_replicate _, fun _ => Vector.getElem_replicate _, rfl, rfl, rfl, rfl, rfl, rfl, rfl⟩

/-- Settles O12: reset leaves `IDLE`, where neither agent has a step. -/
theorem resetAbandonsTheDerivation : Obligations.ResetAbandonsTheDerivation := by
  intro kh s rest _ hs
  have hreset := stepWith_reset (kh := kh) hs
  exact ⟨_, hreset, rfl, rfl, rfl, rfl, rfl, (runWith_succ hreset).trans (runWith_agents_of_idle rfl rfl)⟩

/-! ### The derivation under the host's transactions -/

/-- While busy a transaction moves only `CMDERR` and the reply log (R120, R122). -/
theorem exec_of_busy (i : Instr) {s : State} (hp : s.phase ≠ .idle) :
    ∃ replies c, exec i s = .next { s with replies := replies, cmderr := c } := by
  cases hi : i.isWrite with
  | false => exact ⟨_, s.cmderr, exec_read hi s⟩
  | true => exact ⟨s.replies, true, exec_write_busy hi hp⟩

/-- While busy so do any number of them, and each uses up its turn. -/
theorem runWith_host_of_busy (kh : KeyedHash) {s : State} (hp : s.phase ≠ .idle) {xs : List TxWord} {rest : List Turn}
    (hs : s.schedule = xs.map .host ++ rest) :
    ∃ replies c, runWith kh xs.length s = .next { s with schedule := rest, replies := replies, cmderr := c } := by
  induction xs generalizing s with
  | nil => exact ⟨s.replies, s.cmderr, by rw [← show s.schedule = rest from hs]; rfl⟩
  | cons x xs ih =>
    obtain ⟨replies, c, hexec⟩ := exec_of_busy (decode x) (s := { s with schedule := xs.map .host ++ rest }) hp
    obtain ⟨replies', c', hrun⟩ := ih (s := { s with schedule := xs.map .host ++ rest, replies := replies, cmderr := c }) hp rfl
    exact ⟨replies', c', (runWith_succ ((stepWith_host hs).trans hexec)).trans hrun⟩

/-- Behind any transactions of the host the unit answers the request as COMPUTE placed it (R122, R204). -/
theorem runWith_host_unit (kh : KeyedHash) {s : State} (hp : s.phase = .hash) (hlen : s.keyLen ≤ s.params.keyMax)
    {xs : List TxWord} {rest : List Turn} (hs : s.schedule = xs.map .host ++ .keyedHash :: rest) :
    ∃ replies c, runWith kh (xs.length + 1) s =
      .next { answerRequest kh s with schedule := rest, replies := replies, cmderr := c } := by
  obtain ⟨replies, c, hhost⟩ := runWith_host_of_busy kh (by simp [hp]) hs
  exact ⟨replies, c, runWith_trans hhost (runWith_one (stepWith_keyedHash_of_hash rfl hp hlen))⟩

/-- Behind any transactions of the host the sequencer truncates the digest as the unit gave it (R122, R180). -/
theorem runWith_host_sequencer (kh : KeyedHash) {s : State} (hp : s.phase = .trunc) {xs : List TxWord} {rest : List Turn}
    (hs : s.schedule = xs.map .host ++ .sequencer :: rest) :
    ∃ replies c, runWith kh (xs.length + 1) s =
      .next { truncateDigest s with schedule := rest, replies := replies, cmderr := c } := by
  obtain ⟨replies, c, hhost⟩ := runWith_host_of_busy kh (by simp [hp]) hs
  exact ⟨replies, c, runWith_trans hhost (runWith_one (stepWith_sequencer_of_trunc rfl hp))⟩

/-- Settles O55: the host's transactions leave the request, then the digest, to the two agents. -/
theorem hashAndTruncationLiftTheWait : Obligations.HashAndTruncationLiftTheWait := by
  intro kh s xs ys rest hp hlen hs
  obtain ⟨replies, c, hunit⟩ := runWith_host_unit kh hp hlen (rest := ys.map .host ++ .sequencer :: rest) (by simpa using hs)
  obtain ⟨replies', c', hseq⟩ := runWith_host_sequencer kh
    (s := { answerRequest kh s with schedule := ys.map .host ++ .sequencer :: rest, replies := replies, cmderr := c }) rfl rfl
  have hrun := runWith_trans hunit hseq
  rw [show xs.length + 1 + (ys.length + 1) = xs.length + ys.length + 2 by omega] at hrun
  exact ⟨_, hrun, rfl, rfl, rfl, truncateDigest_code_toNat _⟩

end Sys2Proof.Machine
end
